-- ==== Sys2Proof/Word.lean ====
section
/-! DEFINITION. The word and byte types of the mailbox block: every register value and every word is a
32-bit unsigned number (R10), and shared memory is shown as bytes (R105). -/

namespace Sys2Proof

/-- A register value, a shared-memory word, an operation word (R10, R140). -/
abbrev Word := BitVec 32

/-- One byte of shared memory (R101). -/
abbrev Byte := BitVec 8

end Sys2Proof
end

