-- ==== Sys2Proof/Syntax.lean ====
section
/-! DEFINITION. The syntax of the mailbox block: ports, channels, registers, agents, operand forms, the 27
operations of the opcode map (R148), and the entries of an agent's program. -/

namespace Sys2Proof

/-- The two fixed ports, NP (index 0) and LP (index 1) (R8, R13). -/
inductive Port where
  | np
  | lp
deriving DecidableEq, Repr, Inhabited

/-- A channel id of a port, 0..7 (R8). -/
abbrev Chan := Fin 8

/-- A word index inside a slot or a message, 0..3 (R104, R146). -/
abbrev WordIdx := Fin 4

/-- A shared-memory slot index, 0..47 (R101). -/
abbrev Slot := Fin 48

/-- The five registers (R38). -/
inductive Reg where
  | tx
  | rx
  | status
  | mask
  | clr
deriving DecidableEq, Repr

/-- The direction of a synchronizer: IN toward AP, OUT toward the peer (R30, R41). -/
inductive Dir where
  | inward
  | outward
deriving DecidableEq, Repr

/-- The agents of R30. `caller k` exists for k below N_CALLERS. -/
inductive Agent where
  | caller (k : Nat)
  | dispatcher
  | peer (p : Port)
  | sync (dir : Dir) (p : Port) (c : Chan)
deriving DecidableEq, Repr, Inhabited

/-- A descriptor handle: an opaque identity, compared only for equality (R44). -/
abbrev Handle := Nat

/-- The name of a Caller's or a peer's result variable, the `t` of R150. -/
abbrev VarName := Nat

/-- The name of a descriptor handle, the `d` of R150. -/
abbrev DescName := Nat

/-- The operand form `x` of R150: a number or a bound name, combined with `|`, `&` and `~`. The issuing
agent evaluates it before the step. -/
inductive Expr where
  | lit (v : Word)
  | var (t : VarName)
  | or (x y : Expr)
  | and (x y : Expr)
  | not (x : Expr)
deriving DecidableEq, Repr

/-- The four operand words of SEND, in the word order of R104. -/
structure MsgExpr where
  kind : Expr
  payload : Expr
  length : Expr
  reserved : Expr
deriving DecidableEq, Repr

/-- The operations, one constructor for each row of the opcode map (R148). The fields of the word (W, P, CH)
are arguments; so are the operands outside the word (R141, R142, R144) and the name of the variable that
receives a read result or a result code (R150, R400). -/
inductive Instr where
  | rdTx (t : VarName)
  | rdRx (t : VarName)
  | rdStatus (t : VarName)
  | rdMask (t : VarName)
  | rdClr (t : VarName)
  | wrTx (x : Expr)
  | wrRx (x : Expr)
  | wrStatus (x : Expr)
  | wrMask (x : Expr)
  | wrClr (x : Expr)
  | alloc (d : DescName) (extra : Nat) (t : VarName)
  | configPort (d : DescName) (x : Expr)
  | configId (d : DescName) (x : Expr)
  | configHandshake (d : DescName) (x : Expr)
  | configHasReceive (d : DescName) (x : Expr)
  | configHasTxDrained (d : DescName) (x : Expr)
  | register (d : DescName) (t : VarName)
  | unregister (d : DescName) (t : VarName)
  | send (d : DescName) (msg : MsgExpr) (t : VarName)
  | bringup (t : VarName)
  | dispatch
  | pwrite (w : WordIdx) (p : Port) (c : Chan) (x : Expr)
  | ppost (p : Port) (c : Chan)
  | pread (w : WordIdx) (p : Port) (c : Chan) (t : VarName)
  | pdrain (p : Port) (c : Chan)
  | syncIn (p : Port) (c : Chan)
  | syncOut (p : Port) (c : Chan)
deriving DecidableEq, Repr

/-- The operands outside the operation word (R141, R142, R144): a result variable, a 32-bit operand, a
descriptor name, a natural number and four words. A word that has no use for an operand ignores it. -/
structure Operands where
  t : VarName := 0
  x : Expr := .lit 0
  d : DescName := 0
  extra : Nat := 0
  msg : MsgExpr := ⟨.lit 0, .lit 0, .lit 0, .lit 0⟩
deriving DecidableEq, Repr

/-- One access at the AP register port (R31): a byte address of the register space, a size in bytes, a
write enable, write data, and the variable that receives read data. -/
structure BusAccess where
  addr : Nat
  size : Nat
  write : Bool
  x : Expr
  t : VarName
deriving DecidableEq, Repr

/-- One entry of an agent's program (R63): an operation word with its operands, or a raw access at the AP
register port (R31, R106; log 8). -/
inductive Item where
  | op (word : Word) (operands : Operands)
  | bus (access : BusAccess)
deriving DecidableEq, Repr

/-- The reasons of `raise Refused(reason)` (R404). -/
inductive Reason where
  /-- The word matches no row of the opcode map (R149). -/
  | illegalOp
  /-- The word is issued by an agent that may not issue its class (R147). -/
  | wrongAgent
  /-- A register or SHM access of the wrong width, misaligned, or to no register (R106). -/
  | badAccess
  /-- A handle ALLOC never bound (R240, R242, R280). -/
  | badHandle
  /-- REGISTER, UNREGISTER or SEND before BRINGUP (R240, R280). -/
  | notBroughtUp
  /-- CONFIG of a descriptor that has a table entry (R242). -/
  | configWhileRegistered
  /-- A 1-bit descriptor field written with a value above 1 (R242). -/
  | badOperand
  /-- BRINGUP issued when `dev` is not UNINIT (R452). -/
  | rebringup
deriving DecidableEq, Repr

end Sys2Proof
end

