-- ==== Sys2Proof/Config.lean ====
section
/-! DEFINITION. What an implementation of the block fixes: the constants of R8, the parameters of R9 with
their reference values, and the free values (opaque constants nothing can evaluate). -/

namespace Sys2Proof

/-- ID_UNASSIGNED, the sentinel "any free id" (R8). -/
def idUnassigned : Nat := 8

/-- ID_REJECTED, "assignment rejected" (R8). -/
def idRejected : Nat := 9

/-- NSLOT, the number of slots (R8). -/
def slotCount : Nat := 48

/-- REGION_BYTES, the size of the shared-memory region (R8). -/
def regionBytes : Nat := 768

/-- FREE_INIT, the reset value of a port's free-channel counter (R8). -/
def freeInit : Nat := 8

/-- The byte order of a word in shared memory, BYTE_ORDER (R105). -/
inductive ByteOrder where
  | little
  | big
deriving DecidableEq, Repr

/-- The parameters the source leaves open (R9), and the interrupt number the Device holds and the block never
reads (R406). They are fixed for a machine: no step changes them. -/
structure Params where
  /-- REG_BASE -/
  regBase : Nat
  /-- OFF_TX -/
  offTx : Nat
  /-- OFF_RX -/
  offRx : Nat
  /-- OFF_STATUS -/
  offStatus : Nat
  /-- OFF_MASK -/
  offMask : Nat
  /-- OFF_CLR -/
  offClr : Nat
  /-- NP_DATA_LSB -/
  npDataLsb : Nat
  /-- LP_DATA_LSB -/
  lpDataLsb : Nat
  /-- NP_EMPTY_LSB -/
  npEmptyLsb : Nat
  /-- LP_EMPTY_LSB -/
  lpEmptyLsb : Nat
  /-- NP_FULL_LSB -/
  npFullLsb : Nat
  /-- LP_FULL_LSB -/
  lpFullLsb : Nat
  /-- SHM_BASE -/
  shmBase : Nat
  /-- BYTE_ORDER -/
  byteOrder : ByteOrder
  /-- ERRATUM_RESIDUAL -/
  erratumResidual : Bool
  /-- PEER_TRUSTED -/
  peerTrusted : Bool
  /-- N_CALLERS -/
  nCallers : Nat
  /-- The platform's interrupt number, held by the Device and never read (R406). -/
  irqNumber : Nat
deriving DecidableEq, Repr

/-- The reference values of R9. Where R9 gives none (REG_BASE, SHM_BASE, the interrupt number,
ERRATUM_RESIDUAL, N_CALLERS) the values are a DESIGN CHOICE (log 6), unsafe: a claim about one concrete machine
could lean on them, so statements are made for every `Params`. -/
def Params.reference : Params where
  regBase := 0
  offTx := 0x00
  offRx := 0x04
  offStatus := 0x08
  offMask := 0x0C
  offClr := 0x10
  npDataLsb := 0
  lpDataLsb := 16
  npEmptyLsb := 0
  lpEmptyLsb := 8
  npFullLsb := 16
  lpFullLsb := 24
  shmBase := 0
  byteOrder := .little
  erratumResidual := false
  peerTrusted := true
  nCallers := 1
  irqNumber := 0

namespace Config

/-- The free value of the n-th draw past the tape (R212, R241, R304, R452; log 4). Nothing constrains it. -/
opaque freeDraw : Nat → Nat

/-- The free choice of the agent that is scheduled when the schedule says nothing (R30; log 1). Nothing
constrains it. -/
opaque freeAgent : Nat → Agent

/-- What the byte of shared memory at an address holds at reset (R42, R103; log 5). Nothing constrains it. -/
opaque shmReset : Nat → Byte

end Config

end Sys2Proof
end

