-- ==== Sys2Proof/Machine/Layout.lean ====
section
/-! DEFINITION. Where things are: the field-position functions of R12, the register map of R38, the slots and
word addresses of R101 and R102. -/

namespace Sys2Proof

/-- All channel ids in rising order (R8). -/
def allChans : List Chan := [0, 1, 2, 3, 4, 5, 6, 7]

/-- All (port, channel) pairs, NP first. -/
def allPortChans : List (Port × Chan) :=
  allChans.map (fun c => (.np, c)) ++ allChans.map (fun c => (.lp, c))

/-- `bit(i)`: the word with only bit i set (R10). -/
def bit (i : Nat) : Word := 1#32 <<< i

/-- The word with the 8 bits from `lsb` upward set. -/
def byteField (lsb : Nat) : Word := 0xFF#32 <<< lsb

/-- The lowest bit of a port's field in TX, RX and CLR (R9). -/
def Params.dataLsb (cfg : Params) : Port → Nat
  | .np => cfg.npDataLsb
  | .lp => cfg.lpDataLsb

/-- The lowest bit of a port's EMPTY field in STATUS and MASK (R9). -/
def Params.emptyLsb (cfg : Params) : Port → Nat
  | .np => cfg.npEmptyLsb
  | .lp => cfg.lpEmptyLsb

/-- The lowest bit of a port's FULL field in STATUS and MASK (R9). -/
def Params.fullLsb (cfg : Params) : Port → Nat
  | .np => cfg.npFullLsb
  | .lp => cfg.lpFullLsb

/-- `DATA_BIT(p, c)` (R12). -/
def Params.dataBit (cfg : Params) (p : Port) (c : Chan) : Nat := cfg.dataLsb p + c.val

/-- `EMPTY_BIT(p, c)` (R12). -/
def Params.emptyBit (cfg : Params) (p : Port) (c : Chan) : Nat := cfg.emptyLsb p + c.val

/-- `FULL_BIT(p, c)` (R12). -/
def Params.fullBit (cfg : Params) (p : Port) (c : Chan) : Nat := cfg.fullLsb p + c.val

/-- `ORIGIN(p)`: both status fields of a port (R12). -/
def Params.origin (cfg : Params) (p : Port) : Word :=
  byteField (cfg.emptyLsb p) ||| byteField (cfg.fullLsb p)

/-- `DATA_FIELD(p)`: the data field of a port (R12). -/
def Params.dataField (cfg : Params) (p : Port) : Word := byteField (cfg.dataLsb p)

/-- The byte offset of a register (R38). -/
def Params.offset (cfg : Params) : Reg → Nat
  | .tx => cfg.offTx
  | .rx => cfg.offRx
  | .status => cfg.offStatus
  | .mask => cfg.offMask
  | .clr => cfg.offClr

/-- The byte address of a register (R100). -/
def Params.regAddr (cfg : Params) (r : Reg) : Nat := cfg.regBase + cfg.offset r

/-- The five registers in the order of R38. -/
def allRegs : List Reg := [.tx, .rx, .status, .mask, .clr]

/-- The register an access at the AP register port reaches: an aligned 32-bit access to one of the five
offsets; any other access reaches none (R106). No rule says that the five offsets differ, or what an access at an offset
two registers share reaches: it reaches the first of them in the order of `allRegs` (DESIGN CHOICE, log 32). -/
def Params.regAt (cfg : Params) (addr size : Nat) : Option Reg :=
  if size = 4 ∧ addr % 4 = 0 then allRegs.find? (fun r => cfg.regAddr r == addr) else none

/-- `wslot(p, c)`, the AP to p write slot (R102). -/
def wslot : Port → Chan → Slot
  | .np, c => ⟨32 + 8 + c.val, by omega⟩
  | .lp, c => ⟨32 + 0 + c.val, by omega⟩

/-- `rslot(p, c)`, the p to AP read slot (R102). -/
def rslot : Port → Chan → Slot
  | .np, c => ⟨16 + 8 + c.val, by omega⟩
  | .lp, c => ⟨0 + 8 + c.val, by omega⟩

/-- The byte address of word k of slot i (R101). -/
def Params.wordAddr (cfg : Params) (i : Slot) (k : WordIdx) : Nat :=
  cfg.shmBase + 16 * i.val + 4 * k.val

/-- An SHM access is an aligned 32-bit word access inside the region (R101, R106). -/
def Params.shmOk (cfg : Params) (addr : Nat) : Bool :=
  decide (addr % 4 = 0) && decide (cfg.shmBase ≤ addr) && decide (addr + 4 ≤ cfg.shmBase + regionBytes)

/-- The encoding of a port in the P field and in a descriptor (R44, R146): 0 NP, 1 LP. -/
def Port.toWord : Port → Word
  | .np => 0
  | .lp => 1

/-- The port a descriptor's `port` field names; none for an unknown port (R44, R243). -/
def Port.ofWord (v : Word) : Option Port :=
  if v = 0 then some .np else if v = 1 then some .lp else none

end Sys2Proof
end

