-- ==== Sys2Proof/WellFormed.lean ====
section
/-! DEFINITION. Static checks: legal parameters (R9, R35, R38, R106), who may issue an operation (R147), the
operand forms R150 allows, and an agent's program. -/

namespace Sys2Proof

/-- The four status fields, as (kind, port) with their bits: no two fields share a bit, every field is inside
the word, so every bit of STATUS belongs to exactly one field (R35). -/
def Params.statusLsbs (cfg : Params) : List Nat :=
  [cfg.npEmptyLsb, cfg.lpEmptyLsb, cfg.npFullLsb, cfg.lpFullLsb]

/-- 8-bit fields that start at the given bits stay inside the word and do not overlap. -/
def fieldsDisjoint (lsbs : List Nat) : Bool :=
  lsbs.all (fun l => decide (l + 8 ≤ 32)) &&
    decide (lsbs.Pairwise (fun a b => a + 8 ≤ b ∨ b + 8 ≤ a))

/-- The five register addresses are word-aligned, since only an aligned access reaches a register (R38, R106), and the
offsets are distinct, which no rule asks for. That parameters without this are not legal is a DESIGN CHOICE (log 32). -/
def Params.offsetsOk (cfg : Params) : Bool :=
  allRegs.all (fun r => decide (cfg.regAddr r % 4 = 0)) && decide ((allRegs.map cfg.offset).Nodup)

/-- The parameters are legal: aligned registers (R106) at distinct offsets (DESIGN CHOICE, log 32), disjoint data fields
(R38) and status fields (R35) inside the word (log 22), SHM_BASE a multiple of 4 (R9), at least one Caller (R9). -/
def Params.wf (cfg : Params) : Bool :=
  cfg.offsetsOk && fieldsDisjoint [cfg.npDataLsb, cfg.lpDataLsb] && fieldsDisjoint cfg.statusLsbs &&
    decide (cfg.shmBase % 4 = 0) && decide (1 ≤ cfg.nCallers)

/-- The agent that issues an operation; for a Caller operation, Caller 0 as a representative (R147). -/
def Instr.issuer : Instr → Agent
  | .rdTx _ | .rdRx _ | .rdStatus _ | .rdMask _ | .rdClr _ => .caller 0
  | .wrTx _ | .wrRx _ | .wrStatus _ | .wrMask _ | .wrClr _ => .caller 0
  | .alloc _ _ _ => .caller 0
  | .configPort _ _ | .configId _ _ | .configHandshake _ _ => .caller 0
  | .configHasReceive _ _ | .configHasTxDrained _ _ => .caller 0
  | .register _ _ | .unregister _ _ | .send _ _ _ | .bringup _ => .caller 0
  | .dispatch => .dispatcher
  | .pwrite _ p _ _ | .ppost p _ | .pread _ p _ _ | .pdrain p _ => .peer p
  | .syncIn p c => .sync .inward p c
  | .syncOut p c => .sync .outward p c

/-- R147: BUS and CHM only by a Caller, DSP only by the Dispatcher, PEER only by its own peer, SYNC only by its
own synchronizer. -/
def Instr.mayIssue (i : Instr) (a : Agent) : Bool :=
  match i.issuer, a with
  | .caller _, .caller _ => true
  | x, y => decide (x = y)

/-- A literal operand of a 1-bit descriptor field is 0 or 1 (R150: `config d.hs, 0|1`). -/
def Expr.isFlag : Expr → Bool
  | .lit v => decide (v.toNat ≤ 1)
  | _ => true

/-- The operand forms of R150: a 1-bit field is written with 0 or 1. -/
def Instr.wf : Instr → Bool
  | .configHandshake _ x | .configHasReceive _ x | .configHasTxDrained _ x => x.isFlag
  | _ => true

/-- The variables an operand uses. -/
def Expr.vars : Expr → List VarName
  | .lit _ => []
  | .var t => [t]
  | .or x y | .and x y => x.vars ++ y.vars
  | .not x => x.vars

/-- The variables an operation reads. -/
def Instr.uses : Instr → List VarName
  | .wrTx x | .wrRx x | .wrStatus x | .wrMask x | .wrClr x => x.vars
  | .configPort _ x | .configId _ x | .configHandshake _ x => x.vars
  | .configHasReceive _ x | .configHasTxDrained _ x => x.vars
  | .send _ m _ => m.kind.vars ++ m.payload.vars ++ m.length.vars ++ m.reserved.vars
  | .pwrite _ _ _ x => x.vars
  | _ => []

/-- The variables an operation binds when it returns. -/
def Instr.binds : Instr → List VarName
  | .rdTx t | .rdRx t | .rdStatus t | .rdMask t | .rdClr t => [t]
  | .alloc _ _ t | .register _ t | .unregister _ t | .send _ _ t | .bringup t => [t]
  | .pread _ _ _ t => [t]
  | _ => []

/-- A program an agent may run: each operation is well formed, is one the agent may issue (R147), and uses only
names bound by earlier operations (R150: "a previously bound name"). -/
def programWf (a : Agent) (bound : List VarName) : List Instr → Bool
  | [] => true
  | i :: rest =>
    i.wf && i.mayIssue a && i.uses.all (fun t => bound.contains t) && programWf a (i.binds ++ bound) rest

/-- The trusted peer's duty to write its slot "fully before posting" (R351, R369), as a check of its program: every post
of a channel comes after writes of all four words of the channel's slot since the last post of the channel. `written`
holds the words written so far. That "fully" means all four words, and anew for each post, is DEDUCED (log 31). R351 gives
the duty to the peer's program, so no step checks it. -/
def writesBeforePosts (written : List (Chan × WordIdx)) : List Instr → Bool
  | [] => true
  | .pwrite k _ c _ :: rest => writesBeforePosts ((c, k) :: written) rest
  | .ppost _ c :: rest =>
    decide (∀ k : WordIdx, (c, k) ∈ written) && writesBeforePosts (written.filter (fun x => x.1 != c)) rest
  | _ :: rest => writesBeforePosts written rest

end Sys2Proof
end

