-- ==== Sys2Proof/Decode.lean ====
section
/-! DEFINITION. Decoding an operation word with its operands (R140 to R149), the encoder, the raw access at the
AP register port (R31, R106), and the host's entry point on table words. -/

namespace Sys2Proof

/-- `P = op[3]`, 0 NP and 1 LP (R146). -/
def fieldP (w : Word) : Port := if w.getLsbD 3 then .lp else .np

/-- `CH = op[2:0]` (R146). -/
def fieldCh (w : Word) : Chan := ⟨w.toNat % 8, by omega⟩

/-- `W = op[5:4]` (R146). -/
def fieldW (w : Word) : WordIdx := ⟨w.toNat / 16 % 4, by omega⟩

/-- One row of the opcode map (R148): a word selects it if `word & mask = match`; `build` reads the fields of the
word and takes the operands outside it. -/
structure Row where
  mtch : Word
  mask : Word
  build : Word → Operands → Instr

/-- The opcode map of R148, row by row. -/
def opcodeMap : List Row :=
  [ ⟨0x00000000, 0xFFFFFFFF, fun _ o => .rdTx o.t⟩,
    ⟨0x00000001, 0xFFFFFFFF, fun _ o => .rdRx o.t⟩,
    ⟨0x00000002, 0xFFFFFFFF, fun _ o => .rdStatus o.t⟩,
    ⟨0x00000003, 0xFFFFFFFF, fun _ o => .rdMask o.t⟩,
    ⟨0x00000004, 0xFFFFFFFF, fun _ o => .rdClr o.t⟩,
    ⟨0x08000000, 0xFFFFFFFF, fun _ o => .wrTx o.x⟩,
    ⟨0x08000001, 0xFFFFFFFF, fun _ o => .wrRx o.x⟩,
    ⟨0x08000002, 0xFFFFFFFF, fun _ o => .wrStatus o.x⟩,
    ⟨0x08000003, 0xFFFFFFFF, fun _ o => .wrMask o.x⟩,
    ⟨0x08000004, 0xFFFFFFFF, fun _ o => .wrClr o.x⟩,
    ⟨0x10000000, 0xFFFFFFFF, fun _ o => .alloc o.d o.extra o.t⟩,
    ⟨0x11000000, 0xFFFFFFFF, fun _ o => .configPort o.d o.x⟩,
    ⟨0x11000001, 0xFFFFFFFF, fun _ o => .configId o.d o.x⟩,
    ⟨0x11000002, 0xFFFFFFFF, fun _ o => .configHandshake o.d o.x⟩,
    ⟨0x11000003, 0xFFFFFFFF, fun _ o => .configHasReceive o.d o.x⟩,
    ⟨0x11000004, 0xFFFFFFFF, fun _ o => .configHasTxDrained o.d o.x⟩,
    ⟨0x12000000, 0xFFFFFFFF, fun _ o => .register o.d o.t⟩,
    ⟨0x13000000, 0xFFFFFFFF, fun _ o => .unregister o.d o.t⟩,
    ⟨0x14000000, 0xFFFFFFFF, fun _ o => .send o.d o.msg o.t⟩,
    ⟨0x15000000, 0xFFFFFFFF, fun _ o => .bringup o.t⟩,
    ⟨0x20000000, 0xFFFFFFFF, fun _ _ => .dispatch⟩,
    ⟨0x30000000, 0xFFFFFFC0, fun w o => .pwrite (fieldW w) (fieldP w) (fieldCh w) o.x⟩,
    ⟨0x31000000, 0xFFFFFFF0, fun w _ => .ppost (fieldP w) (fieldCh w)⟩,
    ⟨0x32000000, 0xFFFFFFC0, fun w o => .pread (fieldW w) (fieldP w) (fieldCh w) o.t⟩,
    ⟨0x33000000, 0xFFFFFFF0, fun w _ => .pdrain (fieldP w) (fieldCh w)⟩,
    ⟨0x40000000, 0xFFFFFFF0, fun w _ => .syncIn (fieldP w) (fieldCh w)⟩,
    ⟨0x41000000, 0xFFFFFFF0, fun w _ => .syncOut (fieldP w) (fieldCh w)⟩ ]

/-- A word selects a row if `word & mask = match` (R148). -/
def Row.selects (r : Row) (w : Word) : Bool := w &&& r.mask == r.mtch

/-- Decoding is total: a word selects one row, or it is IllegalOp (R149). -/
def decode (w : Word) (o : Operands) : Except Reason Instr :=
  match opcodeMap.find? (fun r => r.selects w) with
  | some r => .ok (r.build w o)
  | none => .error .illegalOp

/-- The low field bits `P<<3 | c` (R144, R145). -/
def encodePC (p : Port) (c : Chan) : Word :=
  (match p with
    | .np => 0#32
    | .lp => 8#32) ||| BitVec.ofNat 32 c.val

/-- The field bits `w<<4 | P<<3 | c` (R144). -/
def encodeWPC (w : WordIdx) (p : Port) (c : Chan) : Word :=
  BitVec.ofNat 32 (16 * w.val) ||| encodePC p c

/-- The operation word of an operation (R141 to R145). -/
def encodeWord : Instr → Word
  | .rdTx _ => 0x00000000
  | .rdRx _ => 0x00000001
  | .rdStatus _ => 0x00000002
  | .rdMask _ => 0x00000003
  | .rdClr _ => 0x00000004
  | .wrTx _ => 0x08000000
  | .wrRx _ => 0x08000001
  | .wrStatus _ => 0x08000002
  | .wrMask _ => 0x08000003
  | .wrClr _ => 0x08000004
  | .alloc _ _ _ => 0x10000000
  | .configPort _ _ => 0x11000000
  | .configId _ _ => 0x11000001
  | .configHandshake _ _ => 0x11000002
  | .configHasReceive _ _ => 0x11000003
  | .configHasTxDrained _ _ => 0x11000004
  | .register _ _ => 0x12000000
  | .unregister _ _ => 0x13000000
  | .send _ _ _ => 0x14000000
  | .bringup _ => 0x15000000
  | .dispatch => 0x20000000
  | .pwrite w p c _ => 0x30000000 ||| encodeWPC w p c
  | .ppost p c => 0x31000000 ||| encodePC p c
  | .pread w p c _ => 0x32000000 ||| encodeWPC w p c
  | .pdrain p c => 0x33000000 ||| encodePC p c
  | .syncIn p c => 0x40000000 ||| encodePC p c
  | .syncOut p c => 0x41000000 ||| encodePC p c

/-- The operands outside the word, the unused ones at their defaults (R141 to R145). -/
def encodeOperands : Instr → Operands
  | .rdTx t | .rdRx t | .rdStatus t | .rdMask t | .rdClr t => { t := t }
  | .wrTx x | .wrRx x | .wrStatus x | .wrMask x | .wrClr x => { x := x }
  | .alloc d extra t => { d := d, extra := extra, t := t }
  | .configPort d x | .configId d x | .configHandshake d x => { d := d, x := x }
  | .configHasReceive d x | .configHasTxDrained d x => { d := d, x := x }
  | .register d t | .unregister d t => { d := d, t := t }
  | .send d msg t => { d := d, msg := msg, t := t }
  | .bringup t => { t := t }
  | .pwrite _ _ _ x => { x := x }
  | .pread _ _ _ t => { t := t }
  | .dispatch | .ppost _ _ | .pdrain _ _ | .syncIn _ _ | .syncOut _ _ => {}

/-- The program entry that holds an operation: its word and its operands (R63). -/
def encode (i : Instr) : Item := .op (encodeWord i) (encodeOperands i)

/-- The read of a register as an operation (R141, W = 0). -/
def rdInstr (r : Reg) (t : VarName) : Instr :=
  match r with
  | .tx => .rdTx t
  | .rx => .rdRx t
  | .status => .rdStatus t
  | .mask => .rdMask t
  | .clr => .rdClr t

/-- The write of a register as an operation (R141, W = 1). -/
def wrInstr (r : Reg) (x : Expr) : Instr :=
  match r with
  | .tx => .wrTx x
  | .rx => .wrRx x
  | .status => .wrStatus x
  | .mask => .wrMask x
  | .clr => .wrClr x

/-- A raw access at the AP register port is the BUS operation on the register it reaches, and BadAccess where it
reaches none (R106, R200). -/
def decodeBus (cfg : Params) (a : BusAccess) : Except Reason Instr :=
  match cfg.regAt a.addr a.size with
  | some r => .ok (if a.write then wrInstr r a.x else rdInstr r a.t)
  | none => .error .badAccess

/-- Decoding a program entry. -/
def decodeItem (cfg : Params) : Item → Except Reason Instr
  | .op w o => decode w o
  | .bus a => decodeBus cfg a

/-- The operation word on the bits of a table row, bits above `nbits` zero; none if that is no 32-bit word
(R140: every operation word is 32 bits). -/
def tableWord (nbits w : Nat) : Option Word :=
  if w % 2 ^ nbits < 2 ^ 32 then some (BitVec.ofNat 32 (w % 2 ^ nbits)) else none

/-- The instruction the decoder reads from the bits of a table row, with every operand outside the word zero. -/
def decodeTableWord (nbits w : Nat) : Option Instr :=
  match tableWord nbits w with
  | none => none
  | some word =>
    match decode word {} with
    | .ok i => some i
    | .error _ => none

end Sys2Proof
end

