-- ==== Sys2Proof/Machine/Chans.lean ====
section
/-! DEFINITION. Values indexed by port, and by (port, channel): the shape of `tx[p][c]`, `inq[p][c]`, `free[p]`
and the other indexed state of R33 to R46. -/

namespace Sys2Proof.Machine

/-- One value for each port. -/
structure PerPort (α : Type) where
  np : α
  lp : α
deriving DecidableEq, Repr

/-- The value of a port. -/
def PerPort.get {α : Type} (f : PerPort α) : Port → α
  | .np => f.np
  | .lp => f.lp

/-- Replace the value of a port. -/
def PerPort.set {α : Type} (f : PerPort α) (p : Port) (v : α) : PerPort α :=
  match p with
  | .np => { f with np := v }
  | .lp => { f with lp := v }

/-- One value for each (port, channel). -/
structure Chans (α : Type) where
  np : Vector α 8
  lp : Vector α 8
deriving DecidableEq, Repr

/-- The same value everywhere. -/
def Chans.fill {α : Type} (v : α) : Chans α := ⟨Vector.replicate 8 v, Vector.replicate 8 v⟩

/-- The value at (p, c). -/
def Chans.get {α : Type} (f : Chans α) (p : Port) (c : Chan) : α :=
  match p with
  | .np => f.np[c]
  | .lp => f.lp[c]

/-- Replace the value at (p, c). -/
def Chans.set {α : Type} (f : Chans α) (p : Port) (c : Chan) (v : α) : Chans α :=
  match p with
  | .np => { f with np := f.np.set c v }
  | .lp => { f with lp := f.lp.set c v }

/-- Apply a function at every (p, c): the shape of the loops `for p in {NP, LP}, c in 0..7` of R205, R207 and
R209, whose rounds touch disjoint places. -/
def Chans.mapC {α β : Type} (g : Port → Chan → α → β) (f : Chans α) : Chans β :=
  ⟨Vector.ofFn fun c => g .np c f.np[c], Vector.ofFn fun c => g .lp c f.lp[c]⟩

end Sys2Proof.Machine
end

