-- ==== Sys2Proof/Machine/Memory.lean ====
section
/-! DEFINITION. Maps from natural numbers to values kept as sorted lists in one canonical form, and shared memory
as such a map from byte addresses to bytes (R42, R101, R105). -/

namespace Sys2Proof.Machine

/-- The value at a key. -/
def Assoc.get? {α : Type} : List (Nat × α) → Nat → Option α
  | [], _ => none
  | (k, v) :: rest, a => if k = a then some v else Assoc.get? rest a

/-- Write the value at a key, keeping the keys strictly rising. -/
def Assoc.put {α : Type} : List (Nat × α) → Nat → α → List (Nat × α)
  | [], a, x => [(a, x)]
  | (k, v) :: rest, a, x =>
    if a < k then (a, x) :: (k, v) :: rest
    else if k = a then (a, x) :: rest
    else (k, v) :: Assoc.put rest a x

/-- The canonical form: keys strictly rising. -/
abbrev Assoc.wf {α : Type} (m : List (Nat × α)) : Prop := m.Pairwise (fun x y => x.1 < y.1)

/-- The bytes of shared memory written since reset, in canonical form. An address that is not listed has not been
written: it reads as whatever it held at reset, any value (R42), so no listed byte equals what an unlisted address
reads as (log 5). -/
abbrev Memory := List Host.Cell

/-- The byte written last at an address; none if nothing has written it. -/
def Memory.read? (m : Memory) (a : Nat) : Option Byte := Assoc.get? m a

/-- Write one byte. -/
def Memory.write (m : Memory) (a : Nat) (b : Byte) : Memory := Assoc.put m a b

/-- The canonical form of a memory: addresses strictly rising. -/
abbrev Memory.wf (m : Memory) : Prop := Assoc.wf m

/-- What a byte reads as: the latest write (R111), or the free value it held at reset (R42). -/
def Memory.byte (m : Memory) (a : Nat) : Byte := (m.read? a).getD (Config.shmReset a)

/-- The byte of a word at offset k (0..3), in the given byte order (R105). -/
def byteOfWord (order : ByteOrder) (v : Word) (k : Nat) : Byte :=
  match order with
  | .little => v.extractLsb' (8 * k) 8
  | .big => v.extractLsb' (8 * (3 - k)) 8

/-- The word whose bytes, at rising addresses, are the given ones (R105). -/
def wordOfBytes (order : ByteOrder) (b0 b1 b2 b3 : Byte) : Word :=
  match order with
  | .little => b3 ++ b2 ++ b1 ++ b0
  | .big => b0 ++ b1 ++ b2 ++ b3

/-- Read the word at an address (R107: one word access). -/
def Memory.readWord (m : Memory) (order : ByteOrder) (a : Nat) : Word :=
  wordOfBytes order (m.byte a) (m.byte (a + 1)) (m.byte (a + 2)) (m.byte (a + 3))

/-- Write the word at an address (R107: one word access). -/
def Memory.writeWord (m : Memory) (order : ByteOrder) (a : Nat) (v : Word) : Memory :=
  (((m.write a (byteOfWord order v 0)).write (a + 1) (byteOfWord order v 1)).write (a + 2)
    (byteOfWord order v 2)).write (a + 3) (byteOfWord order v 3)

end Sys2Proof.Machine
end

