-- ==== Sys2Proof/Machine/State.lean ====
section
/-! DEFINITION. The state of the mailbox block as plain data, with everything 10_state.md names, the fault and
refusal types, and the state after reset (R65, R450). -/

namespace Sys2Proof.Machine

/-- A message: four words (R104). -/
structure Msg where
  kind : Word
  payload : Word
  length : Word
  reserved : Word
deriving DecidableEq, Repr

/-- Events crossing from a peer's domain into AP's (R41). -/
inductive InEvent where
  | post
  | drain
deriving DecidableEq, Repr

/-- Events crossing from AP's domain into a peer's (R41). -/
inductive OutEvent where
  | txset
  | rxack
  | txclr
deriving DecidableEq, Repr

/-- The state of the Device singleton (R43). -/
inductive Dev where
  | uninit
  | ok
  | failed
deriving DecidableEq, Repr

/-- A descriptor record (R44). -/
structure Desc where
  port : Word
  id : Nat
  handshake : Bool
  hasReceive : Bool
  hasTxDrained : Bool
  extra : Nat
deriving DecidableEq, Repr

/-- An entry of a channel table (R45). Its `id` is the channel under which `State.table` holds it (log 17). -/
structure Entry where
  d : Handle
  hs : Bool
  txd : Bool
  rslot : Slot
  wslot : Slot
deriving DecidableEq, Repr

/-- The result codes (R400). -/
inductive ResultCode where
  | ok
  | invalidArgument
  | resourceExhausted
  | alreadyAssigned
  | notRegistered
  | channelBusy
  | hardwareBringupFailed
  | allocFailed
deriving DecidableEq, Repr

/-- The channel-manager operations that end with a result code (R400). -/
inductive ChmOp where
  | alloc
  | register
  | unregister
  | send
  | bringup
deriving DecidableEq, Repr

/-- The elements of the event log (R60). -/
inductive Event where
  | receive (p : Port) (c : Chan) (msg : Msg)
  | txDrained (p : Port) (c : Chan)
  | stray (p : Port) (w : Word)
  | peerRead (p : Port) (c : Chan) (k : WordIdx) (v : Word)
  | result (agent : Agent) (op : ChmOp) (code : ResultCode)
deriving DecidableEq, Repr

/-- The work items of one DISPATCH (R62). -/
inductive WorkItem where
  | drain (p : Port) (c : Chan)
  | recv (p : Port) (c : Chan) (rslot : Slot)
  | stray (p : Port) (w : Word)
deriving DecidableEq, Repr

/-- The message buffer `buf` with the index `k` of the next word (R62): the words of `buf` read so far for the
item at the head of `work`; the words not read yet hold nothing a rule reads (log 16). -/
inductive RecvBuf where
  | k0
  | k1 (w0 : Word)
  | k2 (w0 w1 : Word)
  | k3 (w0 w1 w2 : Word)
deriving DecidableEq, Repr

/-- The Dispatcher's phase (R61) with the locals that are defined in it (R62): `s` from SNAP on, `m` from MASKRD
on, `a`, `work`, `buf` and `k` in RUN. While IDLE the locals are undefined, and there are none to read. -/
inductive DPhase where
  | idle
  | acq
  | snap (s : Word)
  | ack (s : Word)
  | maskrd (s m : Word)
  | run (s m a : Word) (work : List WorkItem) (buf : RecvBuf)
deriving DecidableEq, Repr

/-- The step a SEND in progress takes next (R281), with the TX reads taken so far: `copy k` is S(3+k). -/
inductive SendPhase where
  | s2
  | copy (k : WordIdx) (t : Word)
  | s7 (t : Word)
  | s8 (t t2 : Word)
deriving DecidableEq, Repr

/-- The locals of a SEND in progress (R281): phase, `p`, `b`, `ws` and `msg`. -/
structure SendLocals where
  phase : SendPhase
  p : Port
  b : Nat
  ws : Slot
  msg : Msg
deriving DecidableEq, Repr

/-- An operation stream (R32, R63): a program, the index of its next operation, and the result variables bound so
far, by name in canonical form (R150). -/
structure Stream where
  prog : List Item
  idx : Nat
  vars : List (Nat × Word)
deriving DecidableEq, Repr

/-- A Caller's state (R63). `send` is the operation in progress; only SEND is multi-step. -/
structure Caller where
  stream : Stream
  send : Option SendLocals
deriving DecidableEq, Repr

/-- The state of the block, its agents and its shared memory (10_state.md). -/
structure State where
  /-- The parameters of R9, fixed for the machine. -/
  cfg : Params
  /-- `tx[p][c]` (R33). -/
  tx : Chans Bool
  /-- `rx[p][c]` (R34). -/
  rx : Chans Bool
  /-- `STATUS` (R35). -/
  status : Word
  /-- `MASK` (R36). -/
  mask : Word
  /-- `line_en` (R37). -/
  lineEn : Bool
  /-- `pv_tx[p][c]` (R39). -/
  pvTx : Chans Bool
  /-- `preq[p][c]` (R40). -/
  preq : Chans Bool
  /-- `inq[p][c]` (R41), oldest first. -/
  inq : Chans (List InEvent)
  /-- `outq[p][c]` (R41), oldest first. -/
  outq : Chans (List OutEvent)
  /-- `SHM` (R42). -/
  shm : Memory
  /-- `dev` (R43). -/
  dev : Dev
  /-- `desc` (R44): the record of handle h stands at position h; records are never removed. -/
  desc : List Desc
  /-- `table[p]` (R45), by port and entry id. -/
  table : Chans (Option Entry)
  /-- `free[p]` (R46). -/
  free : PerPort Nat
  /-- `log` (R60), oldest first. -/
  log : List Event
  /-- `dphase` and the Dispatcher's locals (R61, R62). -/
  dphase : DPhase
  /-- The Callers (R63), `Caller(k)` at position k. -/
  callers : List Caller
  /-- The peers' operation streams (R472). -/
  peers : PerPort Stream
  /-- The descriptor names bound by ALLOC (R150, R241), in canonical form. -/
  names : List (Nat × Handle)
  /-- `refused` (R404). -/
  refused : Option Reason
  /-- The model's own: the agent whose step this is (R147; log 3). -/
  cur : Agent
  /-- The model's own: the agents to be scheduled next (R30; log 1). -/
  sched : List Agent
  /-- The model's own: how many free scheduling choices were taken (log 1). -/
  tick : Nat
  /-- The model's own: the values of the next free draws (log 4). -/
  tape : List Nat
  /-- The model's own: how many free draws were taken past the tape (log 4). -/
  drawn : Nat
deriving DecidableEq, Repr

/-- The faults of the machine: there are none, because the block has no fault (93_implementation_defined.md:
"`fault`: not used, because the block has no fault"). Nothing raises one. -/
inductive Fault where
deriving DecidableEq, Repr

/-- Why a step has no next state. -/
inductive Refusal where
  /-- Raised by `exec` for an instruction with no meaning yet; no arm raises it now. Safe. -/
  | notModelled (mnemonic : String)
  /-- Raised by `step` in a state that carries a refusal mark: no step of any agent is enabled after a refusal,
  and the run stops there (R404). Safe: the spec gives no further step. -/
  | runStopped (reason : Reason)
deriving DecidableEq, Repr

/-- An operation stream at reset: index 0 (R65); no program placed and no name bound (log 12, 14). -/
def Stream.reset : Stream := ⟨[], 0, []⟩

/-- The state after reset for given parameters (R65, R450, R451). -/
def State.resetWith (cfg : Params) : State where
  cfg := cfg
  tx := Chans.fill false
  rx := Chans.fill false
  status := 0
  mask := 0
  lineEn := false
  pvTx := Chans.fill false
  preq := Chans.fill false
  inq := Chans.fill []
  outq := Chans.fill []
  shm := []
  dev := .uninit
  desc := []
  table := Chans.fill none
  free := ⟨freeInit, freeInit⟩
  log := []
  dphase := .idle
  callers := List.replicate cfg.nCallers ⟨Stream.reset, none⟩
  peers := ⟨Stream.reset, Stream.reset⟩
  names := []
  refused := none
  cur := .caller 0
  sched := []
  tick := 0
  tape := []
  drawn := 0

/-- The state after reset with the reference parameters. -/
def State.reset : State := State.resetWith Params.reference

end Sys2Proof.Machine
end

