-- ==== Sys2Proof/Machine/Flags.lean ====
section
/-! DEFINITION. The combinational parts (R300 to R303), the computed views of stored state (R46, R47, R201,
R202), the numbers of the result codes (R400), and the demultiplexer (R304, R305). -/

namespace Sys2Proof.Machine

/-- `ACT = STATUS & MASK` (R301). -/
def State.act (s : State) : Word := s.status &&& s.mask

/-- `irq = line_en and ((STATUS & MASK) != 0)` (R300). -/
def State.irq (s : State) : Bool := s.lineEn && (s.act != 0)

/-- `ACT_PORT(p)` (R301). -/
def State.actPort (s : State) (p : Port) : Word := s.act &&& s.cfg.origin p

/-- `FULL_EVT(p, c)` (R301). -/
def State.fullEvt (s : State) (p : Port) (c : Chan) : Bool := s.act.getLsbD (s.cfg.fullBit p c)

/-- `EMPTY_EVT(p, c)` (R301). -/
def State.emptyEvt (s : State) (p : Port) (c : Chan) : Bool := s.act.getLsbD (s.cfg.emptyBit p c)

/-- The word with `f[p][c]` at `DATA_BIT(p, c)` and 0 elsewhere: the read of TX and RX (R201, R202). -/
def packData (cfg : Params) (f : Chans Bool) : Word :=
  allPortChans.foldr (fun pc w => (if f.get pc.1 pc.2 then bit (cfg.dataBit pc.1 pc.2) else 0) ||| w) 0

/-- `|table[p]|` (R45). -/
def tableSize (t : Chans (Option Entry)) (p : Port) : Nat :=
  allChans.countP (fun c => (t.get p c).isSome)

/-- `|table[NP]| + |table[LP]|` (R243). -/
def State.registeredCount (s : State) : Nat := tableSize s.table .np + tableSize s.table .lp

/-- Where the entry of a handle stands (R247: "pointer equality"). Handles are unique over both tables (R45), so
there is at most one; were there more, the first in port and id order is taken (log 20). -/
def State.entryOf (s : State) (h : Handle) : Option (Port × Chan) :=
  allPortChans.find? (fun pc => (s.table.get pc.1 pc.2).any (fun e => e.d == h))

/-- The lowest id no entry of `table[p]` holds (R245: first fit). -/
def State.firstFree (s : State) (p : Port) : Option Chan :=
  allChans.find? (fun c => (s.table.get p c).isNone)

/-- Who holds the three locks across steps (R47, R306): the Dispatcher in every phase but IDLE. REGISTER and
UNREGISTER hold theirs only inside their one step (R240), so no state shows it. -/
def State.lockHolder (s : State) : Option Agent := if s.dphase = .idle then none else some .dispatcher

/-- `mask_lock` (R47). -/
def State.maskLock (s : State) : Option Agent := s.lockHolder

/-- `port_lock[p]` (R47). -/
def State.portLock (s : State) (_p : Port) : Option Agent := s.lockHolder

/-- The numbers of the result codes (R400). -/
def ResultCode.toWord : ResultCode → Word
  | .ok => 0
  | .invalidArgument => 1
  | .resourceExhausted => 2
  | .alreadyAssigned => 3
  | .notRegistered => 4
  | .channelBusy => 5
  | .hardwareBringupFailed => 6
  | .allocFailed => 7

/-- The word of a message at an index (R104). -/
def Msg.word (m : Msg) (k : WordIdx) : Word :=
  match k with
  | 0 => m.kind
  | 1 => m.payload
  | 2 => m.length
  | 3 => m.reserved

/-- The index `k` of the next word to read into `buf` (R62). -/
def RecvBuf.k : RecvBuf → WordIdx
  | .k0 => 0
  | .k1 _ => 1
  | .k2 _ _ => 2
  | .k3 _ _ _ => 3

/-- One round of the demultiplexer's loop for the entry e of channel c (R304, steps 5a and 5b): the items it adds
and the word that remains. -/
def demuxEntry (cfg : Params) (p : Port) (c : Chan) (e : Entry) (w : Word) : List WorkItem × Word :=
  let eb := cfg.emptyBit p c
  let fb := cfg.fullBit p c
  let tookEmpty := w.getLsbD eb && e.hs
  let w1 := if tookEmpty then w &&& ~~~(bit eb) else w
  let tookFull := w1.getLsbD fb
  let w2 := if tookFull then w1 &&& ~~~(bit fb) else w1
  ((if tookEmpty && e.txd then [.drain p c] else []) ++ (if tookFull then [.recv p c e.rslot] else []), w2)

/-- One scan of the table's entries in the order of the given channels (R304). -/
def demuxScan (cfg : Params) (p : Port) (t : Chans (Option Entry)) : List Chan → Word → List WorkItem × Word
  | [], w => ([], w)
  | c :: rest, w =>
    match t.get p c with
    | none => demuxScan cfg p t rest w
    | some e =>
      let r := demuxEntry cfg p c e w
      let rs := demuxScan cfg p t rest r.2
      (r.1 ++ rs.1, rs.2)

/-- The stray item of the bits no entry took (R304, step 5c). -/
def strayItem (p : Port) (w : Word) : List WorkItem := if w ≠ 0 then [.stray p w] else []

/-- `DEMUX(p, w0, T, order)` (R304). -/
def demux (cfg : Params) (p : Port) (w0 : Word) (t : Chans (Option Entry)) (order : List Chan) :
    List WorkItem :=
  let r := demuxScan cfg p t order (w0 &&& cfg.origin p)
  r.1 ++ strayItem p r.2

/-- The source's loop (R305): scan again while the word is not zero and the last scan took a bit; at most `fuel`
scans. -/
def demuxLoop (cfg : Params) (p : Port) (t : Chans (Option Entry)) (order : List Chan) :
    Nat → Word → List WorkItem × Word
  | 0, w => ([], w)
  | fuel + 1, w =>
    if w = 0 then ([], w)
    else
      let r := demuxScan cfg p t order w
      if r.2 = w then (r.1, r.2)
      else
        let rs := demuxLoop cfg p t order fuel r.2
        (r.1 ++ rs.1, rs.2)

/-- An order of a table's entries chosen by a number (R304): every number gives an order of all channels, and
every order is given by some number (log 18). -/
def permOf {α : Type} : Nat → List α → List α
  | _, [] => []
  | key, x :: xs => (permOf (key / (xs.length + 1)) xs).insertIdx (key % (xs.length + 1)) x

/-- An actionable bit of (p, c) is owned (R312): FULL of a registered channel. -/
def ownsFull (t : Chans (Option Entry)) (p : Port) (c : Chan) : Bool := (t.get p c).isSome

/-- An actionable bit of (p, c) is owned (R312): EMPTY of a registered channel in handshake mode. -/
def ownsEmpty (t : Chans (Option Entry)) (p : Port) (c : Chan) : Bool := (t.get p c).any (fun e => e.hs)

end Sys2Proof.Machine
end

