-- ==== Sys2Proof/Machine/Operands.lean ====
section
/-! DEFINITION. The operand forms (R150): the issuing agent evaluates them from its own variables and the bound
descriptor names. -/

namespace Sys2Proof.Machine

/-- The operation stream of an agent: Callers and peers have one (R63, R472), the Dispatcher and the synchronizers
issue one fixed operation and have none. -/
def State.streamOf (s : State) : Agent → Option Stream
  | .caller k => (s.callers[k]?).map (fun c => c.stream)
  | .peer p => some (s.peers.get p)
  | .dispatcher => none
  | .sync _ _ _ => none

/-- A result variable of the issuing agent; a name nothing has bound reads 0 (DESIGN CHOICE, log 12). -/
def State.readVar (s : State) (t : VarName) : Word :=
  match s.streamOf s.cur with
  | some st => (Assoc.get? st.vars t).getD 0
  | none => 0

/-- The value of a 32-bit operand, evaluated by the issuing agent (R150). -/
def State.eval (s : State) : Expr → Word
  | .lit v => v
  | .var t => s.readVar t
  | .or x y => s.eval x ||| s.eval y
  | .and x y => s.eval x &&& s.eval y
  | .not x => ~~~(s.eval x)

/-- The message of SEND's four operand words (R142, R104). -/
def State.evalMsg (s : State) (m : MsgExpr) : Msg :=
  ⟨s.eval m.kind, s.eval m.payload, s.eval m.length, s.eval m.reserved⟩

/-- The handle a descriptor name stands for; none if ALLOC never bound it (R150, R240). -/
def State.handleOf (s : State) (d : DescName) : Option Handle := Assoc.get? s.names d

/-- The handle and the record a descriptor name stands for; none is BadHandle (R240, R242, R280). -/
def State.lookupDesc (s : State) (d : DescName) : Option (Handle × Desc) :=
  match s.handleOf d with
  | none => none
  | some h => (s.desc[h]?).map (fun D => (h, D))

end Sys2Proof.Machine
end

