-- ==== Sys2Proof/Machine/Ops.lean ====
section
/-! DEFINITION. The named operations every meaning is written over: the refusal mark (R404), results and the
return of an operation (R400, R32), free draws, register access (R200 to R212), shared-memory access (R101, R106),
the clock-domain crossing (R41), and entry to and return from DISPATCH (R408, R409). -/

namespace Sys2Proof.Machine

/-- The outcome of one step of the block. -/
abbrev Out := Host.Outcome State Fault Refusal

/-- `raise Refused(reason)` (R404): the mark is set and nothing else changes. -/
def State.raise (s : State) (r : Reason) : State := { s with refused := some r }

/-- `emit E` (R11, R60). -/
def State.emit (s : State) (e : Event) : State := { s with log := s.log ++ [e] }

/-- Change the operation stream of the issuing agent. -/
def State.updStream (s : State) (f : Stream → Stream) : State :=
  match s.cur with
  | .caller k => { s with callers := s.callers.modify k (fun c => { c with stream := f c.stream }) }
  | .peer p => { s with peers := s.peers.set p (f (s.peers.get p)) }
  | .dispatcher => s
  | .sync _ _ _ => s

/-- Bind a result variable of the issuing agent (R150). -/
def State.bind (s : State) (t : VarName) (v : Word) : State :=
  s.updStream (fun st => { st with vars := Assoc.put st.vars t v })

/-- The operation returns: the agent's index advances by one (R32). -/
def State.retire (s : State) : State := s.updStream (fun st => { st with idx := st.idx + 1 })

/-- The operation in progress of the issuing Caller (R63). -/
def State.setSend (s : State) (x : Option SendLocals) : State :=
  match s.cur with
  | .caller k => { s with callers := s.callers.modify k (fun c => { c with send := x }) }
  | .dispatcher => s
  | .peer _ => s
  | .sync _ _ _ => s

/-- A channel-manager operation ends with a result code (R400): it is appended to the log, bound to the operation's
result variable, and the operation returns. -/
def State.finish (s : State) (op : ChmOp) (t : VarName) (code : ResultCode) : State :=
  ((s.emit (.result s.cur op code)).bind t code.toWord).retire

/-- The class check of R147 for BUS and CHM: only a Caller may issue. -/
def State.asCaller (s : State) (body : Caller → Out) : Out :=
  match s.cur with
  | .caller k =>
    match s.callers[k]? with
    | some c => body c
    | none => .next (s.raise .wrongAgent)
  | .dispatcher => .next (s.raise .wrongAgent)
  | .peer _ => .next (s.raise .wrongAgent)
  | .sync _ _ _ => .next (s.raise .wrongAgent)

/-- The class check of R147 for DSP, PEER and SYNC: only the one agent may issue. -/
def State.asAgent (s : State) (a : Agent) (body : Out) : Out :=
  if s.cur = a then body else .next (s.raise .wrongAgent)

/-! ### Free draws (log 4) -/

/-- The value of the next free draw. -/
def State.draw (s : State) : Nat :=
  match s.tape with
  | v :: _ => v
  | [] => Config.freeDraw s.drawn

/-- The state after one free draw. -/
def State.afterDraw (s : State) : State :=
  match s.tape with
  | _ :: rest => { s with tape := rest }
  | [] => { s with drawn := s.drawn + 1 }

/-- `draw_bool()` and `draw_bit()` (R241, R452). -/
def State.drawBool (s : State) : Bool := s.draw % 2 == 1

/-- `draw_word()` (R241). -/
def State.drawWord (s : State) : Word := BitVec.ofNat 32 s.draw

/-- A free order of the channels of a table (R304). -/
def State.drawOrder (s : State) : List Chan := permOf s.draw allChans

/-! ### Register access -/

/-- `MMIORead(r)` (R200 to R204, R210). -/
def State.mmioRead (s : State) : Reg → Word
  | .tx => packData s.cfg s.tx
  | .rx => packData s.cfg s.rx
  | .status => s.status
  | .mask => s.mask
  | .clr => 0

/-- The write of TX, write-1-to-set (R205). -/
def State.writeTx (s : State) (x : Word) : State :=
  { s with
    tx := s.tx.mapC (fun p c b => b || x.getLsbD (s.cfg.dataBit p c))
    outq := s.outq.mapC (fun p c q =>
      if x.getLsbD (s.cfg.dataBit p c) && !(s.tx.get p c) then q ++ [.txset] else q) }

/-- The write of CLR, write-1-to-clear on `tx` (R209). -/
def State.writeClr (s : State) (x : Word) : State :=
  { s with
    tx := s.tx.mapC (fun p c b => b && !(x.getLsbD (s.cfg.dataBit p c)))
    outq := s.outq.mapC (fun p c q =>
      if x.getLsbD (s.cfg.dataBit p c) && s.tx.get p c then q ++ [.txclr] else q) }

/-- Clear the given bits of STATUS; a cleared FULL bit acknowledges the message (R207). -/
def State.clearStatus (s : State) (cleared : Word) : State :=
  { s with
    status := s.status &&& ~~~cleared
    rx := s.rx.mapC (fun p c b => b && !(cleared.getLsbD (s.cfg.fullBit p c)))
    outq := s.outq.mapC (fun p c q => if cleared.getLsbD (s.cfg.fullBit p c) then q ++ [.rxack] else q) }

/-- The bits a write-1-to-clear write of STATUS is kept from clearing: none without the erratum, a free choice
for each bit and each write with it (R212; log 21). -/
def State.keepMask (s : State) : Word := if s.cfg.erratumResidual then s.drawWord else 0

/-- The state after the erratum's draw, if there is one (R212). -/
def State.afterKeep (s : State) : State := if s.cfg.erratumResidual then s.afterDraw else s

/-- The write of STATUS, write-1-to-clear (R207, R212). -/
def State.writeStatus (s : State) (x : Word) : State :=
  s.afterKeep.clearStatus (x &&& s.status &&& ~~~s.keepMask)

/-- `MMIOWrite(r, x)` (R200, R205 to R209). -/
def State.mmioWrite (s : State) (r : Reg) (x : Word) : State :=
  match r with
  | .tx => s.writeTx x
  | .rx => s
  | .status => s.writeStatus x
  | .mask => { s with mask := x }
  | .clr => s.writeClr x

/-! ### Shared-memory access -/

/-- `MemRead(addr, 4)` (R107); none is BadAccess (R106). -/
def State.memRead (s : State) (addr : Nat) : Option Word :=
  if s.cfg.shmOk addr then some (s.shm.readWord s.cfg.byteOrder addr) else none

/-- `MemWrite(addr, 4, v)` (R107); none is BadAccess (R106). -/
def State.memWrite (s : State) (addr : Nat) (v : Word) : Option State :=
  if s.cfg.shmOk addr then some { s with shm := s.shm.writeWord s.cfg.byteOrder addr v } else none

/-! ### The clock-domain crossing -/

/-- `enqueue(inq[p][c], e)` (R11, R41). -/
def State.enqueueIn (s : State) (p : Port) (c : Chan) (e : InEvent) : State :=
  { s with inq := s.inq.set p c (s.inq.get p c ++ [e]) }

/-- The delivery of one inbound event in AP's domain: R361 for POST, R362 for DRAIN. -/
def State.deliverIn (s : State) (p : Port) (c : Chan) : InEvent → State
  | .post => { s with rx := s.rx.set p c true, status := s.status ||| bit (s.cfg.fullBit p c) }
  | .drain =>
    if s.tx.get p c then
      { s with tx := s.tx.set p c false, status := s.status ||| bit (s.cfg.emptyBit p c) }
    else s

/-- The delivery of one outbound event in the peer's domain: R363 for TXSET, R364 for RXACK, R365 for TXCLR. -/
def State.deliverOut (s : State) (p : Port) (c : Chan) : OutEvent → State
  | .txset => { s with pvTx := s.pvTx.set p c true }
  | .rxack => { s with preq := s.preq.set p c false }
  | .txclr => { s with pvTx := s.pvTx.set p c false }

/-! ### Entry to and return from DISPATCH, the block's only trap -/

/-- IDLE -> ACQ (R306, R408): the Dispatcher takes the three locks; nothing is saved and nothing else changes. -/
def State.enterDispatch (s : State) : State := { s with dphase := .acq }

/-- RUN -> IDLE (R309, R409): the three locks are released and the locals become undefined. -/
def State.leaveDispatch (s : State) : State := { s with dphase := .idle }

end Sys2Proof.Machine
end

