-- ==== Sys2Proof/Machine/Bus.lean ====
section
/-! DEFINITION. The BUS operations (40_register_access.md): each is one atomic step of a Caller, needs no lock and
is enabled at any time (R200). -/

namespace Sys2Proof.Machine

/-- `rd r -> t` (R200): one bus read; it writes only `t`. -/
def State.busRead (s : State) (r : Reg) (t : VarName) : Out :=
  s.asCaller fun _ => .next ((s.bind t (s.mmioRead r)).retire)

/-- `wr r, x` (R200): one bus write of the operand's value. -/
def State.busWrite (s : State) (r : Reg) (x : Expr) : Out :=
  s.asCaller fun _ => .next ((s.mmioWrite r (s.eval x)).retire)

/-- RD_TX (R201). -/
def execRdTx (t : VarName) (s : State) : Out := s.busRead .tx t

/-- RD_RX (R202). -/
def execRdRx (t : VarName) (s : State) : Out := s.busRead .rx t

/-- RD_STATUS (R203). -/
def execRdStatus (t : VarName) (s : State) : Out := s.busRead .status t

/-- RD_MASK (R204). -/
def execRdMask (t : VarName) (s : State) : Out := s.busRead .mask t

/-- RD_CLR (R210). -/
def execRdClr (t : VarName) (s : State) : Out := s.busRead .clr t

/-- WR_TX (R205). -/
def execWrTx (x : Expr) (s : State) : Out := s.busWrite .tx x

/-- WR_RX (R206). -/
def execWrRx (x : Expr) (s : State) : Out := s.busWrite .rx x

/-- WR_STATUS (R207, R212). -/
def execWrStatus (x : Expr) (s : State) : Out := s.busWrite .status x

/-- WR_MASK (R208). -/
def execWrMask (x : Expr) (s : State) : Out := s.busWrite .mask x

/-- WR_CLR (R209). -/
def execWrClr (x : Expr) (s : State) : Out := s.busWrite .clr x

end Sys2Proof.Machine
end

