-- ==== Sys2Proof/Machine/Dispatcher.lean ====
section
/-! DEFINITION. DISPATCH (43_dispatch.md): one call of the meaning is one step of the phases of R306. -/

namespace Sys2Proof.Machine

/-- The work of one DISPATCH (R303, R307): NP first, each port only if it has an actionable bit. -/
def State.buildWork (s : State) (a : Word) (orderNP orderLP : List Chan) : List WorkItem :=
  (if a &&& s.cfg.origin .np ≠ 0 then demux s.cfg .np a s.table orderNP else []) ++
    (if a &&& s.cfg.origin .lp ≠ 0 then demux s.cfg .lp a s.table orderLP else [])

/-- MASKRD -> RUN (R307): the orders of the two tables are free choices of the step (R304). -/
def State.startRun (s : State) (w m : Word) : State :=
  let a := w &&& m
  let s1 := s.afterDraw
  { s1.afterDraw with dphase := .run w m a (s.buildWork a s.drawOrder s1.drawOrder) .k0 }

/-- One RUN step on a `Recv` item (R308): read word k of the slot; the fourth word completes the message. -/
def State.runRecv (s : State) (w m a : Word) (p : Port) (c : Chan) (rs : Slot) (rest : List WorkItem)
    (buf : RecvBuf) : Out :=
  match s.memRead (s.cfg.wordAddr rs buf.k) with
  | none => .next (s.raise .badAccess)
  | some v =>
    match buf with
    | .k0 => .next { s with dphase := .run w m a (.recv p c rs :: rest) (.k1 v) }
    | .k1 w0 => .next { s with dphase := .run w m a (.recv p c rs :: rest) (.k2 w0 v) }
    | .k2 w0 w1 => .next { s with dphase := .run w m a (.recv p c rs :: rest) (.k3 w0 w1 v) }
    | .k3 w0 w1 w2 =>
      .next { s.emit (.receive p c ⟨w0, w1, w2, v⟩) with dphase := .run w m a rest .k0 }

/-- DISPATCH (R306 to R309): one step of the Dispatcher in its phase. In IDLE without `irq` it is not enabled and
waits (log 2). -/
def execDispatch (s : State) : Out :=
  s.asAgent .dispatcher
    (match s.dphase with
      | .idle => if s.irq then .next s.enterDispatch else .next s
      | .acq => .next { s with dphase := .snap (s.mmioRead .status) }
      | .snap w => .next { s.mmioWrite .status w with dphase := .ack w }
      | .ack w => .next { s with dphase := .maskrd w (s.mmioRead .mask) }
      | .maskrd w m => .next (s.startRun w m)
      | .run _ _ _ [] _ => .next s.leaveDispatch
      | .run w m a (.drain p c :: rest) buf =>
        .next { s.emit (.txDrained p c) with dphase := .run w m a rest buf }
      | .run w m a (.stray p x :: rest) buf =>
        .next { s.emit (.stray p x) with dphase := .run w m a rest buf }
      | .run w m a (.recv p c rs :: rest) buf => s.runRecv w m a p c rs rest buf)

end Sys2Proof.Machine
end

