-- ==== Sys2Proof/Machine/Peer.lean ====
section
/-! DEFINITION. The peer moves (44_peer_cdc.md): each is one atomic step of its own peer. With PEER_TRUSTED a move
is enabled only under its contract; without it, in every state (R354). A move that is not enabled waits (log 2). -/

namespace Sys2Proof.Machine

/-- A peer move: the issuer check of R147, then the guard of the contract for a trusted peer (R350 to R354). -/
def State.peerMove (s : State) (p : Port) (guard : Bool) (body : Out) : Out :=
  s.asAgent (.peer p) (if s.cfg.peerTrusted && !guard then .next s else body)

/-- PWRITE (R350): the peer's TX slot is AP's read slot. -/
def execPwrite (w : WordIdx) (p : Port) (c : Chan) (x : Expr) (s : State) : Out :=
  s.peerMove p (!(s.preq.get p c))
    (match s.memWrite (s.cfg.wordAddr (rslot p c) w) (s.eval x) with
      | none => .next (s.raise .badAccess)
      | some s' => .next s'.retire)

/-- PPOST (R351). -/
def execPpost (p : Port) (c : Chan) (s : State) : Out :=
  s.peerMove p (!(s.preq.get p c))
    (.next ({ s with preq := s.preq.set p c true }.enqueueIn p c .post).retire)

/-- PREAD (R352): what the peer read is in the log, and bound to its result variable. -/
def execPread (w : WordIdx) (p : Port) (c : Chan) (t : VarName) (s : State) : Out :=
  s.peerMove p (s.pvTx.get p c)
    (match s.memRead (s.cfg.wordAddr (wslot p c) w) with
      | none => .next (s.raise .badAccess)
      | some v => .next ((s.emit (.peerRead p c w v)).bind t v).retire)

/-- PDRAIN (R353). -/
def execPdrain (p : Port) (c : Chan) (s : State) : Out :=
  s.peerMove p (s.pvTx.get p c)
    (.next ({ s with pvTx := s.pvTx.set p c false }.enqueueIn p c .drain).retire)

end Sys2Proof.Machine
end

