-- ==== Sys2Proof/Machine/Registration.lean ====
section
/-! DEFINITION. Descriptors, registration and bring-up (41_registration.md, R452): ALLOC, the five CONFIG
operations, REGISTER, UNREGISTER and BRINGUP. -/

namespace Sys2Proof.Machine

/-! ### ALLOC -/

/-- A fresh record under a fresh handle, bound to the name d (R241): `id` is "unassigned", `extra` is the operand,
the other fields are free draws. Records are never removed, so the next position is fresh (log 10). -/
def State.allocate (s : State) (d : DescName) (extra : Nat) : State :=
  let s1 := s.afterDraw
  let s2 := s1.afterDraw
  let s3 := s2.afterDraw
  let s4 := s3.afterDraw
  { s4 with
    desc := s.desc ++ [⟨s.drawWord, idUnassigned, s1.drawBool, s2.drawBool, s3.drawBool, extra⟩]
    names := Assoc.put s.names d s.desc.length }

/-- ALLOC (R241): it may fail by a draw, and then changes nothing but the log. -/
def execAlloc (d : DescName) (extra : Nat) (t : VarName) (s : State) : Out :=
  s.asCaller fun _ => .next
    (if s.drawBool then s.afterDraw.finish .alloc t .allocFailed
     else (s.afterDraw.allocate d extra).finish .alloc t .ok)

/-! ### CONFIG -/

/-- CONFIG of one field (R242), checks in the order of R401: BadHandle, ConfigWhileRegistered, BadOperand. `f` is the
change of the record, none where the operand does not fit the field. -/
def State.config (s : State) (d : DescName) (f : Desc → Option Desc) : Out :=
  s.asCaller fun _ =>
    match s.lookupDesc d with
    | none => .next (s.raise .badHandle)
    | some (h, D) =>
      if (s.entryOf h).isSome then .next (s.raise .configWhileRegistered)
      else
        match f D with
        | none => .next (s.raise .badOperand)
        | some D' => .next ({ s with desc := s.desc.set h D' }.retire)

/-- A 1-bit field's new value; none above 1 (R242). -/
def flagOf (v : Word) : Option Bool := if v = 0 then some false else if v = 1 then some true else none

/-- CONFIG_PORT (R242). -/
def execConfigPort (d : DescName) (x : Expr) (s : State) : Out :=
  s.config d (fun D => some { D with port := s.eval x })

/-- CONFIG_ID (R242): any number; REGISTER checks it. -/
def execConfigId (d : DescName) (x : Expr) (s : State) : Out :=
  s.config d (fun D => some { D with id := (s.eval x).toNat })

/-- CONFIG_HANDSHAKE (R242). -/
def execConfigHandshake (d : DescName) (x : Expr) (s : State) : Out :=
  s.config d (fun D => (flagOf (s.eval x)).map (fun b => { D with handshake := b }))

/-- CONFIG_HAS_RECEIVE (R242). -/
def execConfigHasReceive (d : DescName) (x : Expr) (s : State) : Out :=
  s.config d (fun D => (flagOf (s.eval x)).map (fun b => { D with hasReceive := b }))

/-- CONFIG_HAS_TX_DRAINED (R242). -/
def execConfigHasTxDrained (d : DescName) (x : Expr) (s : State) : Out :=
  s.config d (fun D => (flagOf (s.eval x)).map (fun b => { D with hasTxDrained := b }))

/-! ### REGISTER and UNREGISTER -/

/-- The lock, device-state and handle rules of R240 around the body of REGISTER or UNREGISTER. While a DISPATCH
holds the locks the operation is not enabled and waits (log 2). -/
def State.managed (s : State) (op : ChmOp) (d : DescName) (t : VarName)
    (body : Handle → Desc → State × ResultCode) : Out :=
  s.asCaller fun _ =>
    if s.dphase ≠ .idle then .next s
    else
      match s.dev with
      | .uninit => .next (s.raise .notBroughtUp)
      | .failed => .next (s.finish op t .hardwareBringupFailed)
      | .ok =>
        match s.lookupDesc d with
        | none => .next (s.raise .badHandle)
        | some (h, D) => .next ((body h D).1.finish op t (body h D).2)

/-- Write `desc[h].id` (R243). -/
def State.setDescId (s : State) (h : Handle) (n : Nat) : State :=
  { s with desc := s.desc.modify h (fun D => { D with id := n }) }

/-- REGISTER's MASK update (R244). -/
def State.unmask (s : State) (p : Port) (c : Chan) (hs : Bool) : State :=
  let m := s.mmioRead .mask ||| bit (s.cfg.fullBit p c)
  s.mmioWrite .mask (if hs then m ||| bit (s.cfg.emptyBit p c) else m)

/-- The successful end of REGISTER (R243): the descriptor gets its id, the table its entry with the cached slots,
the counter is decremented, and MASK is updated. -/
def State.install (s : State) (h : Handle) (D : Desc) (p : Port) (c : Chan) : State :=
  let s1 := s.setDescId h c.val
  let e : Entry := ⟨h, D.handshake, D.hasTxDrained, rslot p c, wslot p c⟩
  let s2 := { s1 with table := s1.table.set p c (some e), free := s1.free.set p (s1.free.get p - 1) }
  s2.unmask p c D.handshake

/-- "enable-on-first-register" (R243): with both tables empty the line opens. -/
def State.openLine (s : State) : State :=
  { s with lineEn := if s.registeredCount = 0 then true else s.lineEn }

/-- The body of REGISTER (R243), checks in the source's order. -/
def State.register (s : State) (h : Handle) (D : Desc) : State × ResultCode :=
  if !D.hasReceive then (s, .invalidArgument)
  else
    match Port.ofWord D.port with
    | none => (s, .invalidArgument)
    | some p =>
      if D.id > idUnassigned then (s, .invalidArgument)
      else
        if s.openLine.free.get p = 0 then (s.openLine, .resourceExhausted)
        else if hid : D.id < 8 then
          if (s.openLine.table.get p ⟨D.id, hid⟩).isSome then
            (s.openLine.setDescId h idRejected, .alreadyAssigned)
          else (s.openLine.install h D p ⟨D.id, hid⟩, .ok)
        else
          match s.openLine.firstFree p with
          | some c => (s.openLine.install h D p c, .ok)
          | none => (s.openLine, .resourceExhausted)

/-- REGISTER (R240, R243 to R246). -/
def execRegister (d : DescName) (t : VarName) (s : State) : Out :=
  s.managed .register d t (fun h D => s.register h D)

/-- The removal of the entry at (p, c) (R247): mask both bits first, remove the entry, increment the counter, and
close the line after the last one. -/
def State.removeEntry (s : State) (p : Port) (c : Chan) : State :=
  let m := s.mmioRead .mask
  let s1 := s.mmioWrite .mask (m &&& ~~~(bit (s.cfg.fullBit p c) ||| bit (s.cfg.emptyBit p c)))
  let t := s1.table.set p c none
  { s1 with
    table := t
    free := s1.free.set p (s1.free.get p + 1)
    lineEn := if tableSize t .np + tableSize t .lp = 0 then false else s1.lineEn }

/-- The body of UNREGISTER (R247). -/
def State.unregister (s : State) (h : Handle) : State × ResultCode :=
  match s.entryOf h with
  | none => (s, .notRegistered)
  | some (p, c) => (s.removeEntry p c, .ok)

/-- UNREGISTER (R240, R247, R248). -/
def execUnregister (d : DescName) (t : VarName) (s : State) : Out :=
  s.managed .unregister d t (fun h _ => s.unregister h)

/-! ### BRINGUP -/

/-- BRINGUP (R452): one step, no lock, always enabled; whether it succeeds is a draw. -/
def execBringup (t : VarName) (s : State) : Out :=
  s.asCaller fun _ =>
    if s.dev ≠ .uninit then .next (s.raise .rebringup)
    else .next
      (if s.drawBool then ({ s.afterDraw with dev := .failed }.finish .bringup t .hardwareBringupFailed)
       else ({ s.afterDraw with dev := .ok }.finish .bringup t .ok))

end Sys2Proof.Machine
end

