-- ==== Sys2Proof/Machine/Send.lean ====
section
/-! DEFINITION. SEND (42_send.md): eight atomic steps S1 to S8 of one Caller; one call of the meaning is one step. -/

namespace Sys2Proof.Machine

/-- SEND returns with a result code (R280, R282, R285): nothing is in progress any more. -/
def State.finishSend (s : State) (t : VarName) (code : ResultCode) : State :=
  (s.setSend none).finish .send t code

/-- S1 (R280): the lookup, under `port_lock`, enabled only while `dphase = IDLE`. -/
def State.sendLookup (s : State) (d : DescName) (msg : MsgExpr) (t : VarName) : Out :=
  if s.dphase ≠ .idle then .next s
  else
    match s.dev with
    | .uninit => .next (s.raise .notBroughtUp)
    | .failed => .next (s.finishSend t .hardwareBringupFailed)
    | .ok =>
      match s.lookupDesc d with
      | none => .next (s.raise .badHandle)
      | some (h, D) =>
        match Port.ofWord D.port with
        | none => .next (s.finishSend t .invalidArgument)
        | some p =>
          match allChans.find? (fun c => (s.table.get p c).any (fun e => e.d == h)) with
          | none => .next (s.finishSend t .notRegistered)
          | some c =>
            match s.table.get p c with
            | none => .next (s.finishSend t .notRegistered)
            | some e => .next (s.setSend (some ⟨.s2, p, s.cfg.dataBit p c, e.wslot, s.evalMsg msg⟩))

/-- The step after the copy of word k (R283). -/
def sendAfterCopy (k : WordIdx) (t : Word) : SendPhase :=
  match k with
  | 0 => .copy 1 t
  | 1 => .copy 2 t
  | 2 => .copy 3 t
  | 3 => .s7 t

/-- S2 to S8 (R282 to R285), from the locals of the operation in progress. -/
def State.sendStep (s : State) (l : SendLocals) (t : VarName) : Out :=
  match l.phase with
  | .s2 =>
    if (s.mmioRead .tx).getLsbD l.b then .next (s.finishSend t .channelBusy)
    else .next (s.setSend (some { l with phase := .copy 0 (s.mmioRead .tx) }))
  | .copy k t1 =>
    match s.memWrite (s.cfg.wordAddr l.ws k) (l.msg.word k) with
    | none => .next (s.raise .badAccess)
    | some s' => .next (s'.setSend (some { l with phase := sendAfterCopy k t1 }))
  | .s7 t1 => .next (s.setSend (some { l with phase := .s8 t1 (s.mmioRead .tx) }))
  | .s8 _ t2 => .next ((s.mmioWrite .tx (t2 ||| bit l.b)).finishSend t .ok)

/-- SEND (R280 to R286): S1 when nothing is in progress, else the next step of the one in progress. -/
def execSend (d : DescName) (msg : MsgExpr) (t : VarName) (s : State) : Out :=
  s.asCaller fun c =>
    match c.send with
    | none => s.sendLookup d msg t
    | some l => s.sendStep l t

end Sys2Proof.Machine
end

