-- ==== Sys2Proof/Machine/Sync.lean ====
section
/-! DEFINITION. The synchronizer deliveries (R360 to R365): each takes the head of its queue, in order (R367). An
empty queue has no step: the synchronizer waits (log 2). -/

namespace Sys2Proof.Machine

/-- SYNC_IN (R360 to R362). -/
def execSyncIn (p : Port) (c : Chan) (s : State) : Out :=
  s.asAgent (.sync .inward p c)
    (match s.inq.get p c with
      | [] => .next s
      | e :: rest => .next ({ s with inq := s.inq.set p c rest }.deliverIn p c e))

/-- SYNC_OUT (R360, R363 to R365). -/
def execSyncOut (p : Port) (c : Chan) (s : State) : Out :=
  s.asAgent (.sync .outward p c)
    (match s.outq.get p c with
      | [] => .next s
      | e :: rest => .next ({ s with outq := s.outq.set p c rest }.deliverOut p c e))

end Sys2Proof.Machine
end

