-- ==== Sys2Proof/Machine/Dispatch.lean ====
section
/-! DEFINITION. One arm for each operation: the call of its meaning. -/

namespace Sys2Proof.Machine

def exec (i : Instr) (s : State) : Host.Outcome State Fault Refusal :=
  match i with
  | .rdTx t => Sys2Proof.Machine.execRdTx t s
  | .rdRx t => Sys2Proof.Machine.execRdRx t s
  | .rdStatus t => Sys2Proof.Machine.execRdStatus t s
  | .rdMask t => Sys2Proof.Machine.execRdMask t s
  | .rdClr t => Sys2Proof.Machine.execRdClr t s
  | .wrTx x => Sys2Proof.Machine.execWrTx x s
  | .wrRx x => Sys2Proof.Machine.execWrRx x s
  | .wrStatus x => Sys2Proof.Machine.execWrStatus x s
  | .wrMask x => Sys2Proof.Machine.execWrMask x s
  | .wrClr x => Sys2Proof.Machine.execWrClr x s
  | .alloc d extra t => Sys2Proof.Machine.execAlloc d extra t s
  | .configPort d x => Sys2Proof.Machine.execConfigPort d x s
  | .configId d x => Sys2Proof.Machine.execConfigId d x s
  | .configHandshake d x => Sys2Proof.Machine.execConfigHandshake d x s
  | .configHasReceive d x => Sys2Proof.Machine.execConfigHasReceive d x s
  | .configHasTxDrained d x => Sys2Proof.Machine.execConfigHasTxDrained d x s
  | .register d t => Sys2Proof.Machine.execRegister d t s
  | .unregister d t => Sys2Proof.Machine.execUnregister d t s
  | .send d msg t => Sys2Proof.Machine.execSend d msg t s
  | .bringup t => Sys2Proof.Machine.execBringup t s
  | .dispatch => Sys2Proof.Machine.execDispatch s
  | .pwrite w p c x => Sys2Proof.Machine.execPwrite w p c x s
  | .ppost p c => Sys2Proof.Machine.execPpost p c s
  | .pread w p c t => Sys2Proof.Machine.execPread w p c t s
  | .pdrain p c => Sys2Proof.Machine.execPdrain p c s
  | .syncIn p c => Sys2Proof.Machine.execSyncIn p c s
  | .syncOut p c => Sys2Proof.Machine.execSyncOut p c s

end Sys2Proof.Machine
end

