-- ==== Sys2Proof/Machine/Fetch.lean ====
section
/-! DEFINITION. Which agent moves next, the operation it issues, and where a word is placed to be issued next. -/

namespace Sys2Proof.Machine

/-- The agent of the next step: the head of the schedule, or a free choice (R30; log 1). -/
def State.nextAgent (s : State) : Agent :=
  match s.sched with
  | a :: _ => a
  | [] => Config.freeAgent s.tick

/-- The state in which the next agent takes its step: the scheduling choice is used up (log 1). -/
def State.scheduled (s : State) : State :=
  match s.sched with
  | a :: rest => { s with cur := a, sched := rest }
  | [] => { s with cur := Config.freeAgent s.tick, tick := s.tick + 1 }

/-- The operation the current agent issues: a Caller's or peer's program at its index (R32), the Dispatcher's and a
synchronizer's one operation (R306, R360); none past the end of a program. -/
def State.fetch (s : State) : Option Item :=
  match s.cur with
  | .caller k => (s.callers[k]?).bind (fun c => c.stream.prog[c.stream.idx]?)
  | .peer p => (s.peers.get p).prog[(s.peers.get p).idx]?
  | .dispatcher => some (encode .dispatch)
  | .sync .inward p c => some (encode (.syncIn p c))
  | .sync .outward p c => some (encode (.syncOut p c))

/-- The refusal of an entry that decodes to no operation. An access to no register is BadAccess, but from an agent
that may issue no BUS operation it is WrongAgent first (R401). -/
def State.rejectItem (s : State) (r : Reason) : State :=
  match r, s.cur with
  | .badAccess, .caller _ => s.raise .badAccess
  | .badAccess, _ => s.raise .wrongAgent
  | r, _ => s.raise r

/-- Put an entry at the index of a stream. -/
def Stream.place (st : Stream) (it : Item) : Stream :=
  { st with
    prog := st.prog.take st.idx ++ List.replicate (st.idx - st.prog.length) it ++ [it] ++
      st.prog.drop (st.idx + 1) }

/-- Put an entry where Caller 0 issues it next; a state without Callers gets one. -/
def placeCaller (it : Item) : List Caller → List Caller
  | [] => [⟨Stream.reset.place it, none⟩]
  | c :: rest => { c with stream := c.stream.place it } :: rest

/-- The agent that issues a word: that of the operation it decodes to (R147), or Caller 0 for a word that decodes to
none. -/
def wordIssuer (word : Word) : Agent :=
  match decode word {} with
  | .ok i => i.issuer
  | .error _ => .caller 0

/-- Place a word with zero operands where its issuing agent fetches next, and schedule that agent next (log 14). -/
def State.placeWord (s : State) (word : Word) : State :=
  let a := wordIssuer word
  let s1 := { s with sched := a :: s.sched }
  match a with
  | .caller _ => { s1 with callers := placeCaller (.op word {}) s1.callers }
  | .peer p => { s1 with peers := s1.peers.set p ((s1.peers.get p).place (.op word {})) }
  | .dispatcher => s1
  | .sync _ _ _ => s1

end Sys2Proof.Machine
end

