-- ==== Sys2Proof/Machine/Step.lean ====
section
/-! DEFINITION. One step of the machine: one atomic step of the agent that is scheduled (R30, R107), and the host's
placement of a word. -/

namespace Sys2Proof.Machine

/-- One step. After a refusal no agent has an enabled step and the run stops (R404). Otherwise the scheduled agent
issues its next operation: an entry that decodes to none is refused (R149, R106), an agent past the end of its
program has no step (log 2), and any other operation takes its meaning's step. -/
def step (s : State) : Host.Outcome State Fault Refusal :=
  match s.refused with
  | some r => .refused (.runStopped r)
  | none =>
    match s.scheduled.fetch with
    | none => .next s.scheduled
    | some it =>
      match decodeItem s.scheduled.cfg it with
      | .error r => .next (s.scheduled.rejectItem r)
      | .ok i => exec i s.scheduled

/-- The state with the instruction of a table row where the very next step fetches it (log 14): placed in the program
of the agent that issues it, which is scheduled next. A number that is no 32-bit word changes nothing. -/
def State.withFetchWord (s : State) (nbits w : Nat) : State :=
  match tableWord nbits w with
  | none => s
  | some word => s.placeWord word

end Sys2Proof.Machine
end

