-- ==== Sys2Proof/Safety.lean ====
section
/-! DEFINITION. The terms claims are made in: which agent has an enabled step (R30), the end of a run (R472), the
fairness premises (R471), the invariants of R45 and R64, and the observation of a run (R60, R472). -/

namespace Sys2Proof.Machine

/-! ### Enabled steps -/

/-- The enabling condition of an operation, for the agent that issues it (R200, R240, R280, R306, R350 to R354,
R360, R452). -/
def State.enables (s : State) : Instr → Bool
  | .register _ _ => decide (s.dphase = .idle)
  | .unregister _ _ => decide (s.dphase = .idle)
  | .send _ _ _ =>
    match s.cur with
    | .caller k => (s.callers[k]?).any (fun c => c.send.isSome) || decide (s.dphase = .idle)
    | _ => true
  | .dispatch => decide (s.dphase ≠ .idle) || s.irq
  | .pwrite _ p c _ => !s.cfg.peerTrusted || !(s.preq.get p c)
  | .ppost p c => !s.cfg.peerTrusted || !(s.preq.get p c)
  | .pread _ p c _ => !s.cfg.peerTrusted || s.pvTx.get p c
  | .pdrain p c => !s.cfg.peerTrusted || s.pvTx.get p c
  | .syncIn p c => !(s.inq.get p c).isEmpty
  | .syncOut p c => !(s.outq.get p c).isEmpty
  | _ => true

/-- The agent whose step it is may issue the operation (R147), and exists if it is a Caller. -/
def State.mayIssue (s : State) (i : Instr) : Bool :=
  i.mayIssue s.cur &&
    match s.cur with
    | .caller k => decide (k < s.callers.length)
    | _ => true

/-- The current agent has an enabled step (R30): no refusal is recorded (R404), it has an operation to issue, and that
operation is refused or enabled. -/
def State.canStepNow (s : State) : Bool :=
  s.refused.isNone &&
    match s.fetch with
    | none => false
    | some it =>
      match decodeItem s.cfg it with
      | .error _ => true
      | .ok i => !s.mayIssue i || s.enables i

/-- The agent has an enabled step (R30). -/
def State.canStep (s : State) (a : Agent) : Bool := { s with cur := a }.canStepNow

/-! ### Runs -/

/-- The observation of a state of a run: its log and the refusal mark (R60, R472). -/
def State.observe (s : State) : List Event × Option Reason := (s.log, s.refused)

/-- No event is in flight (R472). -/
def State.queuesEmpty (s : State) : Bool :=
  allPortChans.all (fun pc => (s.inq.get pc.1 pc.2).isEmpty && (s.outq.get pc.1 pc.2).isEmpty)

/-- A stream has issued its last operation (R472). -/
def Stream.ended (st : Stream) : Bool := decide (st.prog.length ≤ st.idx)

/-- The end of a run (R472). -/
def State.finished (s : State) : Bool :=
  s.callers.all (fun c => c.stream.ended && c.send.isNone) && decide (s.dphase = .idle) && !s.irq &&
    s.queuesEmpty && s.peers.np.ended && s.peers.lp.ended

/-- An infinite run of the machine. -/
def IsRun (r : Nat → State) : Prop := ∀ n, step (r n) = .next (r (n + 1))

/-- Weak fairness (R471): an agent that has an enabled step for ever takes one. It covers the start of DISPATCH while
`irq = 1` (R306), the delivery of every non-empty queue (R366), and every other agent. -/
def WeaklyFair (r : Nat → State) : Prop :=
  ∀ a n, (∀ m, n ≤ m → (r m).canStep a = true) → ∃ m, n ≤ m ∧ (r m).nextAgent = a

/-- A trusted peer drains every post it has seen (R369, R471). -/
def PeersDrain (r : Nat → State) : Prop :=
  ∀ p c n, (r n).pvTx.get p c = true → ∃ m, n ≤ m ∧ (r m).pvTx.get p c = false

/-- The operations of a peer's program, in order (R472). An entry that decodes to none is refused when it is issued, and the
run ends there (R404). -/
def State.peerProgram (s : State) (p : Port) : List Instr :=
  (s.peers.get p).prog.filterMap fun it =>
    match decodeItem s.cfg it with
    | .ok i => some i
    | .error _ => none

/-- Every peer's program writes a slot fully before it posts (R351: "which the peer's own program must keep"; R369). A
premise on programs, as `PeersDrain` is one on runs: no step checks it (log 31). -/
def State.peersPostFully (s : State) : Prop := ∀ p, writesBeforePosts [] (s.peerProgram p) = true

/-- The fairness premises of R471 together. -/
def FairRun (r : Nat → State) : Prop :=
  IsRun r ∧ WeaklyFair r ∧ ((r 0).cfg.peerTrusted = true → PeersDrain r)

/-- A run in which trusted peers keep every duty of R369: they drain (R471), their programs write fully before they post,
and the guard of PPOST keeps them from posting while `preq = 1` (R351). -/
def DutifulRun (r : Nat → State) : Prop :=
  FairRun r ∧ ((r 0).cfg.peerTrusted = true → (r 0).peersPostFully)

/-! ### Invariants -/

/-- R64(a): `rx[p][c] = STATUS[FULL_BIT(p, c)]`. -/
def State.rxMirrorsFull (s : State) : Prop :=
  ∀ p c, s.rx.get p c = s.status.getLsbD (s.cfg.fullBit p c)

/-- R64(b): `line_en = 1` exactly when a channel is registered. -/
def State.lineFollowsTables (s : State) : Prop := s.lineEn = true ↔ 0 < s.registeredCount

/-- R64(c): MASK agrees with the tables. -/
def State.maskFollowsTables (s : State) : Prop :=
  ∀ p c, s.mask.getLsbD (s.cfg.fullBit p c) = (s.table.get p c).isSome ∧
    s.mask.getLsbD (s.cfg.emptyBit p c) = (s.table.get p c).any (fun e => e.hs)

/-- R64(d): `free[p] + |table[p]| = 8`. -/
def State.countersAgree (s : State) : Prop := ∀ p, s.free.get p + tableSize s.table p = 8

/-- R45(b): no handle appears in two entries of all tables. -/
def State.handlesUnique (s : State) : Prop :=
  ∀ p c e q d f, s.table.get p c = some e → s.table.get q d = some f → e.d = f.d → p = q ∧ c = d

/-- An entry's descriptor exists, names the entry's port, and holds the entry's id or the rejected sentinel (R243,
R246(c)); its cached slots are those of R102. -/
def State.entriesSound (s : State) : Prop :=
  ∀ p c e, s.table.get p c = some e →
    (∃ D, s.desc[e.d]? = some D ∧ D.port = p.toWord ∧ (D.id = c.val ∨ D.id = idRejected)) ∧
      e.rslot = rslot p c ∧ e.wslot = wslot p c

/-- The registration invariant: what REGISTER and UNREGISTER keep together (R45, R64(b), R64(d)). -/
def State.registrationInv (s : State) : Prop :=
  s.lineFollowsTables ∧ s.countersAgree ∧ s.handlesUnique ∧ s.entriesSound

/-- Shared memory is in canonical form and lists only addresses of the region (R42, R101). -/
def State.memoryWf (s : State) : Prop :=
  s.shm.wf ∧ ∀ x ∈ s.shm, s.cfg.shmBase ≤ x.1 ∧ x.1 < s.cfg.shmBase + regionBytes

/-- The operations in progress name only the slots R102 gives: SEND's `ws` and `b` (R281), and the `Recv` items of
`work` (R304), with every entry's cached slots (R45). -/
def State.slotsSound (s : State) : Prop :=
  (∀ p c e, s.table.get p c = some e → e.rslot = rslot p c ∧ e.wslot = wslot p c) ∧
  (∀ x ∈ s.callers, ∀ l, x.send = some l → ∃ c, l.ws = wslot l.p c ∧ l.b = s.cfg.dataBit l.p c) ∧
  (∀ w m a work buf, s.dphase = .run w m a work buf → ∀ p c rs, .recv p c rs ∈ work → rs = rslot p c)

/-- The inbound handshake of a channel is in one place at a time (R351, R361, R207, R364, R369): while the peer's
request stands, exactly one of a POST in flight, a FULL not acknowledged, or an RXACK in flight; otherwise none. -/
def State.inboundTokens (s : State) (p : Port) (c : Chan) : Nat :=
  (s.inq.get p c).count .post + (s.rx.get p c).toNat + (s.outq.get p c).count .rxack

/-- The outbound handshake of a channel (R205, R363, R353, R362): a TXSET in flight, a request the peer sees, or a DRAIN
in flight. -/
def State.outboundTokens (s : State) (p : Port) (c : Chan) : Nat :=
  (s.outq.get p c).count .txset + (s.pvTx.get p c).toNat + (s.inq.get p c).count .drain

/-- The inbound handshake invariant of a trusted peer (R369: "at most one FULL pending per channel"). -/
def State.inboundHandshake (s : State) : Prop := ∀ p c, s.inboundTokens p c = (s.preq.get p c).toNat

/-- The outbound handshake invariant of a trusted peer, as long as no post is withdrawn: no TXCLR in flight. -/
def State.outboundHandshake (s : State) : Prop :=
  ∀ p c, s.outboundTokens p c = (s.tx.get p c).toNat ∧ .txclr ∉ s.outq.get p c

/-- The list of Callers is as long as N_CALLERS says (R9, R30). -/
def State.callersCounted (s : State) : Prop := s.callers.length = s.cfg.nCallers

end Sys2Proof.Machine
end

