-- ==== Sys2Proof/Certificates/Slice0/Obligations.lean ====
section
/-! DEFINITION. What the provers are asked to settle: statements about the machine, for every state, every operand and
every legal set of parameters. The helpers below are the vocabulary of the statements. Two choices of the model stand
behind many of them: an agent whose step is not enabled changes nothing (log 2),
and a result code is also bound to the operation's result variable, by its number in R400's table (log 12). -/

namespace Sys2Proof.Claims

open Sys2Proof.Machine

/-- The step is that of Caller k, and c is its state. -/
def IsCaller (s : State) (k : Nat) (c : Caller) : Prop := s.cur = .caller k ∧ s.callers[k]? = some c

/-- The Callers after Caller k's operation returned and bound nothing (R32). -/
def returned (s : State) (k : Nat) (c : Caller) : List Caller :=
  s.callers.set k { c with stream := { c.stream with idx := c.stream.idx + 1 } }

/-- The Callers after Caller k's operation returned and bound the variable t to v (R32, R150, R400). -/
def bound (s : State) (k : Nat) (c : Caller) (t : VarName) (v : Word) : List Caller :=
  s.callers.set k
    { c with stream := { c.stream with idx := c.stream.idx + 1, vars := Assoc.put c.stream.vars t v } }

/-- As `bound`, and nothing is in progress any more (the return of SEND). -/
def boundSend (s : State) (k : Nat) (c : Caller) (t : VarName) (v : Word) : List Caller :=
  s.callers.set k
    ⟨{ c.stream with idx := c.stream.idx + 1, vars := Assoc.put c.stream.vars t v }, none⟩

/-- The Callers after a step of Caller k's SEND that does not return. -/
def inSend (s : State) (k : Nat) (c : Caller) (l : SendLocals) : List Caller :=
  s.callers.set k { c with send := some l }

/-- The peers after the operation of peer p returned and bound nothing. -/
def peerReturned (s : State) (p : Port) : PerPort Stream :=
  s.peers.set p { s.peers.get p with idx := (s.peers.get p).idx + 1 }

/-- The peers after the operation of peer p returned and bound the variable t to v. -/
def peerBound (s : State) (p : Port) (t : VarName) (v : Word) : PerPort Stream :=
  s.peers.set p
    { s.peers.get p with idx := (s.peers.get p).idx + 1, vars := Assoc.put (s.peers.get p).vars t v }

/-- A word shows f[p][c] at DATA_BIT(p, c), and 0 in its reserved bits (R38, R201, R202). -/
def ShowsData (cfg : Params) (f : Chans Bool) (v : Word) : Prop :=
  (∀ p c, v.getLsbD (cfg.dataBit p c) = f.get p c) ∧
    ∀ i, (∀ p c, i ≠ cfg.dataBit p c) → v.getLsbD i = false

/-- Calling the meaning of one operation n times in a row: its agent's steps with no other agent's between. -/
def execN (i : Instr) : Nat → State → Out
  | 0, s => .next s
  | n + 1, s =>
    match exec i s with
    | .next u => execN i n u
    | .fault r => .fault r
    | .refused r => .refused r

/-- STATUS after a write-1-to-clear of w that leaves the bits of `keep` set, with `rx` and the acknowledgements that go
with it (R207, R212). -/
def ClearsAllBut (s u : State) (w keep : Word) : Prop :=
  (∀ i, u.status.getLsbD i = (s.status.getLsbD i && (!w.getLsbD i || keep.getLsbD i))) ∧
    ∀ p c,
      let b := s.cfg.fullBit p c
      (s.status.getLsbD b = true → w.getLsbD b = true → keep.getLsbD b = false →
        u.rx.get p c = false ∧ u.outq.get p c = s.outq.get p c ++ [.rxack]) ∧
      ((s.status.getLsbD b = false ∨ w.getLsbD b = false ∨ keep.getLsbD b = true) →
        u.rx.get p c = s.rx.get p c ∧ u.outq.get p c = s.outq.get p c)

/-- What is left of the word at an address: every byte outside it reads as before. -/
def OnlyWordWritten (s u : State) (addr : Nat) : Prop :=
  ∀ a, ¬ (addr ≤ a ∧ a < addr + 4) → u.shm.byte a = s.shm.byte a

/-- A class check of R147 fails: the issuer is another agent, or a Caller that does not exist. -/
def WrongIssuer (s : State) (i : Instr) : Prop :=
  i.mayIssue s.cur = false ∨ ∃ k, s.cur = .caller k ∧ s.callers[k]? = none

/-- The event a work item becomes when its slot is read from shared memory m (R308). -/
def eventOf (cfg : Params) (m : Memory) : WorkItem → Event
  | .drain p c => .txDrained p c
  | .stray p w => .stray p w
  | .recv p c rs =>
    .receive p c
      ⟨m.readWord cfg.byteOrder (cfg.wordAddr rs 0), m.readWord cfg.byteOrder (cfg.wordAddr rs 1),
        m.readWord cfg.byteOrder (cfg.wordAddr rs 2), m.readWord cfg.byteOrder (cfg.wordAddr rs 3)⟩

/-- How many steps the work takes: four for a `Recv`, one for any other item (R308). -/
def workSteps : List WorkItem → Nat
  | [] => 0
  | .recv _ _ _ :: rest => 4 + workSteps rest
  | _ :: rest => 1 + workSteps rest

/-- How many `Receive` events of (p, c) a list holds. -/
def receives (p : Port) (c : Chan) (l : List Event) : Nat :=
  l.countP (fun e => match e with
    | .receive q d _ => decide (q = p ∧ d = c)
    | _ => false)

/-- How many `TxDrained` events of (p, c) a list holds. -/
def drains (p : Port) (c : Chan) (l : List Event) : Nat := l.count (.txDrained p c)

/-- The bits of the word `w` of port p that no entry of the table owns (R304, R312). -/
def Unowned (cfg : Params) (t : Chans (Option Entry)) (p : Port) (w : Word) (i : Nat) : Prop :=
  w.getLsbD i = true ∧ (cfg.origin p).getLsbD i = true ∧
    ∀ c, (i = cfg.fullBit p c → ownsFull t p c = false) ∧ (i = cfg.emptyBit p c → ownsEmpty t p c = false)

/-- A stream before and after a step of the operation i: the program stays, the index moves by one at most, and only the
variables the operation binds may change (R32, R63, R150, R472). -/
def StreamMoved (i : Instr) (a b : Stream) : Prop :=
  b.prog = a.prog ∧ (b.idx = a.idx ∨ b.idx = a.idx + 1) ∧
    ∀ t, t ∉ i.binds → Assoc.get? b.vars t = Assoc.get? a.vars t

/-- Bit b stands in the 8-bit field that starts at `lsb`. -/
def InField (lsb b : Nat) : Prop := lsb ≤ b ∧ b < lsb + 8

/-- The descriptor part of an operation succeeds: locks free, device up, name d bound to h with record D (R240). -/
def Manageable (s : State) (d : DescName) (h : Handle) (D : Desc) : Prop :=
  s.dphase = .idle ∧ s.dev = .ok ∧ s.lookupDesc d = some (h, D)

end Sys2Proof.Claims

open Sys2Proof Sys2Proof.Machine Sys2Proof.Claims

/-! ### Encoding -/

/-- Encoding and decoding agree in both directions: every operation decodes back from its word and operands, and a word
that decodes to an operation is that operation's word, whatever the operands (R141 to R146, R148: "No two rows
overlap"). -/
def Obligations.DecodeAndEncodeAgree : Prop :=
  (∀ (cfg : Params) (i : Instr), decodeItem cfg (encode i) = .ok i) ∧
    ∀ (w : Word) (o : Operands) (i : Instr), decode w o = .ok i → encodeWord i = w

/-- Exactly the words R149 lists decode to nothing, and they are IllegalOp. Fields: CLS = w[31:28], FN = w[27:24]. -/
def Obligations.IllegalWordsAreThoseListed : Prop :=
  ∀ (w : Word) (o : Operands),
    decode w o = .error .illegalOp ↔
      (let cls := w.toNat / 2 ^ 28
       let fn := w.toNat / 2 ^ 24 % 16
       5 ≤ cls ∨
       (cls = 0 ∧ (5 ≤ w.toNat % 8 ∨ w.toNat / 8 % 2 ^ 24 ≠ 0)) ∨
       (cls = 1 ∧ (6 ≤ fn ∨ w.toNat / 16 % 2 ^ 20 ≠ 0 ∨ (fn ≠ 1 ∧ w.toNat % 16 ≠ 0) ∨
         (fn = 1 ∧ 5 ≤ w.toNat % 16))) ∨
       (cls = 2 ∧ w.toNat % 2 ^ 28 ≠ 0) ∨
       (cls = 3 ∧ (4 ≤ fn ∨ w.toNat / 64 % 2 ^ 18 ≠ 0 ∨ ((fn = 1 ∨ fn = 3) ∧ w.toNat / 16 % 4 ≠ 0))) ∨
       (cls = 4 ∧ (2 ≤ fn ∨ w.toNat / 16 % 2 ^ 20 ≠ 0)))

/-- A few words of the decoding vectors of 95_test_vectors.md 2.2. -/
def Obligations.VectorWordsDecode : Prop :=
  ∀ o : Operands,
    decode 0x00000002 o = .ok (.rdStatus o.t) ∧ decode 0x08000004 o = .ok (.wrClr o.x) ∧
    decode 0x11000004 o = .ok (.configHasTxDrained o.d o.x) ∧ decode 0x20000000 o = .ok .dispatch ∧
    decode 0x3000003B o = .ok (.pwrite 3 .lp 3 o.x) ∧ decode 0x32000021 o = .ok (.pread 2 .np 1 o.t) ∧
    decode 0x33000007 o = .ok (.pdrain .np 7) ∧ decode 0x4100000F o = .ok (.syncOut .lp 7) ∧
    decode 0x00000005 o = .error .illegalOp ∧ decode 0x31000010 o = .error .illegalOp

/-- A raw access at the AP register port reaches a register exactly when it is an aligned 32-bit access to one of the
five addresses; any other access is BadAccess (R106). That a program may hold such an access is
the model's (log 8), and so is that legal parameters put the registers at distinct, word-aligned addresses (log 32). -/
def Obligations.RawAccessReachesOnlyTheFiveRegisters : Prop :=
  ∀ (cfg : Params) (a : BusAccess), cfg.wf = true →
    (∀ r, a.size = 4 → a.addr = cfg.regAddr r →
      decodeBus cfg a = .ok (if a.write then wrInstr r a.x else rdInstr r a.t)) ∧
    ((a.size ≠ 4 ∨ ∀ r, a.addr ≠ cfg.regAddr r) → decodeBus cfg a = .error .badAccess)

/-! ### The step -/

/-- When the scheduled agent's next entry decodes to an operation, the step is that operation's meaning in the state
whose scheduling choice is used up (model's scheduling: log 1). -/
def Obligations.StepRunsTheDecodedOperation : Prop :=
  ∀ (s : State) (it : Item) (i : Instr),
    s.refused = none → s.scheduled.fetch = some it → decodeItem s.cfg it = .ok i →
      step s = exec i s.scheduled ∧ s.scheduled.cur = s.nextAgent ∧
        s.scheduled = { s with cur := s.nextAgent, sched := s.sched.tail, tick := s.scheduled.tick }

/-- A Caller issues the entry at its program index (R32, R63), and so does a peer, whose program R472 names and whose index
is the model's (log 14). The Dispatcher and the synchronizers have no program and issue their one operation for ever: the
model's reading of R306 and R360 (log 15). -/
def Obligations.AgentsIssueTheirNextOperation : Prop :=
  ∀ s : State,
    (∀ k c, IsCaller s k c → s.fetch = c.stream.prog[c.stream.idx]?) ∧
    (∀ p, s.cur = .peer p → s.fetch = (s.peers.get p).prog[(s.peers.get p).idx]?) ∧
    (s.cur = .dispatcher → s.fetch = some (encode .dispatch)) ∧
    (∀ p c, s.cur = .sync .inward p c → s.fetch = some (encode (.syncIn p c))) ∧
    (∀ p c, s.cur = .sync .outward p c → s.fetch = some (encode (.syncOut p c)))

/-- A refusal is a mark: the issued entry makes no other change, and the marked state has no step (R404). That the mark is
a next state, and a step from a marked state a refusal, is the model's (log 7); so are raw-access entries in a program,
and that one in a peer's program is WrongAgent before BadAccess (log 8). -/
def Obligations.RefusalMarksAndStopsTheRun : Prop :=
  ∀ (s : State) (r : Reason),
    (s.refused = some r → step s = .refused (.runStopped r) ∧ ∀ a, s.canStep a = false) ∧
    (∀ w o, s.refused = none → s.scheduled.fetch = some (.op w o) → decode w o = .error .illegalOp →
      step s = .next { s.scheduled with refused := some .illegalOp }) ∧
    (∀ a k, s.refused = none → s.scheduled.fetch = some (.bus a) → decodeBus s.cfg a = .error .badAccess →
      s.scheduled.cur = .caller k → step s = .next { s.scheduled with refused := some .badAccess }) ∧
    (∀ a p, s.refused = none → s.scheduled.fetch = some (.bus a) → s.scheduled.cur = .peer p →
      step s = .next { s.scheduled with refused := some .wrongAgent })

/-- An agent without an enabled step changes nothing but the scheduling choice (the model's waiting: log 2). -/
def Obligations.AgentWithoutEnabledStepWaits : Prop :=
  ∀ s : State, s.refused = none → s.canStep s.nextAgent = false → step s = .next s.scheduled

/-- A word issued by an agent that may not issue its class is WrongAgent, whatever else holds (R147, R401). That a Caller
number that does not exist counts as such an agent is the model's (log 24). -/
def Obligations.WrongIssuerIsRefused : Prop :=
  ∀ (i : Instr) (s : State), WrongIssuer s i → exec i s = .next { s with refused := some .wrongAgent }

/-- In the model no operation ever faults or stops: each answers a next state, in every state. That a refusal of R404 and a
wait of an agent without an enabled step (R30) are next states too is the model's (log 7, log 2), so this says of no
operation that it completes. -/
def Obligations.EveryOperationAnswersANextState : Prop :=
  ∀ (i : Instr) (s : State), ∃ u, exec i s = .next u

/-! ### Register access -/

/-- The five reads: each word decodes to its read, which binds its register's value, has no other effect, and returns
(R201 to R204, R210). -/
def Obligations.RegisterReadsBindTheirView : Prop :=
  (∀ o, decode 0x00000000 o = .ok (.rdTx o.t) ∧ decode 0x00000001 o = .ok (.rdRx o.t) ∧
    decode 0x00000002 o = .ok (.rdStatus o.t) ∧ decode 0x00000003 o = .ok (.rdMask o.t) ∧
    decode 0x00000004 o = .ok (.rdClr o.t)) ∧
  ∀ (s : State) (k : Nat) (c : Caller) (t : VarName), IsCaller s k c → s.cfg.wf = true →
    (∃ v, exec (.rdTx t) s = .next { s with callers := bound s k c t v } ∧ ShowsData s.cfg s.tx v) ∧
    (∃ v, exec (.rdRx t) s = .next { s with callers := bound s k c t v } ∧ ShowsData s.cfg s.rx v) ∧
    exec (.rdStatus t) s = .next { s with callers := bound s k c t s.status } ∧
    exec (.rdMask t) s = .next { s with callers := bound s k c t s.mask } ∧
    exec (.rdClr t) s = .next { s with callers := bound s k c t 0 }

/-- `wr TX` sets the bits written 1 and sends one TXSET for each bit that was 0 (R205). -/
def Obligations.WriteTxSetsAndPosts : Prop :=
  (∀ o, decode 0x08000000 o = .ok (.wrTx o.x)) ∧
  ∀ (s : State) (k : Nat) (c : Caller) (x : Expr), IsCaller s k c →
    ∃ u, exec (.wrTx x) s = .next u ∧
      u = { s with tx := u.tx, outq := u.outq, callers := returned s k c } ∧
      ∀ p d,
        (u.tx.get p d = (s.tx.get p d || (s.eval x).getLsbD (s.cfg.dataBit p d))) ∧
        ((s.eval x).getLsbD (s.cfg.dataBit p d) = true → s.tx.get p d = false →
          u.outq.get p d = s.outq.get p d ++ [.txset]) ∧
        (((s.eval x).getLsbD (s.cfg.dataBit p d) = false ∨ s.tx.get p d = true) →
          u.outq.get p d = s.outq.get p d)

/-- `wr RX` is ignored: no state of the block changes (R206). -/
def Obligations.WriteRxIsIgnored : Prop :=
  (∀ o, decode 0x08000001 o = .ok (.wrRx o.x)) ∧
  ∀ (s : State) (k : Nat) (c : Caller) (x : Expr), IsCaller s k c →
    exec (.wrRx x) s = .next { s with callers := returned s k c }

/-- `wr STATUS` without the erratum clears the bits written 1; a FULL bit it clears also clears `rx` and sends one
RXACK; nothing else changes (R207). -/
def Obligations.WriteStatusClearsAndAcknowledges : Prop :=
  ∀ (s : State) (k : Nat) (c : Caller) (x : Expr), IsCaller s k c → s.cfg.wf = true →
    s.cfg.erratumResidual = false →
    ∃ u, exec (.wrStatus x) s = .next u ∧
      u = { s with status := s.status &&& ~~~(s.eval x), rx := u.rx, outq := u.outq, callers := returned s k c } ∧
      ∀ p d,
        ((s.eval x &&& s.status).getLsbD (s.cfg.fullBit p d) = true →
          u.rx.get p d = false ∧ u.outq.get p d = s.outq.get p d ++ [.rxack]) ∧
        ((s.eval x &&& s.status).getLsbD (s.cfg.fullBit p d) = false →
          u.rx.get p d = s.rx.get p d ∧ u.outq.get p d = s.outq.get p d)

/-- The erratum, on a write of STATUS and on DISPATCH's acknowledgement: for every choice `keep` of bits that stay set
there is a value of the next draw that makes the write keep exactly those; a kept bit keeps its `rx` bit and sends no
RXACK, and a cleared one acknowledges as ever. Without the erratum every such bit clears (R207, R212, R307). That the
choice is drawn as one word a write is the model's (log 4, log 21). -/
def Obligations.ErratumKeepsAnyChoiceOfBits : Prop :=
  ∀ (s : State) (k : Nat) (c : Caller) (x : Expr) (keep w : Word),
    (IsCaller s k c → s.cfg.erratumResidual = true →
      ∃ u, exec (.wrStatus x) { s with tape := keep.toNat :: s.tape } = .next u ∧
        u = { s with status := u.status, rx := u.rx, outq := u.outq, callers := returned s k c } ∧
        ClearsAllBut s u (s.eval x) keep) ∧
    (s.cur = .dispatcher → s.dphase = .snap w → s.cfg.erratumResidual = true →
      ∃ u, exec .dispatch { s with tape := keep.toNat :: s.tape } = .next u ∧
        u = { s with status := u.status, rx := u.rx, outq := u.outq, dphase := .ack w } ∧
        ClearsAllBut s u w keep) ∧
    (IsCaller s k c → s.cfg.erratumResidual = false →
      ∃ u, exec (.wrStatus x) s = .next u ∧ ClearsAllBut s u (s.eval x) 0)

/-- `wr MASK` writes all 32 bits, and `irq` follows at once (R208, R211, R300). -/
def Obligations.WriteMaskIsPlain : Prop :=
  (∀ o, decode 0x08000003 o = .ok (.wrMask o.x)) ∧
  ∀ (s : State) (k : Nat) (c : Caller) (x : Expr), IsCaller s k c →
    ∃ u, exec (.wrMask x) s = .next u ∧ u = { s with mask := s.eval x, callers := returned s k c } ∧
      (u.irq = true ↔ s.lineEn = true ∧ s.status &&& s.eval x ≠ 0)

/-- `wr CLR` withdraws the posts written 1, sends one TXCLR for each, and changes no status bit (R209). -/
def Obligations.WriteClrWithdraws : Prop :=
  (∀ o, decode 0x08000004 o = .ok (.wrClr o.x)) ∧
  ∀ (s : State) (k : Nat) (c : Caller) (x : Expr), IsCaller s k c →
    ∃ u, exec (.wrClr x) s = .next u ∧
      u = { s with tx := u.tx, outq := u.outq, callers := returned s k c } ∧
      ∀ p d,
        ((s.eval x).getLsbD (s.cfg.dataBit p d) = true → s.tx.get p d = true →
          u.tx.get p d = false ∧ u.outq.get p d = s.outq.get p d ++ [.txclr]) ∧
        (((s.eval x).getLsbD (s.cfg.dataBit p d) = false ∨ s.tx.get p d = false) →
          u.tx.get p d = s.tx.get p d ∧ u.outq.get p d = s.outq.get p d)

/-- Writing the same value twice with no other step between has the effect of writing it once, for every register,
without the erratum (R108). -/
def Obligations.RegisterWritesAreIdempotent : Prop :=
  ∀ (s : State) (r : Reg) (x : Word), s.cfg.erratumResidual = false →
    (s.mmioWrite r x).mmioWrite r x = s.mmioWrite r x

/-! ### Descriptors and registration -/

/-- ALLOC: a draw decides; on success a record with `id = 8` and the given `extra` stands under a fresh handle bound to
the name, on failure only the log and the result variable change (R241). That the fresh handle is the number of records
and that draws come from the tape is the model's (log 4, log 10); so is what happens to a name that is already bound: the
names are shared, success binds it anew and failure leaves the old binding (log 11). -/
def Obligations.AllocBindsAFreshDescriptorOrFails : Prop :=
  ∀ (s : State) (k : Nat) (c : Caller) (d : DescName) (extra : Nat) (t : VarName), IsCaller s k c →
    ∃ u, exec (.alloc d extra t) s = .next u ∧
      (s.drawBool = true →
        u = { s with
          log := s.log ++ [.result (.caller k) .alloc .allocFailed]
          callers := bound s k c t 7
          tape := u.tape
          drawn := u.drawn }) ∧
      (s.drawBool = false →
        ∃ D : Desc, D.id = 8 ∧ D.extra = extra ∧ s.desc[s.desc.length]? = none ∧
          u = { s with
            desc := s.desc ++ [D]
            names := Assoc.put s.names d s.desc.length
            log := s.log ++ [.result (.caller k) .alloc .ok]
            callers := bound s k c t 0
            tape := u.tape
            drawn := u.drawn })

/-- CONFIG of an unregistered descriptor writes exactly the one field (R242). -/
def Obligations.ConfigWritesOneField : Prop :=
  ∀ (s : State) (k : Nat) (c : Caller) (d : DescName) (x : Expr) (h : Handle) (D : Desc), IsCaller s k c →
    s.lookupDesc d = some (h, D) → (∀ p j e, s.table.get p j = some e → e.d ≠ h) →
    exec (.configPort d x) s =
      .next { s with desc := s.desc.set h { D with port := s.eval x }, callers := returned s k c } ∧
    exec (.configId d x) s =
      .next { s with desc := s.desc.set h { D with id := (s.eval x).toNat }, callers := returned s k c } ∧
    ∀ b : Bool, s.eval x = (if b then 1 else 0) →
      exec (.configHandshake d x) s =
        .next { s with desc := s.desc.set h { D with handshake := b }, callers := returned s k c } ∧
      exec (.configHasReceive d x) s =
        .next { s with desc := s.desc.set h { D with hasReceive := b }, callers := returned s k c } ∧
      exec (.configHasTxDrained d x) s =
        .next { s with desc := s.desc.set h { D with hasTxDrained := b }, callers := returned s k c }

/-- CONFIG's refusals in the order of R401: BadHandle, ConfigWhileRegistered, BadOperand (R242). -/
def Obligations.ConfigRefusesInOrder : Prop :=
  ∀ (s : State) (k : Nat) (c : Caller) (d : DescName) (x : Expr), IsCaller s k c →
    ∀ i, i ∈ [Instr.configPort d x, .configId d x, .configHandshake d x, .configHasReceive d x,
        .configHasTxDrained d x] →
      (s.lookupDesc d = none → exec i s = .next { s with refused := some .badHandle }) ∧
      (∀ h D p j e, s.lookupDesc d = some (h, D) → s.table.get p j = some e → e.d = h →
        exec i s = .next { s with refused := some .configWhileRegistered }) ∧
      (∀ h D, s.lookupDesc d = some (h, D) → (∀ p j e, s.table.get p j = some e → e.d ≠ h) →
        1 < (s.eval x).toNat → i ≠ .configPort d x → i ≠ .configId d x →
        exec i s = .next { s with refused := some .badOperand })

/-- A successful REGISTER: an explicit free id, or with "unassigned" the lowest free id, gets its entry with the cached
slots; the counter drops, the line opens with the first one, and FULL, and in handshake mode EMPTY, is unmasked
(R243 to R245). -/
def Obligations.RegisterInstallsTheEntry : Prop :=
  ∀ (s : State) (k : Nat) (c : Caller) (d : DescName) (t : VarName) (h : Handle) (D : Desc) (p : Port) (j : Chan),
    IsCaller s k c → Manageable s d h D → D.hasReceive = true → D.port = p.toWord → s.free.get p ≠ 0 →
    s.table.get p j = none → (D.id = j.val ∨ D.id = 8 ∧ ∀ i, i < j → s.table.get p i ≠ none) →
    exec (.register d t) s = .next { s with
      lineEn := s.lineEn || decide (s.registeredCount = 0)
      desc := s.desc.set h { D with id := j.val }
      table := s.table.set p j (some ⟨h, D.handshake, D.hasTxDrained, rslot p j, wslot p j⟩)
      free := s.free.set p (s.free.get p - 1)
      mask := s.mask ||| bit (s.cfg.fullBit p j) ||| (if D.handshake then bit (s.cfg.emptyBit p j) else 0)
      log := s.log ++ [.result (.caller k) .register .ok]
      callers := bound s k c t 0 }

/-- REGISTER's rejections, in order: InvalidArgument changes nothing but the log and the result variable, and so does
ResourceExhausted; AlreadyAssigned also writes the rejected sentinel (R243, R402). -/
def Obligations.RegisterRejectsInOrder : Prop :=
  ∀ (s : State) (k : Nat) (c : Caller) (d : DescName) (t : VarName) (h : Handle) (D : Desc),
    IsCaller s k c → Manageable s d h D → s.countersAgree →
    ((D.hasReceive = false ∨ (∀ p, D.port ≠ Port.toWord p) ∨ 8 < D.id) →
      exec (.register d t) s = .next { s with
        log := s.log ++ [.result (.caller k) .register .invalidArgument], callers := bound s k c t 1 }) ∧
    (∀ p, D.hasReceive = true → D.port = Port.toWord p → D.id ≤ 8 → s.free.get p = 0 →
      exec (.register d t) s = .next { s with
        log := s.log ++ [.result (.caller k) .register .resourceExhausted], callers := bound s k c t 2 }) ∧
    (∀ p j e, D.hasReceive = true → D.port = Port.toWord p → s.free.get p ≠ 0 → D.id = Fin.val j →
      s.table.get p j = some e →
      exec (.register d t) s = .next { s with
        desc := s.desc.set h { D with id := 9 }
        log := s.log ++ [.result (.caller k) .register .alreadyAssigned]
        callers := bound s k c t 3 })

/-- REGISTER and UNREGISTER outside their conditions: they wait while a DISPATCH holds the locks, are refused before
BRINGUP, return HardwareBringupFailed after a failed one, and are refused for a handle ALLOC never bound (R240). Waiting
is the model's (log 2). -/
def Obligations.RegistrationNeedsLocksDeviceAndHandle : Prop :=
  ∀ (s : State) (k : Nat) (c : Caller) (d : DescName) (t : VarName), IsCaller s k c →
    (s.dphase ≠ .idle → exec (.register d t) s = .next s ∧ exec (.unregister d t) s = .next s) ∧
    (s.dphase = .idle → s.dev = .uninit →
      exec (.register d t) s = .next { s with refused := some .notBroughtUp } ∧
      exec (.unregister d t) s = .next { s with refused := some .notBroughtUp }) ∧
    (s.dphase = .idle → s.dev = .failed →
      exec (.register d t) s = .next { s with
        log := s.log ++ [.result (.caller k) .register .hardwareBringupFailed], callers := bound s k c t 6 } ∧
      exec (.unregister d t) s = .next { s with
        log := s.log ++ [.result (.caller k) .unregister .hardwareBringupFailed], callers := bound s k c t 6 }) ∧
    (s.dphase = .idle → s.dev = .ok → s.lookupDesc d = none →
      exec (.register d t) s = .next { s with refused := some .badHandle } ∧
      exec (.unregister d t) s = .next { s with refused := some .badHandle })

/-- UNREGISTER masks both bits of the entry's channel, removes the entry, raises the counter, closes the line after the
last one, and leaves the descriptor, STATUS and `tx`; with no entry it returns NotRegistered and changes nothing else
(R247, R248). -/
def Obligations.UnregisterRemovesTheEntry : Prop :=
  ∀ (s : State) (k : Nat) (c : Caller) (d : DescName) (t : VarName) (h : Handle) (D : Desc),
    IsCaller s k c → Manageable s d h D →
    (∀ p j e, s.handlesUnique → s.table.get p j = some e → e.d = h →
      exec (.unregister d t) s = .next { s with
        mask := s.mask &&& ~~~(bit (s.cfg.fullBit p j) ||| bit (s.cfg.emptyBit p j))
        table := s.table.set p j none
        free := s.free.set p (s.free.get p + 1)
        lineEn := s.lineEn && decide (s.registeredCount ≠ 1)
        log := s.log ++ [.result (.caller k) .unregister .ok]
        callers := bound s k c t 0 }) ∧
    ((∀ p j e, s.table.get p j = some e → e.d ≠ h) →
      exec (.unregister d t) s = .next { s with
        log := s.log ++ [.result (.caller k) .unregister .notRegistered], callers := bound s k c t 4 })

/-- BRINGUP, once: a draw decides between OK and FAILED, and no register changes; a second one is refused (R452). -/
def Obligations.BringupSetsTheDeviceOnce : Prop :=
  ∀ (s : State) (k : Nat) (c : Caller) (t : VarName), IsCaller s k c →
    (s.dev = .uninit →
      ∃ u, exec (.bringup t) s = .next u ∧
        (s.drawBool = false →
          u = { s with
            dev := .ok
            log := s.log ++ [.result (.caller k) .bringup .ok]
            callers := bound s k c t 0
            tape := u.tape
            drawn := u.drawn }) ∧
        (s.drawBool = true →
          u = { s with
            dev := .failed
            log := s.log ++ [.result (.caller k) .bringup .hardwareBringupFailed]
            callers := bound s k c t 6
            tape := u.tape
            drawn := u.drawn })) ∧
    (s.dev ≠ .uninit → exec (.bringup t) s = .next { s with refused := some .rebringup })

/-! ### SEND -/

/-- S1 finds the entry in the table of the descriptor's port and fixes SEND's locals (R280, R281). -/
def Obligations.SendLookupFixesTheLocals : Prop :=
  ∀ (s : State) (k : Nat) (c : Caller) (d : DescName) (m : MsgExpr) (t : VarName) (h : Handle) (D : Desc) (p : Port)
    (j : Chan) (e : Entry),
    IsCaller s k c → c.send = none → Manageable s d h D → D.port = p.toWord → s.handlesUnique →
    s.table.get p j = some e → e.d = h →
    exec (.send d m t) s = .next { s with
      callers := inSend s k c ⟨.s2, p, s.cfg.dataBit p j, e.wslot, s.evalMsg m⟩ }

/-- S1's other outcomes, in order: it waits while a DISPATCH holds the locks, is refused before BRINGUP and for an
unbound handle, and returns HardwareBringupFailed, InvalidArgument or NotRegistered with no other change (R280). Waiting
is the model's (log 2). -/
def Obligations.SendLookupFailsInOrder : Prop :=
  ∀ (s : State) (k : Nat) (c : Caller) (d : DescName) (m : MsgExpr) (t : VarName),
    IsCaller s k c → c.send = none →
    (s.dphase ≠ .idle → exec (.send d m t) s = .next s) ∧
    (s.dphase = .idle → s.dev = .uninit →
      exec (.send d m t) s = .next { s with refused := some .notBroughtUp }) ∧
    (s.dphase = .idle → s.dev = .failed →
      exec (.send d m t) s = .next { s with
        log := s.log ++ [.result (.caller k) .send .hardwareBringupFailed], callers := boundSend s k c t 6 }) ∧
    (s.dphase = .idle → s.dev = .ok → s.lookupDesc d = none →
      exec (.send d m t) s = .next { s with refused := some .badHandle }) ∧
    (∀ h D, Manageable s d h D → (∀ p, D.port ≠ Port.toWord p) →
      exec (.send d m t) s = .next { s with
        log := s.log ++ [.result (.caller k) .send .invalidArgument], callers := boundSend s k c t 1 }) ∧
    (∀ h D p, Manageable s d h D → D.port = Port.toWord p → (∀ j e, s.table.get p j = some e → e.d ≠ h) →
      exec (.send d m t) s = .next { s with
        log := s.log ++ [.result (.caller k) .send .notRegistered], callers := boundSend s k c t 4 })

/-- S2: with the channel's TX bit set, ChannelBusy, the slot not written and nothing posted; else the copy begins
(R282). -/
def Obligations.SendBusyTest : Prop :=
  ∀ (s : State) (k : Nat) (c : Caller) (d : DescName) (m : MsgExpr) (t : VarName) (l : SendLocals) (j : Chan),
    IsCaller s k c → c.send = some l → l.phase = .s2 → s.cfg.wf = true → l.b = s.cfg.dataBit l.p j →
    (s.tx.get l.p j = true →
      exec (.send d m t) s = .next { s with
        log := s.log ++ [.result (.caller k) .send .channelBusy], callers := boundSend s k c t 5 }) ∧
    (s.tx.get l.p j = false →
      ∃ t1, ShowsData s.cfg s.tx t1 ∧
        exec (.send d m t) s = .next { s with callers := inSend s k c { l with phase := .copy 0 t1 } })

/-- S3 to S6: step S(3+i) writes word i of the message to word i of the write slot, and no other byte (R283). -/
def Obligations.SendCopiesOneWord : Prop :=
  ∀ (s : State) (k : Nat) (c : Caller) (d : DescName) (m : MsgExpr) (t : VarName) (l : SendLocals) (i : WordIdx)
    (t1 : Word),
    IsCaller s k c → c.send = some l → l.phase = .copy i t1 → s.cfg.shmBase % 4 = 0 →
    ∃ u, exec (.send d m t) s = .next u ∧
      u = { s with
        shm := u.shm
        callers := inSend s k c
          { l with phase := if h : i.val + 1 < 4 then .copy ⟨i.val + 1, h⟩ t1 else .s7 t1 } } ∧
      u.memRead (s.cfg.shmBase + 16 * l.ws.val + 4 * i.val) =
        some (match i with
          | 0 => l.msg.kind
          | 1 => l.msg.payload
          | 2 => l.msg.length
          | 3 => l.msg.reserved) ∧
      OnlyWordWritten s u (s.cfg.shmBase + 16 * l.ws.val + 4 * i.val)

/-- S7 reads TX afresh; S8 writes that word with the channel's bit: every bit that was 1 in it and is 0 now is posted
again (R284, R285, R286(c)). -/
def Obligations.SendPostsTheFreshWord : Prop :=
  ∀ (s : State) (k : Nat) (c : Caller) (d : DescName) (m : MsgExpr) (t : VarName) (l : SendLocals),
    IsCaller s k c → c.send = some l → s.cfg.wf = true →
    (∀ t1, l.phase = .s7 t1 →
      ∃ t2, ShowsData s.cfg s.tx t2 ∧
        exec (.send d m t) s = .next { s with callers := inSend s k c { l with phase := .s8 t1 t2 } }) ∧
    (∀ t1 t2 j, l.phase = .s8 t1 t2 → l.b = s.cfg.dataBit l.p j →
      ∃ u, exec (.send d m t) s = .next u ∧
        u = { s with
          tx := u.tx
          outq := u.outq
          log := s.log ++ [.result (.caller k) .send .ok]
          callers := boundSend s k c t 0 } ∧
        ∀ q i,
          (u.tx.get q i = (s.tx.get q i || t2.getLsbD (s.cfg.dataBit q i) || decide (q = l.p ∧ i = j))) ∧
          u.outq.get q i =
            (if s.tx.get q i = false ∧ u.tx.get q i = true then s.outq.get q i ++ [.txset] else s.outq.get q i))

/-- A SEND on a free channel with no other agent's step between: after its eight steps the write slot holds the
message, the channel's TX bit is set, one TXSET is on its way, the result is OK, and nothing else has changed
(R280 to R285). -/
def Obligations.SendAloneDeliversTheMessage : Prop :=
  ∀ (s : State) (k : Nat) (c : Caller) (d : DescName) (m : MsgExpr) (t : VarName) (h : Handle) (D : Desc) (p : Port)
    (j : Chan) (e : Entry),
    IsCaller s k c → c.send = none → Manageable s d h D → D.port = p.toWord → s.registrationInv →
    s.table.get p j = some e → e.d = h → s.cfg.wf = true → s.tx.get p j = false →
    ∃ u, execN (.send d m t) 8 s = .next u ∧
      u = { s with
        shm := u.shm
        tx := s.tx.set p j true
        outq := s.outq.set p j (s.outq.get p j ++ [.txset])
        log := s.log ++ [.result (.caller k) .send .ok]
        callers := boundSend s k c t 0 } ∧
      (∀ i, u.memRead (s.cfg.wordAddr (wslot p j) i) = some ((s.evalMsg m).word i)) ∧
      ∀ a, ¬ (s.cfg.shmBase + 16 * (wslot p j).val ≤ a ∧ a < s.cfg.shmBase + 16 * (wslot p j).val + 16) →
        u.shm.byte a = s.shm.byte a

/-! ### DISPATCH -/

/-- DISPATCH is entered from IDLE exactly while `irq = 1`: it saves nothing, takes the three locks and changes nothing
else; otherwise the Dispatcher waits (the model's, log 2); it leaves when the work is empty, releasing the locks (R306,
R309, R408, R409). -/
def Obligations.DispatchEntryAndReturn : Prop :=
  ∀ s : State, s.cur = .dispatcher →
    (s.dphase = .idle →
      (s.lineEn = true ∧ s.status &&& s.mask ≠ 0 →
        ∃ u, exec .dispatch s = .next u ∧ u = { s with dphase := .acq } ∧ s.maskLock = none ∧
          u.maskLock = some .dispatcher ∧ ∀ p, s.portLock p = none ∧ u.portLock p = some .dispatcher) ∧
      (¬ (s.lineEn = true ∧ s.status &&& s.mask ≠ 0) → exec .dispatch s = .next s)) ∧
    (∀ w m a buf, s.dphase = .run w m a [] buf →
      ∃ u, exec .dispatch s = .next u ∧ u = { s with dphase := .idle } ∧ u.maskLock = none ∧
        ∀ p, u.portLock p = none)

/-- The snapshot, acknowledge, mask-read and demultiplex steps, with the erratum or without; without it the
acknowledgement is the write-1-to-clear write of the whole snapshot (R307), with it `ErratumKeepsAnyChoiceOfBits` says
what the acknowledgement does (R212). -/
def Obligations.DispatchSnapshotsAndAcknowledges : Prop :=
  ∀ s : State, s.cur = .dispatcher →
    (s.dphase = .acq → exec .dispatch s = .next { s with dphase := .snap s.status }) ∧
    (∀ w, s.dphase = .snap w → s.cfg.erratumResidual = false →
      ∃ u, exec .dispatch s = .next u ∧
        u = { s with status := s.status &&& ~~~w, rx := u.rx, outq := u.outq, dphase := .ack w } ∧
        ∀ p c,
          ((w &&& s.status).getLsbD (s.cfg.fullBit p c) = true →
            u.rx.get p c = false ∧ u.outq.get p c = s.outq.get p c ++ [.rxack]) ∧
          ((w &&& s.status).getLsbD (s.cfg.fullBit p c) = false →
            u.rx.get p c = s.rx.get p c ∧ u.outq.get p c = s.outq.get p c)) ∧
    (∀ w, s.dphase = .ack w → exec .dispatch s = .next { s with dphase := .maskrd w s.mask }) ∧
    (∀ w m, s.dphase = .maskrd w m →
      ∃ u oNP oLP, exec .dispatch s = .next u ∧ oNP.Perm allChans ∧ oLP.Perm allChans ∧
        u = { s with
          dphase := .run w m (w &&& m)
            ((if w &&& m &&& s.cfg.origin .np ≠ 0 then demux s.cfg .np (w &&& m) s.table oNP else []) ++
              (if w &&& m &&& s.cfg.origin .lp ≠ 0 then demux s.cfg .lp (w &&& m) s.table oLP else [])) .k0
          tape := u.tape
          drawn := u.drawn })

/-- What the rules leave to a draw is free: a fresh descriptor's `port`, `handshake`, `has_receive` and `has_tx_drained`
take every combination of values, ALLOC and BRINGUP both fail and succeed, and DISPATCH takes every pair of orders of
the entries, each for some draws (R241, R304, R452; the tape of draws is the model's, log 4, log 18). -/
def Obligations.DrawsReachEveryChoice : Prop :=
  (∀ (s : State) (k : Nat) (c : Caller) (d : DescName) (extra : Nat) (t : VarName) (v : Word) (hs rc td : Bool),
    IsCaller s k c →
    (∃ draws u, exec (.alloc d extra t) { s with tape := draws } = .next u ∧
      u.desc = s.desc ++ [⟨v, 8, hs, rc, td, extra⟩]) ∧
    (∃ draws u, exec (.alloc d extra t) { s with tape := draws } = .next u ∧ u.desc = s.desc ∧ u.names = s.names) ∧
    (s.dev = .uninit →
      (∃ draws u, exec (.bringup t) { s with tape := draws } = .next u ∧ u.dev = .ok) ∧
      (∃ draws u, exec (.bringup t) { s with tape := draws } = .next u ∧ u.dev = .failed))) ∧
  ∀ (s : State) (w m : Word) (oNP oLP : List Chan), s.cur = .dispatcher → s.dphase = .maskrd w m →
    oNP.Perm allChans → oLP.Perm allChans →
    ∃ draws u, exec .dispatch { s with tape := draws } = .next u ∧
      u.dphase = .run w m (w &&& m)
        ((if w &&& m &&& s.cfg.origin .np ≠ 0 then demux s.cfg .np (w &&& m) s.table oNP else []) ++
          (if w &&& m &&& s.cfg.origin .lp ≠ 0 then demux s.cfg .lp (w &&& m) s.table oLP else [])) .k0

/-- The demultiplexer's items, for every order: exactly one Recv for each set FULL bit of an entry, exactly one Drain
for each set EMPTY bit of a handshake entry with `txd = 1`, and one Stray with exactly the bits no entry owns, if there
are any (R304, R312). -/
def Obligations.DemuxServesEveryOwnedBitOnce : Prop :=
  ∀ (cfg : Params) (p : Port) (w : Word) (t : Chans (Option Entry)) (order : List Chan),
    cfg.wf = true → order.Perm allChans →
    (∀ q c rs, (demux cfg p w t order).count (.recv q c rs) =
      if q = p ∧ w.getLsbD (cfg.fullBit p c) = true ∧ (t.get p c).any (fun e => e.rslot == rs) = true then 1
      else 0) ∧
    (∀ q c, (demux cfg p w t order).count (.drain q c) =
      if q = p ∧ w.getLsbD (cfg.emptyBit p c) = true ∧ (t.get p c).any (fun e => e.hs && e.txd) = true then 1
      else 0) ∧
    ∀ q v,
      ((q = p ∧ v ≠ 0 ∧ ∀ i, v.getLsbD i = true ↔ Unowned cfg t p w i) →
        (demux cfg p w t order).count (.stray q v) = 1) ∧
      (¬ (q = p ∧ v ≠ 0 ∧ ∀ i, v.getLsbD i = true ↔ Unowned cfg t p w i) →
        (demux cfg p w t order).count (.stray q v) = 0)

/-- The source's loop over the table is one pass: with one scan or more it gives the items and the rest of the word of
a single scan (R305). -/
def Obligations.DemuxLoopIsOnePass : Prop :=
  ∀ (cfg : Params) (p : Port) (w : Word) (t : Chans (Option Entry)) (order : List Chan) (fuel : Nat),
    cfg.wf = true → order.Perm allChans →
    demuxLoop cfg p t order (fuel + 1) w = demuxScan cfg p t order w

/-- The order of one DISPATCH's items: every NP item before every LP item, and for one entry the Drain before the Recv
(R303, R310). -/
def Obligations.WorkOrderIsNpFirstAndDrainFirst : Prop :=
  ∀ (s : State) (a : Word) (oNP oLP : List Chan), s.cfg.wf = true → oNP.Perm allChans → oLP.Perm allChans →
    (∃ l r, s.buildWork a oNP oLP = l ++ r ∧
      (∀ x ∈ l, ∃ c rs v, x = .drain .np c ∨ x = .recv .np c rs ∨ x = .stray .np v) ∧
      (∀ x ∈ r, ∃ c rs v, x = .drain .lp c ∨ x = .recv .lp c rs ∨ x = .stray .lp v)) ∧
    ∀ l1 l2 p c rs, s.buildWork a oNP oLP = l1 ++ .recv p c rs :: l2 → .drain p c ∉ l2

/-- The RUN step on the head of the work: a Drain or Stray emits its event; a Recv reads one word of its slot, and the
fourth one emits the Receive with the four words read (R308). -/
def Obligations.RunStepServesTheHead : Prop :=
  ∀ (s : State) (w m a : Word) (rest : List WorkItem) (buf : RecvBuf), s.cur = .dispatcher →
    (∀ p c, s.dphase = .run w m a (.drain p c :: rest) buf →
      exec .dispatch s = .next { s with
        log := s.log ++ [.txDrained p c], dphase := .run w m a rest buf }) ∧
    (∀ p v, s.dphase = .run w m a (.stray p v :: rest) buf →
      exec .dispatch s = .next { s with log := s.log ++ [.stray p v], dphase := .run w m a rest buf }) ∧
    (∀ p c rs, s.dphase = .run w m a (.recv p c rs :: rest) buf → s.cfg.shmBase % 4 = 0 →
      let v := s.shm.readWord s.cfg.byteOrder (s.cfg.shmBase + 16 * rs.val + 4 * buf.k.val)
      exec .dispatch s =
        match buf with
        | .k0 => .next { s with dphase := .run w m a (.recv p c rs :: rest) (.k1 v) }
        | .k1 w0 => .next { s with dphase := .run w m a (.recv p c rs :: rest) (.k2 w0 v) }
        | .k2 w0 w1 => .next { s with dphase := .run w m a (.recv p c rs :: rest) (.k3 w0 w1 v) }
        | .k3 w0 w1 w2 => .next { s with
            log := s.log ++ [.receive p c ⟨w0, w1, w2, v⟩], dphase := .run w m a rest .k0 })

/-- The Dispatcher alone serves its whole work list and returns to IDLE: one event an item, in order, with the messages
the slots hold, and no other change (R308, R309). -/
def Obligations.RunAloneServesTheWholeWork : Prop :=
  ∀ (s : State) (w m a : Word) (work : List WorkItem), s.cur = .dispatcher → s.cfg.shmBase % 4 = 0 →
    s.dphase = .run w m a work .k0 →
    execN .dispatch (workSteps work + 1) s = .next { s with
      log := s.log ++ work.map (eventOf s.cfg s.shm), dphase := .idle }

/-- Dispatch completeness: one DISPATCH with no other agent's step between, from IDLE with `irq = 1` and without the
erratum, returns to IDLE with STATUS clear, and has emitted exactly one Receive for each owned actionable FULL bit,
exactly one TxDrained for each owned actionable EMPTY bit whose entry has `txd = 1`, and no callback for any other bit
(R312). -/
def Obligations.DispatchIsComplete : Prop :=
  ∀ s : State, s.cur = .dispatcher → s.dphase = .idle → s.irq = true → s.cfg.wf = true →
    s.cfg.erratumResidual = false →
    ∃ n u evs, execN .dispatch n s = .next u ∧ u.dphase = .idle ∧ u.status = 0 ∧ u.log = s.log ++ evs ∧
      (∀ p c, receives p c evs = if s.fullEvt p c = true ∧ ownsFull s.table p c = true then 1 else 0) ∧
      ∀ p c, drains p c evs =
        if s.emptyEvt p c = true ∧ (s.table.get p c).any (fun e => e.hs && e.txd) = true then 1 else 0

/-- A DISPATCH in progress keeps the tables: in every phase but IDLE no operation of any agent changes a table, a
counter or the line enable (R240, R305: "the table cannot change during DISPATCH"). -/
def Obligations.TablesAreStableDuringDispatch : Prop :=
  ∀ (i : Instr) (s u : State), s.dphase ≠ .idle → exec i s = .next u →
    u.table = s.table ∧ u.free = s.free ∧ u.lineEn = s.lineEn ∧ ((∀ x, i ≠ .wrMask x) → u.mask = s.mask)

/-! ### Peers and synchronizers -/

/-- PWRITE writes one word of the peer's slot toward AP, and no other byte; PREAD reads one word of AP's slot toward the
peer, binds it and logs it, and changes nothing else (R350, R352). -/
def Obligations.PeerSlotAccess : Prop :=
  ∀ (s : State) (w : WordIdx) (p : Port) (c : Chan) (x : Expr) (t : VarName), s.cur = .peer p →
    s.cfg.shmBase % 4 = 0 →
    ((s.cfg.peerTrusted = true → s.preq.get p c = false) →
      ∃ u, exec (.pwrite w p c x) s = .next u ∧ u = { s with shm := u.shm, peers := peerReturned s p } ∧
        u.memRead (s.cfg.shmBase + 16 * (rslot p c).val + 4 * w.val) = some (s.eval x) ∧
        OnlyWordWritten s u (s.cfg.shmBase + 16 * (rslot p c).val + 4 * w.val)) ∧
    ((s.cfg.peerTrusted = true → s.pvTx.get p c = true) →
      ∃ v, s.memRead (s.cfg.shmBase + 16 * (wslot p c).val + 4 * w.val) = some v ∧
        exec (.pread w p c t) s = .next { s with
          log := s.log ++ [.peerRead p c w v], peers := peerBound s p t v })

/-- PPOST raises the peer's request and sends POST; PDRAIN drops the peer's view of AP's request and sends DRAIN
(R351, R353). -/
def Obligations.PeerPostAndDrainSendTheirEvents : Prop :=
  ∀ (s : State) (p : Port) (c : Chan), s.cur = .peer p →
    ((s.cfg.peerTrusted = true → s.preq.get p c = false) →
      exec (.ppost p c) s = .next { s with
        preq := s.preq.set p c true
        inq := s.inq.set p c (s.inq.get p c ++ [.post])
        peers := peerReturned s p }) ∧
    ((s.cfg.peerTrusted = true → s.pvTx.get p c = true) →
      exec (.pdrain p c) s = .next { s with
        pvTx := s.pvTx.set p c false
        inq := s.inq.set p c (s.inq.get p c ++ [.drain])
        peers := peerReturned s p })

/-- A trusted peer's move outside its contract is not enabled: it waits (R350 to R353; the model's waiting: log 2). -/
def Obligations.TrustedPeerWaitsOutsideItsContract : Prop :=
  ∀ (s : State) (w : WordIdx) (p : Port) (c : Chan) (x : Expr) (t : VarName), s.cur = .peer p →
    s.cfg.peerTrusted = true →
    (s.preq.get p c = true → exec (.pwrite w p c x) s = .next s ∧ exec (.ppost p c) s = .next s) ∧
    (s.pvTx.get p c = false → exec (.pread w p c t) s = .next s ∧ exec (.pdrain p c) s = .next s)

/-- With a misaligned SHM_BASE every shared-memory access of an operation is refused as BadAccess. R9 and R106 make
SHM_BASE a multiple of 4 and a misaligned access BadAccess; what an operation does where SHM_BASE is none is the model's
inference (log 9). -/
def Obligations.MisalignedSharedMemoryIsBadAccess : Prop :=
  ∀ (s : State), s.cfg.shmBase % 4 ≠ 0 →
    (∀ w p c x, s.cur = .peer p → (s.cfg.peerTrusted = true → s.preq.get p c = false) →
      exec (.pwrite w p c x) s = .next { s with refused := some .badAccess }) ∧
    (∀ w p c t, s.cur = .peer p → (s.cfg.peerTrusted = true → s.pvTx.get p c = true) →
      exec (.pread w p c t) s = .next { s with refused := some .badAccess }) ∧
    (∀ k c d m t l i t1, IsCaller s k c → c.send = some l → l.phase = .copy i t1 →
      exec (.send d m t) s = .next { s with refused := some .badAccess }) ∧
    (∀ w m a p c rs rest buf, s.cur = .dispatcher → s.dphase = .run w m a (.recv p c rs :: rest) buf →
      exec .dispatch s = .next { s with refused := some .badAccess })

/-- A delivery into AP's domain takes the head of its queue: POST sets `rx` and FULL, DRAIN clears a standing `tx` and
sets EMPTY, and has no effect on a withdrawn post (R361, R362). -/
def Obligations.InboundDelivery : Prop :=
  ∀ (s : State) (p : Port) (c : Chan) (rest : List InEvent), s.cur = .sync .inward p c →
    (s.inq.get p c = .post :: rest →
      exec (.syncIn p c) s = .next { s with
        inq := s.inq.set p c rest
        rx := s.rx.set p c true
        status := s.status ||| bit (s.cfg.fullBit p c) }) ∧
    (s.inq.get p c = .drain :: rest → s.tx.get p c = true →
      exec (.syncIn p c) s = .next { s with
        inq := s.inq.set p c rest
        tx := s.tx.set p c false
        status := s.status ||| bit (s.cfg.emptyBit p c) }) ∧
    (s.inq.get p c = .drain :: rest → s.tx.get p c = false →
      exec (.syncIn p c) s = .next { s with inq := s.inq.set p c rest })

/-- A delivery into the peer's domain takes the head of its queue: TXSET sets `pv_tx`, RXACK clears `preq`, TXCLR clears
`pv_tx` (R363 to R365). -/
def Obligations.OutboundDelivery : Prop :=
  ∀ (s : State) (p : Port) (c : Chan) (rest : List OutEvent), s.cur = .sync .outward p c →
    (s.outq.get p c = .txset :: rest →
      exec (.syncOut p c) s = .next { s with outq := s.outq.set p c rest, pvTx := s.pvTx.set p c true }) ∧
    (s.outq.get p c = .rxack :: rest →
      exec (.syncOut p c) s = .next { s with outq := s.outq.set p c rest, preq := s.preq.set p c false }) ∧
    (s.outq.get p c = .txclr :: rest →
      exec (.syncOut p c) s = .next { s with outq := s.outq.set p c rest, pvTx := s.pvTx.set p c false })

/-! ### The whole machine -/

/-- Who may change what, over all operations. The parameters never change, the log only grows, records are never removed,
and the device state leaves UNINIT once, by BRINGUP. Descriptors change only by ALLOC, CONFIG and REGISTER; the line
enable, the tables and the counters only by REGISTER and UNREGISTER, and MASK only by these and a raw write; shared
memory only by SEND and PWRITE; `tx` only by a write of TX or CLR, SEND and SYNC_IN; `rx` and STATUS only by a write of
STATUS, DISPATCH and SYNC_IN, and a STATUS bit is cleared only by the first two; `pv_tx` only by PDRAIN and SYNC_OUT;
`preq` only by PPOST and SYNC_OUT; the inbound queues only by PPOST, PDRAIN and SYNC_IN; the outbound queues only by a
write of TX, STATUS or CLR, SEND, DISPATCH and SYNC_OUT; the Dispatcher's phase only by DISPATCH (R33 to R46, R60,
R61). Only the issuing agent's stream changes: its program stays, its index moves by one at most, and of its variables
only those the operation binds; a SEND's locals change only by SEND; no Caller comes or goes (R30, R32, R63, R472). A
refusal is a mark with no other change, and is never cleared (R404). The model's own fields: the schedule does not change
here, and draws are taken only by ALLOC, BRINGUP, a write of STATUS and DISPATCH (log 1, log 3, log 4). No step changes the
number of Callers (R9). -/
def Obligations.OnlyTheNamedOperationsChangeState : Prop :=
  (∀ (i : Instr) (s u : State), exec i s = .next u →
    u.cfg = s.cfg ∧ (∃ l, u.log = s.log ++ l) ∧ s.desc.length ≤ u.desc.length ∧
    (s.dev ≠ .uninit → u.dev = s.dev) ∧
    ((∀ t, i ≠ .bringup t) → u.dev = s.dev) ∧
    ((∀ d x t, i ≠ .alloc d x t) → (∀ d t, i ≠ .register d t) →
      (∀ d x, i ≠ .configPort d x ∧ i ≠ .configId d x ∧ i ≠ .configHandshake d x ∧ i ≠ .configHasReceive d x ∧
        i ≠ .configHasTxDrained d x) → u.desc = s.desc) ∧
    ((∀ d x t, i ≠ .alloc d x t) → u.names = s.names) ∧
    ((∀ d t, i ≠ .register d t) → (∀ d t, i ≠ .unregister d t) →
      u.lineEn = s.lineEn ∧ u.table = s.table ∧ u.free = s.free ∧ ((∀ x, i ≠ .wrMask x) → u.mask = s.mask)) ∧
    ((∀ d m t, i ≠ .send d m t) → (∀ w p c x, i ≠ .pwrite w p c x) → u.shm = s.shm) ∧
    ((∀ x, i ≠ .wrTx x) → (∀ x, i ≠ .wrClr x) → (∀ d m t, i ≠ .send d m t) → (∀ p c, i ≠ .syncIn p c) →
      u.tx = s.tx) ∧
    ((∀ x, i ≠ .wrStatus x) → i ≠ .dispatch → (∀ p c, i ≠ .syncIn p c) → u.rx = s.rx ∧ u.status = s.status) ∧
    ((∀ p c, i ≠ .pdrain p c) → (∀ p c, i ≠ .syncOut p c) → u.pvTx = s.pvTx) ∧
    ((∀ p c, i ≠ .ppost p c) → (∀ p c, i ≠ .syncOut p c) → u.preq = s.preq) ∧
    ((∀ p c, i ≠ .ppost p c) → (∀ p c, i ≠ .pdrain p c) → (∀ p c, i ≠ .syncIn p c) → u.inq = s.inq) ∧
    ((∀ x, i ≠ .wrTx x ∧ i ≠ .wrStatus x ∧ i ≠ .wrClr x) → (∀ d m t, i ≠ .send d m t) → i ≠ .dispatch →
      (∀ p c, i ≠ .syncOut p c) → u.outq = s.outq) ∧
    (i ≠ .dispatch → u.dphase = s.dphase) ∧
    ((∀ x, i ≠ .wrStatus x) → i ≠ .dispatch → ∀ b, s.status.getLsbD b = true → u.status.getLsbD b = true) ∧
    (u.callers.length = s.callers.length ∧
      (∀ (k : Nat) c, s.callers[k]? = some c → ∃ c', u.callers[k]? = some c' ∧ StreamMoved i c.stream c'.stream ∧
        (s.cur ≠ .caller k → c' = c) ∧ ((∀ d m t, i ≠ .send d m t) → c'.send = c.send)) ∧
      ∀ p, StreamMoved i (s.peers.get p) (u.peers.get p) ∧ (s.cur ≠ .peer p → u.peers.get p = s.peers.get p)) ∧
    (u.refused = s.refused ∨ ∃ r, u = { s with refused := some r }) ∧
    (u.cur = s.cur ∧ u.sched = s.sched ∧ u.tick = s.tick) ∧
    ((∀ d x t, i ≠ .alloc d x t) → (∀ t, i ≠ .bringup t) → (∀ x, i ≠ .wrStatus x) → i ≠ .dispatch →
      u.tape = s.tape ∧ u.drawn = s.drawn)) ∧
  ∀ s u : State, step s = .next u → s.callersCounted → u.callersCounted

/-- Slots 0..7 and 16..23 are touched by no step: their bytes read as before (R103). -/
def Obligations.UnusedSlotsAreNeverWritten : Prop :=
  ∀ (s u : State) (slot : Slot) (a : Nat), s.slotsSound → step s = .next u →
    (slot.val < 8 ∨ (16 ≤ slot.val ∧ slot.val < 24)) →
    s.cfg.shmBase + 16 * slot.val ≤ a → a < s.cfg.shmBase + 16 * slot.val + 16 →
    u.shm.byte a = s.shm.byte a

/-- Every step keeps the operations in progress on the slots R102 gives (R102, R281, R304). -/
def Obligations.StepsKeepSlotsSound : Prop :=
  ∀ s u : State, s.slotsSound → step s = .next u → u.slotsSound

/-- R64(a) is kept by every step, raw writes and untrusted peers included: `rx` mirrors the FULL bits. -/
def Obligations.StepsKeepRxMirroringFull : Prop :=
  ∀ s u : State, s.cfg.wf = true → s.rxMirrorsFull → step s = .next u → u.cfg.wf = true ∧ u.rxMirrorsFull

/-- The registration invariant is kept by every step, raw writes included: the line follows the tables (R37, R243, R246,
R247), the counters agree, no handle stands twice, and every entry's descriptor and slots are its own (R45, R46). R64
names the line and the counters as invariants of runs without raw writes, and says that raw writes can break the first;
no rule for a raw write changes the line or a table, and the model follows those rules (log 30). -/
def Obligations.StepsKeepRegistrationInvariant : Prop :=
  ∀ s u : State, s.registrationInv → step s = .next u → u.registrationInv

/-- R64(c) is kept by every operation but a raw write of MASK: MASK agrees with the tables. -/
def Obligations.OperationsKeepMaskFollowingTables : Prop :=
  ∀ (i : Instr) (s u : State), s.cfg.wf = true → s.maskFollowsTables →
    (∀ x, i ≠ .wrMask x) → exec i s = .next u → u.maskFollowsTables

/-- The inbound handshake of trusted peers is kept by every step: at most one POST in flight, FULL pending or RXACK in
flight a channel, exactly while the peer's request stands (R351, R364, R369). -/
def Obligations.StepsKeepInboundHandshake : Prop :=
  ∀ s u : State, s.cfg.wf = true → s.cfg.peerTrusted = true → s.rxMirrorsFull → s.inboundHandshake →
    step s = .next u → u.inboundHandshake

/-- The outbound handshake of trusted peers is kept by every operation but a withdrawal through CLR: a standing TX bit is
a TXSET in flight, a request the peer sees, or a DRAIN in flight, exactly one of them (R205, R353, R362, R363). -/
def Obligations.OperationsKeepOutboundHandshake : Prop :=
  ∀ (i : Instr) (s u : State), s.cfg.peerTrusted = true → s.outboundHandshake → (∀ x, i ≠ .wrClr x) →
    exec i s = .next u → u.outboundHandshake

/-- Every step keeps shared memory in the model's canonical form, strictly rising addresses (log 5), with only addresses of
the region listed (R42, R101). -/
def Obligations.StepsKeepMemoryWellFormed : Prop :=
  ∀ s u : State, s.memoryWf → step s = .next u → u.memoryWf

/-- Reset, for all legal parameters: registers and request bits 0, queues and tables empty, counters 8, device UNINIT,
Dispatcher IDLE, locks free, nothing logged or refused, every Caller at index 0, `irq` 0 (R65, R450, R454). -/
def Obligations.ResetValues : Prop :=
  ∀ cfg : Params,
    let s := State.resetWith cfg
    (∀ p c, s.tx.get p c = false ∧ s.rx.get p c = false ∧ s.pvTx.get p c = false ∧ s.preq.get p c = false ∧
      s.inq.get p c = [] ∧ s.outq.get p c = [] ∧ s.table.get p c = none) ∧
    s.status = 0 ∧ s.mask = 0 ∧ s.lineEn = false ∧ s.irq = false ∧ s.dev = .uninit ∧ s.desc = [] ∧
    (∀ p, s.free.get p = 8) ∧ s.maskLock = none ∧ (∀ p, s.portLock p = none) ∧ s.dphase = .idle ∧ s.log = [] ∧
    s.refused = none ∧ s.callers.length = cfg.nCallers ∧
    ∀ c ∈ s.callers, c.stream.idx = 0 ∧ c.send = none

/-- Every invariant above holds at reset, for all legal parameters. -/
def Obligations.ResetSatisfiesEveryInvariant : Prop :=
  ∀ cfg : Params, cfg.wf = true →
    let s := State.resetWith cfg
    s.rxMirrorsFull ∧ s.registrationInv ∧ s.maskFollowsTables ∧ s.inboundHandshake ∧ s.outboundHandshake ∧
      s.memoryWf ∧ s.slotsSound ∧ s.callersCounted

/-! ### Placement -/

/-- Slots, words and fields stand where the spec puts them: the four slot formulas, the word address, the six bit
positions, the origin masks and the data fields, and their reference values (R12, R101, R102). -/
def Obligations.SlotsAndFieldsStandWhereTheSpecPutsThem : Prop :=
  (∀ c : Chan, (wslot .np c).val = 32 + 8 + c.val ∧ (wslot .lp c).val = 32 + 0 + c.val ∧
    (rslot .np c).val = 16 + 8 + c.val ∧ (rslot .lp c).val = 0 + 8 + c.val) ∧
  (∀ (cfg : Params) (i : Slot) (k : WordIdx), cfg.wordAddr i k = cfg.shmBase + 16 * i.val + 4 * k.val) ∧
  (∀ (cfg : Params) (c : Chan),
    cfg.dataBit .np c = cfg.npDataLsb + c.val ∧ cfg.dataBit .lp c = cfg.lpDataLsb + c.val ∧
    cfg.emptyBit .np c = cfg.npEmptyLsb + c.val ∧ cfg.emptyBit .lp c = cfg.lpEmptyLsb + c.val ∧
    cfg.fullBit .np c = cfg.npFullLsb + c.val ∧ cfg.fullBit .lp c = cfg.lpFullLsb + c.val) ∧
  (∀ (cfg : Params) (b : Nat), cfg.wf = true →
    ((cfg.origin .np).getLsbD b = true ↔ InField cfg.npEmptyLsb b ∨ InField cfg.npFullLsb b) ∧
    ((cfg.origin .lp).getLsbD b = true ↔ InField cfg.lpEmptyLsb b ∨ InField cfg.lpFullLsb b) ∧
    ((cfg.dataField .np).getLsbD b = true ↔ InField cfg.npDataLsb b) ∧
    ((cfg.dataField .lp).getLsbD b = true ↔ InField cfg.lpDataLsb b)) ∧
  Params.reference.origin .np = 0x00FF00FF ∧ Params.reference.origin .lp = 0xFF00FF00 ∧
  Params.reference.dataField .np = 0x000000FF ∧ Params.reference.dataField .lp = 0x00FF0000 ∧
  ∀ c : Chan, Params.reference.dataBit .np c = c.val ∧ Params.reference.dataBit .lp c = 16 + c.val ∧
    Params.reference.emptyBit .np c = c.val ∧ Params.reference.emptyBit .lp c = 8 + c.val ∧
    Params.reference.fullBit .np c = 16 + c.val ∧ Params.reference.fullBit .lp c = 24 + c.val
end

