-- ==== Sys2Proof/Laws/Chans.lean ====
section
/-! SUPPORT. Reading after writing, for values indexed by port and by (port, channel). -/

namespace Sys2Proof.Machine

theorem PerPort.get_set {α : Type} (f : PerPort α) (p q : Port) (v : α) :
    (f.set p v).get q = if q = p then v else f.get q := by
  cases p <;> cases q <;> rfl

@[simp] theorem PerPort.get_set_same {α : Type} (f : PerPort α) (p : Port) (v : α) :
    (f.set p v).get p = v := by
  cases p <;> rfl

theorem PerPort.ext_get {α : Type} {f g : PerPort α} (h : ∀ p, f.get p = g.get p) : f = g := by
  cases f; cases g
  exact congrArg₂ PerPort.mk (h .np) (h .lp)

theorem Chans.get_set {α : Type} (f : Chans α) (p q : Port) (c d : Chan) (v : α) :
    (f.set p c v).get q d = if q = p ∧ d = c then v else f.get q d := by
  cases p <;> cases q <;> simp [Chans.set, Chans.get, Vector.getElem_set, Fin.ext_iff, eq_comm]

@[simp] theorem Chans.get_set_same {α : Type} (f : Chans α) (p : Port) (c : Chan) (v : α) :
    (f.set p c v).get p c = v := by
  simp [Chans.get_set]

@[simp] theorem Chans.get_mapC {α β : Type} (g : Port → Chan → α → β) (f : Chans α) (p : Port) (c : Chan) :
    (f.mapC g).get p c = g p c (f.get p c) := by
  cases p <;> simp [Chans.mapC, Chans.get]

@[simp] theorem Chans.get_fill {α : Type} (v : α) (p : Port) (c : Chan) : (Chans.fill v).get p c = v := by
  cases p <;> simp [Chans.fill, Chans.get]

theorem Chans.ext_get {α : Type} {f g : Chans α} (h : ∀ p c, f.get p c = g.get p c) : f = g := by
  cases f with
  | mk fn fl =>
    cases g with
    | mk gn gl =>
      have hn : fn = gn := Vector.ext fun i hi => h .np ⟨i, hi⟩
      have hl : fl = gl := Vector.ext fun i hi => h .lp ⟨i, hi⟩
      rw [hn, hl]

@[simp] theorem Chans.set_get_self {α : Type} (f : Chans α) (p : Port) (c : Chan) : f.set p c (f.get p c) = f :=
  Chans.ext_get fun q d => by
    rw [Chans.get_set]
    split
    · next h => rw [h.1, h.2]
    · rfl

theorem mem_allChans (c : Chan) : c ∈ allChans := by
  revert c; decide

theorem allChans_nodup : allChans.Nodup := by decide

theorem mem_allPortChans (p : Port) (c : Chan) : (p, c) ∈ allPortChans := by
  cases p <;> revert c <;> decide

end Sys2Proof.Machine
end

