-- ==== Sys2Proof/Laws/Layout.lean ====
section
/-! SUPPORT. The bits of the field functions (R12), and what legal parameters give: fields inside the word and
disjoint (R35, R38), word addresses inside the region (R101). -/

namespace Sys2Proof

theorem getLsbD_bit (i j : Nat) : (bit i).getLsbD j = (decide (j = i) && decide (j < 32)) := by
  simp only [bit, BitVec.getLsbD_shiftLeft, BitVec.getLsbD_one]
  by_cases h : j < 32
  · by_cases h1 : j < i
    · simp [h, h1, show j ≠ i by omega]
    · by_cases h2 : j = i
      · subst h2; simp [h]
      · simp [h, h1, h2, show j - i ≠ 0 by omega]
  · simp [h]

theorem getLsbD_byteField (l j : Nat) :
    (byteField l).getLsbD j = (decide (l ≤ j) && decide (j < l + 8) && decide (j < 32)) := by
  have key : ∀ k, (0xFF#32).getLsbD k = decide (k < 8) := by
    intro k
    by_cases h : k < 32
    · interval_cases k <;> rfl
    · simp [BitVec.getLsbD_of_ge _ _ (Nat.le_of_not_lt h), show ¬ k < 8 by omega]
  simp only [byteField, BitVec.getLsbD_shiftLeft, key]
  by_cases h : j < 32
  · by_cases h1 : j < l
    · simp [h, h1, show ¬ l ≤ j by omega]
    · by_cases h2 : j < l + 8
      · simp [h, h1, h2, show l ≤ j by omega, show j - l < 8 by omega]
      · simp [h, h1, h2, show ¬ j - l < 8 by omega]
  · simp [h]

/-- What legal parameters say of the bits, as inequalities (R9, R35, R38). -/
theorem Params.wf_bounds {cfg : Params} (h : cfg.wf = true) :
    (cfg.npDataLsb + 8 ≤ 32 ∧ cfg.lpDataLsb + 8 ≤ 32 ∧
      (cfg.npDataLsb + 8 ≤ cfg.lpDataLsb ∨ cfg.lpDataLsb + 8 ≤ cfg.npDataLsb)) ∧
    (cfg.npEmptyLsb + 8 ≤ 32 ∧ cfg.lpEmptyLsb + 8 ≤ 32 ∧ cfg.npFullLsb + 8 ≤ 32 ∧ cfg.lpFullLsb + 8 ≤ 32) ∧
    ((cfg.npEmptyLsb + 8 ≤ cfg.lpEmptyLsb ∨ cfg.lpEmptyLsb + 8 ≤ cfg.npEmptyLsb) ∧
      (cfg.npEmptyLsb + 8 ≤ cfg.npFullLsb ∨ cfg.npFullLsb + 8 ≤ cfg.npEmptyLsb) ∧
      (cfg.npEmptyLsb + 8 ≤ cfg.lpFullLsb ∨ cfg.lpFullLsb + 8 ≤ cfg.npEmptyLsb) ∧
      (cfg.lpEmptyLsb + 8 ≤ cfg.npFullLsb ∨ cfg.npFullLsb + 8 ≤ cfg.lpEmptyLsb) ∧
      (cfg.lpEmptyLsb + 8 ≤ cfg.lpFullLsb ∨ cfg.lpFullLsb + 8 ≤ cfg.lpEmptyLsb) ∧
      (cfg.npFullLsb + 8 ≤ cfg.lpFullLsb ∨ cfg.lpFullLsb + 8 ≤ cfg.npFullLsb)) ∧
    cfg.shmBase % 4 = 0 ∧ 1 ≤ cfg.nCallers := by
  simp only [Params.wf, fieldsDisjoint, Params.statusLsbs, List.all_cons, List.all_nil, List.pairwise_cons,
    Bool.and_eq_true, decide_eq_true_eq, List.mem_cons, List.not_mem_nil, or_false, forall_eq_or_imp, forall_eq,
    false_implies, implies_true, and_true, List.Pairwise.nil] at h
  omega

theorem Params.fullBit_lt {cfg : Params} (h : cfg.wf = true) (p : Port) (c : Chan) : cfg.fullBit p c < 32 := by
  have := Params.wf_bounds h
  cases p <;> simp only [Params.fullBit, Params.fullLsb] <;> omega

theorem Params.emptyBit_lt {cfg : Params} (h : cfg.wf = true) (p : Port) (c : Chan) : cfg.emptyBit p c < 32 := by
  have := Params.wf_bounds h
  cases p <;> simp only [Params.emptyBit, Params.emptyLsb] <;> omega

theorem Params.dataBit_lt {cfg : Params} (h : cfg.wf = true) (p : Port) (c : Chan) : cfg.dataBit p c < 32 := by
  have := Params.wf_bounds h
  cases p <;> simp only [Params.dataBit, Params.dataLsb] <;> omega

theorem Params.fullBit_inj {cfg : Params} (h : cfg.wf = true) (p q : Port) (c d : Chan) :
    cfg.fullBit p c = cfg.fullBit q d ↔ p = q ∧ c = d := by
  have := Params.wf_bounds h
  cases p <;> cases q <;> simp [Params.fullBit, Params.fullLsb, Fin.ext_iff] <;> omega

theorem Params.emptyBit_inj {cfg : Params} (h : cfg.wf = true) (p q : Port) (c d : Chan) :
    cfg.emptyBit p c = cfg.emptyBit q d ↔ p = q ∧ c = d := by
  have := Params.wf_bounds h
  cases p <;> cases q <;> simp [Params.emptyBit, Params.emptyLsb, Fin.ext_iff] <;> omega

theorem Params.dataBit_inj {cfg : Params} (h : cfg.wf = true) (p q : Port) (c d : Chan) :
    cfg.dataBit p c = cfg.dataBit q d ↔ p = q ∧ c = d := by
  have := Params.wf_bounds h
  cases p <;> cases q <;> simp [Params.dataBit, Params.dataLsb, Fin.ext_iff] <;> omega

theorem Params.fullBit_ne_emptyBit {cfg : Params} (h : cfg.wf = true) (p q : Port) (c d : Chan) :
    cfg.fullBit p c ≠ cfg.emptyBit q d := by
  have := Params.wf_bounds h
  cases p <;> cases q <;> simp only [Params.fullBit, Params.fullLsb, Params.emptyBit, Params.emptyLsb] <;> omega

/-- A bit of `ORIGIN(p)` is an EMPTY or FULL bit of port p (R12). -/
theorem Params.getLsbD_origin {cfg : Params} (h : cfg.wf = true) (p : Port) (i : Nat) :
    (cfg.origin p).getLsbD i = true ↔ ∃ c, i = cfg.emptyBit p c ∨ i = cfg.fullBit p c := by
  have hb := Params.wf_bounds h
  simp only [Params.origin, BitVec.getLsbD_or, getLsbD_byteField, Bool.or_eq_true, Bool.and_eq_true,
    decide_eq_true_eq]
  constructor
  · rintro (⟨⟨h1, h2⟩, -⟩ | ⟨⟨h1, h2⟩, -⟩)
    · exact ⟨⟨i - cfg.emptyLsb p, by omega⟩, .inl (by simp only [Params.emptyBit]; omega)⟩
    · exact ⟨⟨i - cfg.fullLsb p, by omega⟩, .inr (by simp only [Params.fullBit]; omega)⟩
  · rintro ⟨c, rfl | rfl⟩
    · have := Params.emptyBit_lt h p c
      simp only [Params.emptyBit] at *
      omega
    · have := Params.fullBit_lt h p c
      simp only [Params.fullBit] at *
      omega

/-- Every bit of STATUS belongs to one of the four fields (R35). -/
theorem Params.status_bit_cases {cfg : Params} (h : cfg.wf = true) (i : Nat) (hi : i < 32) :
    ∃ p c, i = cfg.emptyBit p c ∨ i = cfg.fullBit p c := by
  have hb := Params.wf_bounds h
  have pick : ∀ l, l ≤ i → i < l + 8 → ∃ c : Chan, i = l + c.val :=
    fun l h1 h2 => ⟨⟨i - l, by omega⟩, by show i = l + (i - l); omega⟩
  have hc : (cfg.npEmptyLsb ≤ i ∧ i < cfg.npEmptyLsb + 8) ∨ (cfg.lpEmptyLsb ≤ i ∧ i < cfg.lpEmptyLsb + 8) ∨
      (cfg.npFullLsb ≤ i ∧ i < cfg.npFullLsb + 8) ∨ (cfg.lpFullLsb ≤ i ∧ i < cfg.lpFullLsb + 8) := by omega
  rcases hc with ⟨h1, h2⟩ | ⟨h1, h2⟩ | ⟨h1, h2⟩ | ⟨h1, h2⟩
  · exact (pick _ h1 h2).elim fun c hc => ⟨.np, c, .inl hc⟩
  · exact (pick _ h1 h2).elim fun c hc => ⟨.lp, c, .inl hc⟩
  · exact (pick _ h1 h2).elim fun c hc => ⟨.np, c, .inr hc⟩
  · exact (pick _ h1 h2).elim fun c hc => ⟨.lp, c, .inr hc⟩

/-- Every word of every slot is an aligned word inside the region, if SHM_BASE is aligned (R101, R106). -/
theorem Params.shmOk_wordAddr {cfg : Params} (h : cfg.shmBase % 4 = 0) (i : Slot) (k : WordIdx) :
    cfg.shmOk (cfg.wordAddr i k) = true := by
  have h1 : (cfg.shmBase + 16 * i.val + 4 * k.val) % 4 = 0 := by omega
  have h2 : cfg.shmBase ≤ cfg.shmBase + 16 * i.val + 4 * k.val := by omega
  have h3 : cfg.shmBase + 16 * i.val + 4 * k.val + 4 ≤ cfg.shmBase + 768 := by omega
  rw [Params.shmOk, Params.wordAddr, regionBytes, decide_eq_true h1, decide_eq_true h2, decide_eq_true h3]
  rfl

/-- With a misaligned SHM_BASE every word address is misaligned (R106). -/
theorem Params.shmOk_wordAddr_misaligned {cfg : Params} (h : cfg.shmBase % 4 ≠ 0) (i : Slot) (k : WordIdx) :
    cfg.shmOk (cfg.wordAddr i k) = false := by
  have h1 : ¬ (cfg.shmBase + 16 * i.val + 4 * k.val) % 4 = 0 := by omega
  rw [Params.shmOk, Params.wordAddr, decide_eq_false h1]
  rfl

theorem Port.ofWord_toWord (p : Port) : Port.ofWord p.toWord = some p := by
  cases p <;> rfl

theorem Port.ofWord_eq_some {v : Word} {p : Port} : Port.ofWord v = some p ↔ v = p.toWord := by
  constructor
  · intro h
    unfold Port.ofWord at h
    split at h
    · next h0 => cases h; exact h0
    · split at h
      · next h1 => cases h; exact h1
      · cases h
  · rintro rfl
    exact Port.ofWord_toWord p

end Sys2Proof
end

