-- ==== Sys2Proof/Laws/Demux.lean ====
section
/-! SUPPORT. What the demultiplexer (R304) does, said once: its items and the bits it leaves; and the orders a draw
gives. -/

namespace Sys2Proof.Machine

theorem getLsbD_and_not_bit (w : Word) (b i : Nat) :
    (w &&& ~~~(bit b)).getLsbD i = (w.getLsbD i && !decide (i = b)) := by
  rw [BitVec.getLsbD_and, BitVec.getLsbD_not, getLsbD_bit]
  by_cases h : i < 32
  · simp [h]
  · simp [BitVec.getLsbD_of_ge _ i (Nat.le_of_not_lt h)]

/-- The items an entry with slot `rs` adds for the word w: its Drain, then its Recv (R304, steps 5a and 5b). -/
theorem demuxEntry_items {cfg : Params} (h : cfg.wf = true) (p : Port) (c : Chan) (e : Entry) (w : Word) :
    (demuxEntry cfg p c e w).1 =
      (if w.getLsbD (cfg.emptyBit p c) && e.hs && e.txd then [.drain p c] else []) ++
        (if w.getLsbD (cfg.fullBit p c) then [.recv p c e.rslot] else []) := by
  have hne := Params.fullBit_ne_emptyBit h p p c c
  simp only [demuxEntry]
  congr 2
  split
  · rw [getLsbD_and_not_bit]; simp [hne]
  · rfl

/-- The bits an entry leaves: its FULL bit, and in handshake mode its EMPTY bit, are cleared (R304). -/
theorem demuxEntry_rest {cfg : Params} (h : cfg.wf = true) (p : Port) (c : Chan) (e : Entry) (w : Word) (i : Nat) :
    (demuxEntry cfg p c e w).2.getLsbD i =
      (w.getLsbD i && !(decide (i = cfg.emptyBit p c) && e.hs) && !decide (i = cfg.fullBit p c)) := by
  have hne := Params.fullBit_ne_emptyBit h p p c c
  simp only [demuxEntry]
  cases h1 : (w.getLsbD (cfg.emptyBit p c) && e.hs)
  · simp only [Bool.false_eq_true, if_false]
    split
    · rw [getLsbD_and_not_bit]
      by_cases hi : i = cfg.emptyBit p c
      · subst hi; simp; grind
      · simp [hi]
    · next h2 =>
      by_cases hi : i = cfg.emptyBit p c
      · subst hi; simp [Ne.symm hne]; grind
      · by_cases hi2 : i = cfg.fullBit p c
        · subst hi2; simp [hi]; grind
        · simp [hi, hi2]
  · simp only [if_true, getLsbD_and_not_bit, hne, decide_false, Bool.not_false, Bool.and_true]
    split
    · rw [getLsbD_and_not_bit, getLsbD_and_not_bit]; simp; grind
    · rw [getLsbD_and_not_bit]; simp; grind

/-- The bits a scan leaves: those no entry of the scanned channels takes (R304). -/
theorem demuxScan_rest {cfg : Params} (h : cfg.wf = true) (p : Port) (t : Chans (Option Entry)) (order : List Chan)
    (w : Word) (i : Nat) :
    (demuxScan cfg p t order w).2.getLsbD i = true ↔
      (w.getLsbD i = true ∧ ∀ c ∈ order, ∀ e, t.get p c = some e →
        i ≠ cfg.fullBit p c ∧ (i = cfg.emptyBit p c → e.hs = false)) := by
  induction order generalizing w with
  | nil => simp [demuxScan]
  | cons c rest ih =>
    unfold demuxScan
    cases ht : t.get p c with
    | none =>
      dsimp only
      rw [ih]; simp [ht]
    | some e =>
      dsimp only
      rw [ih, demuxEntry_rest h]
      simp [ht]; grind

/-- The items of one channel for the word w; none for a channel without an entry (R304). -/
theorem demuxScan_items {cfg : Params} (h : cfg.wf = true) (p : Port) (t : Chans (Option Entry)) (order : List Chan)
    (w : Word) (hn : order.Nodup) :
    (demuxScan cfg p t order w).1 = order.flatMap (fun c =>
      match t.get p c with
      | none => []
      | some e =>
        (if w.getLsbD (cfg.emptyBit p c) && e.hs && e.txd then [.drain p c] else []) ++
          (if w.getLsbD (cfg.fullBit p c) then [.recv p c e.rslot] else [])) := by
  induction order generalizing w with
  | nil => rfl
  | cons c rest ih =>
    obtain ⟨hc, hr⟩ := List.nodup_cons.1 hn
    unfold demuxScan
    cases ht : t.get p c with
    | none => dsimp only; rw [ih _ hr, List.flatMap_cons]; simp [ht]
    | some e =>
      dsimp only
      rw [List.flatMap_cons, ih _ hr, demuxEntry_items h]
      simp only [ht]
      congr 1
      refine List.flatMap_congr fun d hd => ?_
      have hne : c ≠ d := fun x => hc (x ▸ hd)
      rw [demuxEntry_rest h, demuxEntry_rest h]
      have h1 := Params.fullBit_ne_emptyBit h p p d c
      have h2 := Params.fullBit_ne_emptyBit h p p c d
      have h3 := Params.fullBit_inj h p p d c
      have h4 := Params.emptyBit_inj h p p d c
      simp [h1, Ne.symm h2, h3, h4, Ne.symm hne]

/-- Every number gives an order of the whole list (R304). -/
theorem permOf_perm {α : Type} (key : Nat) (l : List α) : (permOf key l).Perm l := by
  induction l generalizing key with
  | nil => exact List.Perm.refl _
  | cons a l ih =>
    have hl : (permOf (key / (l.length + 1)) l).length = l.length := (ih _).length_eq
    refine (List.perm_insertIdx a _ ?_).trans ((ih _).cons a)
    rw [hl]
    exact Nat.lt_succ_iff.1 (Nat.mod_lt _ (Nat.succ_pos _))

theorem insertIdx_length {α : Type} (l m : List α) (a : α) : (l ++ m).insertIdx l.length a = l ++ a :: m := by
  induction l with
  | nil => simp
  | cons b l ih => simpa using ih

/-- Every order of the list is given by some number (R304). -/
theorem permOf_surjective {α : Type} (l m : List α) (h : m.Perm l) : ∃ key, permOf key l = m := by
  induction l generalizing m with
  | nil => exact ⟨0, (h.eq_nil).symm⟩
  | cons a l ih =>
    obtain ⟨m1, m2, rfl⟩ := List.append_of_mem (h.mem_iff.2 List.mem_cons_self)
    have hp : (m1 ++ m2).Perm l := (List.perm_cons a).1 (List.perm_middle.symm.trans h)
    obtain ⟨key, hk⟩ := ih _ hp
    have hlen : m1.length < l.length + 1 := by
      have := hp.length_eq
      simp only [List.length_append] at this
      omega
    have h1 : (key * (l.length + 1) + m1.length) / (l.length + 1) = key := by
      rw [Nat.mul_comm, Nat.mul_add_div (by omega), Nat.div_eq_of_lt hlen, Nat.add_zero]
    have h2 : (key * (l.length + 1) + m1.length) % (l.length + 1) = m1.length := by
      rw [Nat.mul_comm, Nat.mul_add_mod, Nat.mod_eq_of_lt hlen]
    exact ⟨key * (l.length + 1) + m1.length, by rw [permOf, h1, h2, hk, insertIdx_length]⟩

end Sys2Proof.Machine
end

