-- ==== Sys2Proof/Laws/Memory.lean ====
section
/-! SUPPORT. The basic laws of sorted maps and of shared memory: read after write, and every operation keeps the
canonical form. -/

namespace Sys2Proof.Machine

theorem Assoc.get?_put {α : Type} (m : List (Nat × α)) (a b : Nat) (v : α) :
    Assoc.get? (Assoc.put m a v) b = if b = a then some v else Assoc.get? m b := by
  induction m with
  | nil => simp [Assoc.put, Assoc.get?, eq_comm]
  | cons kv rest ih =>
    obtain ⟨k, x⟩ := kv
    simp only [Assoc.put]
    split
    · simp only [Assoc.get?, eq_comm]
    · split
      · next h => subst h; simp only [Assoc.get?, eq_comm]; split <;> rfl
      · next h =>
        simp only [Assoc.get?, ih]
        by_cases hb : k = b
        · subst hb; simp [h]
        · simp [hb]

@[simp] theorem Assoc.get?_put_same {α : Type} (m : List (Nat × α)) (a : Nat) (v : α) :
    Assoc.get? (Assoc.put m a v) a = some v := by
  rw [Assoc.get?_put, if_pos rfl]

theorem Assoc.mem_put {α : Type} (m : List (Nat × α)) (a : Nat) (v : α) (x : Nat × α) :
    x ∈ Assoc.put m a v → x = (a, v) ∨ x ∈ m := by
  induction m with
  | nil => simp [Assoc.put]
  | cons kv rest ih =>
    simp only [Assoc.put]
    split
    · simp
    · split
      · intro h
        rcases List.mem_cons.1 h with h | h
        · exact .inl h
        · exact .inr (List.mem_cons_of_mem _ h)
      · intro h
        rcases List.mem_cons.1 h with h | h
        · exact .inr (h ▸ List.mem_cons_self)
        · exact (ih h).imp_right (List.mem_cons_of_mem _)

theorem Assoc.put_wf {α : Type} (m : List (Nat × α)) (a : Nat) (v : α) (h : Assoc.wf m) :
    Assoc.wf (Assoc.put m a v) := by
  induction m with
  | nil => simp [Assoc.put]
  | cons kv rest ih =>
    obtain ⟨hlt, hrest⟩ := List.pairwise_cons.1 h
    simp only [Assoc.put]
    split
    · next hak =>
      refine List.pairwise_cons.2 ⟨fun x hx => ?_, h⟩
      rcases List.mem_cons.1 hx with rfl | hx
      · exact hak
      · exact Nat.lt_trans hak (hlt x hx)
    · next hak =>
      split
      · next hka => subst hka; exact List.pairwise_cons.2 ⟨hlt, hrest⟩
      · next hka =>
        refine List.pairwise_cons.2 ⟨fun x hx => ?_, ih hrest⟩
        rcases Assoc.mem_put rest a v x hx with rfl | hx
        · show kv.1 < a
          omega
        · exact hlt x hx

theorem Memory.byte_write (m : Memory) (a b : Nat) (v : Byte) :
    (m.write a v).byte b = if b = a then v else m.byte b := by
  simp only [Memory.byte, Memory.read?, Memory.write, Assoc.get?_put]
  split <;> rfl

theorem Memory.write_wf (m : Memory) (a : Nat) (v : Byte) (h : m.wf) : (m.write a v).wf :=
  Assoc.put_wf m a v h

theorem Memory.writeWord_wf (m : Memory) (o : ByteOrder) (a : Nat) (v : Word) (h : m.wf) :
    (m.writeWord o a v).wf :=
  Memory.write_wf _ _ _ (Memory.write_wf _ _ _ (Memory.write_wf _ _ _ (Memory.write_wf _ _ _ h)))

/-- A byte after a word write: one of the word's bytes inside it, unchanged outside. -/
theorem Memory.byte_writeWord (m : Memory) (o : ByteOrder) (a b : Nat) (v : Word) :
    (m.writeWord o a v).byte b =
      if a ≤ b ∧ b < a + 4 then byteOfWord o v (b - a) else m.byte b := by
  simp only [Memory.writeWord, Memory.byte_write]
  by_cases h3 : b = a + 3
  · subst h3; simp
  · by_cases h2 : b = a + 2
    · subst h2; simp
    · by_cases h1 : b = a + 1
      · subst h1; simp
      · by_cases h0 : b = a
        · subst h0; simp
        · have : ¬(a ≤ b ∧ b < a + 4) := by omega
          simp [h0, h1, h2, h3, this]

/-- Splitting a word into bytes and joining them gives the word back, in either byte order (R105). -/
theorem wordOfBytes_byteOfWord (o : ByteOrder) (v : Word) :
    wordOfBytes o (byteOfWord o v 0) (byteOfWord o v 1) (byteOfWord o v 2) (byteOfWord o v 3) = v := by
  cases o <;>
    (apply BitVec.eq_of_getLsbD_eq
     intro i hi
     simp only [wordOfBytes, byteOfWord, BitVec.getLsbD_append, BitVec.getLsbD_extractLsb']
     by_cases h0 : i < 8
     · simp [h0]
     · by_cases h1 : i < 16
       · simp [h0, show i - 8 < 8 by omega, show 8 + (i - 8) = i by omega]
       · by_cases h2 : i < 24
         · simp [h0, show ¬ i - 8 < 8 by omega, show i - 8 - 8 < 8 by omega,
             show 16 + (i - 8 - 8) = i by omega]
         · simp [h0, show ¬ i - 8 < 8 by omega, show ¬ i - 8 - 8 < 8 by omega,
             show i - 8 - 8 - 8 < 8 by omega, show 24 + (i - 8 - 8 - 8) = i by omega])

/-- The word read after a word write to the same place. -/
theorem Memory.readWord_writeWord_same (m : Memory) (o : ByteOrder) (a : Nat) (v : Word) :
    (m.writeWord o a v).readWord o a = v := by
  simp only [Memory.readWord, Memory.byte_writeWord]
  simpa using wordOfBytes_byteOfWord o v

/-- A word write leaves every word it does not overlap. -/
theorem Memory.readWord_writeWord_other (m : Memory) (o : ByteOrder) (a b : Nat) (v : Word)
    (h : b + 4 ≤ a ∨ a + 4 ≤ b) : (m.writeWord o a v).readWord o b = m.readWord o b := by
  simp only [Memory.readWord, Memory.byte_writeWord]
  rw [if_neg (by omega), if_neg (by omega), if_neg (by omega), if_neg (by omega)]

/-- The keys a word write adds are the four addresses it writes. -/
theorem Memory.mem_writeWord (m : Memory) (o : ByteOrder) (a : Nat) (v : Word) (x : Host.Cell)
    (h : x ∈ m.writeWord o a v) : (a ≤ x.1 ∧ x.1 < a + 4) ∨ x ∈ m := by
  rcases Assoc.mem_put _ _ _ _ h with rfl | h
  · exact .inl ⟨by simp, by simp⟩
  rcases Assoc.mem_put _ _ _ _ h with rfl | h
  · exact .inl ⟨by simp, by simp⟩
  rcases Assoc.mem_put _ _ _ _ h with rfl | h
  · exact .inl ⟨by simp, by simp⟩
  rcases Assoc.mem_put _ _ _ _ h with rfl | h
  · exact .inl ⟨by simp, by simp⟩
  · exact .inr h

end Sys2Proof.Machine
end

