-- ==== Sys2Proof/Laws/State.lean ====
section
/-! SUPPORT. What each named update of the state leaves unchanged, one lemma a field, and what it writes. -/

namespace Sys2Proof.Machine

/-! ### Fields an update leaves unchanged -/

@[simp] theorem State.raise_cfg (s : State) (r : Reason) : (s.raise r).cfg = s.cfg := rfl
@[simp] theorem State.raise_tx (s : State) (r : Reason) : (s.raise r).tx = s.tx := rfl
@[simp] theorem State.raise_rx (s : State) (r : Reason) : (s.raise r).rx = s.rx := rfl
@[simp] theorem State.raise_status (s : State) (r : Reason) : (s.raise r).status = s.status := rfl
@[simp] theorem State.raise_mask (s : State) (r : Reason) : (s.raise r).mask = s.mask := rfl
@[simp] theorem State.raise_lineEn (s : State) (r : Reason) : (s.raise r).lineEn = s.lineEn := rfl
@[simp] theorem State.raise_pvTx (s : State) (r : Reason) : (s.raise r).pvTx = s.pvTx := rfl
@[simp] theorem State.raise_preq (s : State) (r : Reason) : (s.raise r).preq = s.preq := rfl
@[simp] theorem State.raise_inq (s : State) (r : Reason) : (s.raise r).inq = s.inq := rfl
@[simp] theorem State.raise_outq (s : State) (r : Reason) : (s.raise r).outq = s.outq := rfl
@[simp] theorem State.raise_shm (s : State) (r : Reason) : (s.raise r).shm = s.shm := rfl
@[simp] theorem State.raise_dev (s : State) (r : Reason) : (s.raise r).dev = s.dev := rfl
@[simp] theorem State.raise_desc (s : State) (r : Reason) : (s.raise r).desc = s.desc := rfl
@[simp] theorem State.raise_table (s : State) (r : Reason) : (s.raise r).table = s.table := rfl
@[simp] theorem State.raise_free (s : State) (r : Reason) : (s.raise r).free = s.free := rfl
@[simp] theorem State.raise_log (s : State) (r : Reason) : (s.raise r).log = s.log := rfl
@[simp] theorem State.raise_dphase (s : State) (r : Reason) : (s.raise r).dphase = s.dphase := rfl
@[simp] theorem State.raise_callers (s : State) (r : Reason) : (s.raise r).callers = s.callers := rfl
@[simp] theorem State.raise_peers (s : State) (r : Reason) : (s.raise r).peers = s.peers := rfl
@[simp] theorem State.raise_names (s : State) (r : Reason) : (s.raise r).names = s.names := rfl
@[simp] theorem State.raise_cur (s : State) (r : Reason) : (s.raise r).cur = s.cur := rfl
@[simp] theorem State.raise_sched (s : State) (r : Reason) : (s.raise r).sched = s.sched := rfl
@[simp] theorem State.raise_tick (s : State) (r : Reason) : (s.raise r).tick = s.tick := rfl
@[simp] theorem State.raise_tape (s : State) (r : Reason) : (s.raise r).tape = s.tape := rfl
@[simp] theorem State.raise_drawn (s : State) (r : Reason) : (s.raise r).drawn = s.drawn := rfl

@[simp] theorem State.emit_cfg (s : State) (e : Event) : (s.emit e).cfg = s.cfg := rfl
@[simp] theorem State.emit_tx (s : State) (e : Event) : (s.emit e).tx = s.tx := rfl
@[simp] theorem State.emit_rx (s : State) (e : Event) : (s.emit e).rx = s.rx := rfl
@[simp] theorem State.emit_status (s : State) (e : Event) : (s.emit e).status = s.status := rfl
@[simp] theorem State.emit_mask (s : State) (e : Event) : (s.emit e).mask = s.mask := rfl
@[simp] theorem State.emit_lineEn (s : State) (e : Event) : (s.emit e).lineEn = s.lineEn := rfl
@[simp] theorem State.emit_pvTx (s : State) (e : Event) : (s.emit e).pvTx = s.pvTx := rfl
@[simp] theorem State.emit_preq (s : State) (e : Event) : (s.emit e).preq = s.preq := rfl
@[simp] theorem State.emit_inq (s : State) (e : Event) : (s.emit e).inq = s.inq := rfl
@[simp] theorem State.emit_outq (s : State) (e : Event) : (s.emit e).outq = s.outq := rfl
@[simp] theorem State.emit_shm (s : State) (e : Event) : (s.emit e).shm = s.shm := rfl
@[simp] theorem State.emit_dev (s : State) (e : Event) : (s.emit e).dev = s.dev := rfl
@[simp] theorem State.emit_desc (s : State) (e : Event) : (s.emit e).desc = s.desc := rfl
@[simp] theorem State.emit_table (s : State) (e : Event) : (s.emit e).table = s.table := rfl
@[simp] theorem State.emit_free (s : State) (e : Event) : (s.emit e).free = s.free := rfl
@[simp] theorem State.emit_dphase (s : State) (e : Event) : (s.emit e).dphase = s.dphase := rfl
@[simp] theorem State.emit_callers (s : State) (e : Event) : (s.emit e).callers = s.callers := rfl
@[simp] theorem State.emit_peers (s : State) (e : Event) : (s.emit e).peers = s.peers := rfl
@[simp] theorem State.emit_names (s : State) (e : Event) : (s.emit e).names = s.names := rfl
@[simp] theorem State.emit_refused (s : State) (e : Event) : (s.emit e).refused = s.refused := rfl
@[simp] theorem State.emit_cur (s : State) (e : Event) : (s.emit e).cur = s.cur := rfl
@[simp] theorem State.emit_sched (s : State) (e : Event) : (s.emit e).sched = s.sched := rfl
@[simp] theorem State.emit_tick (s : State) (e : Event) : (s.emit e).tick = s.tick := rfl
@[simp] theorem State.emit_tape (s : State) (e : Event) : (s.emit e).tape = s.tape := rfl
@[simp] theorem State.emit_drawn (s : State) (e : Event) : (s.emit e).drawn = s.drawn := rfl

@[simp] theorem State.updStream_cfg (s : State) (f : Stream → Stream) : (s.updStream f).cfg = s.cfg :=
  by unfold State.updStream; split <;> rfl
@[simp] theorem State.updStream_tx (s : State) (f : Stream → Stream) : (s.updStream f).tx = s.tx :=
  by unfold State.updStream; split <;> rfl
@[simp] theorem State.updStream_rx (s : State) (f : Stream → Stream) : (s.updStream f).rx = s.rx :=
  by unfold State.updStream; split <;> rfl
@[simp] theorem State.updStream_status (s : State) (f : Stream → Stream) : (s.updStream f).status = s.status :=
  by unfold State.updStream; split <;> rfl
@[simp] theorem State.updStream_mask (s : State) (f : Stream → Stream) : (s.updStream f).mask = s.mask :=
  by unfold State.updStream; split <;> rfl
@[simp] theorem State.updStream_lineEn (s : State) (f : Stream → Stream) : (s.updStream f).lineEn = s.lineEn :=
  by unfold State.updStream; split <;> rfl
@[simp] theorem State.updStream_pvTx (s : State) (f : Stream → Stream) : (s.updStream f).pvTx = s.pvTx :=
  by unfold State.updStream; split <;> rfl
@[simp] theorem State.updStream_preq (s : State) (f : Stream → Stream) : (s.updStream f).preq = s.preq :=
  by unfold State.updStream; split <;> rfl
@[simp] theorem State.updStream_inq (s : State) (f : Stream → Stream) : (s.updStream f).inq = s.inq :=
  by unfold State.updStream; split <;> rfl
@[simp] theorem State.updStream_outq (s : State) (f : Stream → Stream) : (s.updStream f).outq = s.outq :=
  by unfold State.updStream; split <;> rfl
@[simp] theorem State.updStream_shm (s : State) (f : Stream → Stream) : (s.updStream f).shm = s.shm :=
  by unfold State.updStream; split <;> rfl
@[simp] theorem State.updStream_dev (s : State) (f : Stream → Stream) : (s.updStream f).dev = s.dev :=
  by unfold State.updStream; split <;> rfl
@[simp] theorem State.updStream_desc (s : State) (f : Stream → Stream) : (s.updStream f).desc = s.desc :=
  by unfold State.updStream; split <;> rfl
@[simp] theorem State.updStream_table (s : State) (f : Stream → Stream) : (s.updStream f).table = s.table :=
  by unfold State.updStream; split <;> rfl
@[simp] theorem State.updStream_free (s : State) (f : Stream → Stream) : (s.updStream f).free = s.free :=
  by unfold State.updStream; split <;> rfl
@[simp] theorem State.updStream_log (s : State) (f : Stream → Stream) : (s.updStream f).log = s.log :=
  by unfold State.updStream; split <;> rfl
@[simp] theorem State.updStream_dphase (s : State) (f : Stream → Stream) : (s.updStream f).dphase = s.dphase :=
  by unfold State.updStream; split <;> rfl
@[simp] theorem State.updStream_names (s : State) (f : Stream → Stream) : (s.updStream f).names = s.names :=
  by unfold State.updStream; split <;> rfl
@[simp] theorem State.updStream_refused (s : State) (f : Stream → Stream) : (s.updStream f).refused = s.refused :=
  by unfold State.updStream; split <;> rfl
@[simp] theorem State.updStream_cur (s : State) (f : Stream → Stream) : (s.updStream f).cur = s.cur :=
  by unfold State.updStream; split <;> rfl
@[simp] theorem State.updStream_sched (s : State) (f : Stream → Stream) : (s.updStream f).sched = s.sched :=
  by unfold State.updStream; split <;> rfl
@[simp] theorem State.updStream_tick (s : State) (f : Stream → Stream) : (s.updStream f).tick = s.tick :=
  by unfold State.updStream; split <;> rfl
@[simp] theorem State.updStream_tape (s : State) (f : Stream → Stream) : (s.updStream f).tape = s.tape :=
  by unfold State.updStream; split <;> rfl
@[simp] theorem State.updStream_drawn (s : State) (f : Stream → Stream) : (s.updStream f).drawn = s.drawn :=
  by unfold State.updStream; split <;> rfl

@[simp] theorem State.bind_cfg (s : State) (t : VarName) (v : Word) : (s.bind t v).cfg = s.cfg :=
  State.updStream_cfg s _
@[simp] theorem State.bind_tx (s : State) (t : VarName) (v : Word) : (s.bind t v).tx = s.tx := State.updStream_tx s _
@[simp] theorem State.bind_rx (s : State) (t : VarName) (v : Word) : (s.bind t v).rx = s.rx := State.updStream_rx s _
@[simp] theorem State.bind_status (s : State) (t : VarName) (v : Word) : (s.bind t v).status = s.status :=
  State.updStream_status s _
@[simp] theorem State.bind_mask (s : State) (t : VarName) (v : Word) : (s.bind t v).mask = s.mask :=
  State.updStream_mask s _
@[simp] theorem State.bind_lineEn (s : State) (t : VarName) (v : Word) : (s.bind t v).lineEn = s.lineEn :=
  State.updStream_lineEn s _
@[simp] theorem State.bind_pvTx (s : State) (t : VarName) (v : Word) : (s.bind t v).pvTx = s.pvTx :=
  State.updStream_pvTx s _
@[simp] theorem State.bind_preq (s : State) (t : VarName) (v : Word) : (s.bind t v).preq = s.preq :=
  State.updStream_preq s _
@[simp] theorem State.bind_inq (s : State) (t : VarName) (v : Word) : (s.bind t v).inq = s.inq :=
  State.updStream_inq s _
@[simp] theorem State.bind_outq (s : State) (t : VarName) (v : Word) : (s.bind t v).outq = s.outq :=
  State.updStream_outq s _
@[simp] theorem State.bind_shm (s : State) (t : VarName) (v : Word) : (s.bind t v).shm = s.shm :=
  State.updStream_shm s _
@[simp] theorem State.bind_dev (s : State) (t : VarName) (v : Word) : (s.bind t v).dev = s.dev :=
  State.updStream_dev s _
@[simp] theorem State.bind_desc (s : State) (t : VarName) (v : Word) : (s.bind t v).desc = s.desc :=
  State.updStream_desc s _
@[simp] theorem State.bind_table (s : State) (t : VarName) (v : Word) : (s.bind t v).table = s.table :=
  State.updStream_table s _
@[simp] theorem State.bind_free (s : State) (t : VarName) (v : Word) : (s.bind t v).free = s.free :=
  State.updStream_free s _
@[simp] theorem State.bind_log (s : State) (t : VarName) (v : Word) : (s.bind t v).log = s.log :=
  State.updStream_log s _
@[simp] theorem State.bind_dphase (s : State) (t : VarName) (v : Word) : (s.bind t v).dphase = s.dphase :=
  State.updStream_dphase s _
@[simp] theorem State.bind_names (s : State) (t : VarName) (v : Word) : (s.bind t v).names = s.names :=
  State.updStream_names s _
@[simp] theorem State.bind_refused (s : State) (t : VarName) (v : Word) : (s.bind t v).refused = s.refused :=
  State.updStream_refused s _
@[simp] theorem State.bind_cur (s : State) (t : VarName) (v : Word) : (s.bind t v).cur = s.cur :=
  State.updStream_cur s _
@[simp] theorem State.bind_sched (s : State) (t : VarName) (v : Word) : (s.bind t v).sched = s.sched :=
  State.updStream_sched s _
@[simp] theorem State.bind_tick (s : State) (t : VarName) (v : Word) : (s.bind t v).tick = s.tick :=
  State.updStream_tick s _
@[simp] theorem State.bind_tape (s : State) (t : VarName) (v : Word) : (s.bind t v).tape = s.tape :=
  State.updStream_tape s _
@[simp] theorem State.bind_drawn (s : State) (t : VarName) (v : Word) : (s.bind t v).drawn = s.drawn :=
  State.updStream_drawn s _

@[simp] theorem State.retire_cfg (s : State) : s.retire.cfg = s.cfg := State.updStream_cfg s _
@[simp] theorem State.retire_tx (s : State) : s.retire.tx = s.tx := State.updStream_tx s _
@[simp] theorem State.retire_rx (s : State) : s.retire.rx = s.rx := State.updStream_rx s _
@[simp] theorem State.retire_status (s : State) : s.retire.status = s.status := State.updStream_status s _
@[simp] theorem State.retire_mask (s : State) : s.retire.mask = s.mask := State.updStream_mask s _
@[simp] theorem State.retire_lineEn (s : State) : s.retire.lineEn = s.lineEn := State.updStream_lineEn s _
@[simp] theorem State.retire_pvTx (s : State) : s.retire.pvTx = s.pvTx := State.updStream_pvTx s _
@[simp] theorem State.retire_preq (s : State) : s.retire.preq = s.preq := State.updStream_preq s _
@[simp] theorem State.retire_inq (s : State) : s.retire.inq = s.inq := State.updStream_inq s _
@[simp] theorem State.retire_outq (s : State) : s.retire.outq = s.outq := State.updStream_outq s _
@[simp] theorem State.retire_shm (s : State) : s.retire.shm = s.shm := State.updStream_shm s _
@[simp] theorem State.retire_dev (s : State) : s.retire.dev = s.dev := State.updStream_dev s _
@[simp] theorem State.retire_desc (s : State) : s.retire.desc = s.desc := State.updStream_desc s _
@[simp] theorem State.retire_table (s : State) : s.retire.table = s.table := State.updStream_table s _
@[simp] theorem State.retire_free (s : State) : s.retire.free = s.free := State.updStream_free s _
@[simp] theorem State.retire_log (s : State) : s.retire.log = s.log := State.updStream_log s _
@[simp] theorem State.retire_dphase (s : State) : s.retire.dphase = s.dphase := State.updStream_dphase s _
@[simp] theorem State.retire_names (s : State) : s.retire.names = s.names := State.updStream_names s _
@[simp] theorem State.retire_refused (s : State) : s.retire.refused = s.refused := State.updStream_refused s _
@[simp] theorem State.retire_cur (s : State) : s.retire.cur = s.cur := State.updStream_cur s _
@[simp] theorem State.retire_sched (s : State) : s.retire.sched = s.sched := State.updStream_sched s _
@[simp] theorem State.retire_tick (s : State) : s.retire.tick = s.tick := State.updStream_tick s _
@[simp] theorem State.retire_tape (s : State) : s.retire.tape = s.tape := State.updStream_tape s _
@[simp] theorem State.retire_drawn (s : State) : s.retire.drawn = s.drawn := State.updStream_drawn s _

@[simp] theorem State.setSend_cfg (s : State) (x : Option SendLocals) : (s.setSend x).cfg = s.cfg :=
  by unfold State.setSend; split <;> rfl
@[simp] theorem State.setSend_tx (s : State) (x : Option SendLocals) : (s.setSend x).tx = s.tx :=
  by unfold State.setSend; split <;> rfl
@[simp] theorem State.setSend_rx (s : State) (x : Option SendLocals) : (s.setSend x).rx = s.rx :=
  by unfold State.setSend; split <;> rfl
@[simp] theorem State.setSend_status (s : State) (x : Option SendLocals) : (s.setSend x).status = s.status :=
  by unfold State.setSend; split <;> rfl
@[simp] theorem State.setSend_mask (s : State) (x : Option SendLocals) : (s.setSend x).mask = s.mask :=
  by unfold State.setSend; split <;> rfl
@[simp] theorem State.setSend_lineEn (s : State) (x : Option SendLocals) : (s.setSend x).lineEn = s.lineEn :=
  by unfold State.setSend; split <;> rfl
@[simp] theorem State.setSend_pvTx (s : State) (x : Option SendLocals) : (s.setSend x).pvTx = s.pvTx :=
  by unfold State.setSend; split <;> rfl
@[simp] theorem State.setSend_preq (s : State) (x : Option SendLocals) : (s.setSend x).preq = s.preq :=
  by unfold State.setSend; split <;> rfl
@[simp] theorem State.setSend_inq (s : State) (x : Option SendLocals) : (s.setSend x).inq = s.inq :=
  by unfold State.setSend; split <;> rfl
@[simp] theorem State.setSend_outq (s : State) (x : Option SendLocals) : (s.setSend x).outq = s.outq :=
  by unfold State.setSend; split <;> rfl
@[simp] theorem State.setSend_shm (s : State) (x : Option SendLocals) : (s.setSend x).shm = s.shm :=
  by unfold State.setSend; split <;> rfl
@[simp] theorem State.setSend_dev (s : State) (x : Option SendLocals) : (s.setSend x).dev = s.dev :=
  by unfold State.setSend; split <;> rfl
@[simp] theorem State.setSend_desc (s : State) (x : Option SendLocals) : (s.setSend x).desc = s.desc :=
  by unfold State.setSend; split <;> rfl
@[simp] theorem State.setSend_table (s : State) (x : Option SendLocals) : (s.setSend x).table = s.table :=
  by unfold State.setSend; split <;> rfl
@[simp] theorem State.setSend_free (s : State) (x : Option SendLocals) : (s.setSend x).free = s.free :=
  by unfold State.setSend; split <;> rfl
@[simp] theorem State.setSend_log (s : State) (x : Option SendLocals) : (s.setSend x).log = s.log :=
  by unfold State.setSend; split <;> rfl
@[simp] theorem State.setSend_dphase (s : State) (x : Option SendLocals) : (s.setSend x).dphase = s.dphase :=
  by unfold State.setSend; split <;> rfl
@[simp] theorem State.setSend_peers (s : State) (x : Option SendLocals) : (s.setSend x).peers = s.peers :=
  by unfold State.setSend; split <;> rfl
@[simp] theorem State.setSend_names (s : State) (x : Option SendLocals) : (s.setSend x).names = s.names :=
  by unfold State.setSend; split <;> rfl
@[simp] theorem State.setSend_refused (s : State) (x : Option SendLocals) : (s.setSend x).refused = s.refused :=
  by unfold State.setSend; split <;> rfl
@[simp] theorem State.setSend_cur (s : State) (x : Option SendLocals) : (s.setSend x).cur = s.cur :=
  by unfold State.setSend; split <;> rfl
@[simp] theorem State.setSend_sched (s : State) (x : Option SendLocals) : (s.setSend x).sched = s.sched :=
  by unfold State.setSend; split <;> rfl
@[simp] theorem State.setSend_tick (s : State) (x : Option SendLocals) : (s.setSend x).tick = s.tick :=
  by unfold State.setSend; split <;> rfl
@[simp] theorem State.setSend_tape (s : State) (x : Option SendLocals) : (s.setSend x).tape = s.tape :=
  by unfold State.setSend; split <;> rfl
@[simp] theorem State.setSend_drawn (s : State) (x : Option SendLocals) : (s.setSend x).drawn = s.drawn :=
  by unfold State.setSend; split <;> rfl

@[simp] theorem State.finish_cfg (s : State) (op : ChmOp) (t : VarName) (code : ResultCode) : (s.finish op t code).cfg = s.cfg :=
  by simp [State.finish]
@[simp] theorem State.finish_tx (s : State) (op : ChmOp) (t : VarName) (code : ResultCode) : (s.finish op t code).tx = s.tx :=
  by simp [State.finish]
@[simp] theorem State.finish_rx (s : State) (op : ChmOp) (t : VarName) (code : ResultCode) : (s.finish op t code).rx = s.rx :=
  by simp [State.finish]
@[simp] theorem State.finish_status (s : State) (op : ChmOp) (t : VarName) (code : ResultCode) : (s.finish op t code).status = s.status :=
  by simp [State.finish]
@[simp] theorem State.finish_mask (s : State) (op : ChmOp) (t : VarName) (code : ResultCode) : (s.finish op t code).mask = s.mask :=
  by simp [State.finish]
@[simp] theorem State.finish_lineEn (s : State) (op : ChmOp) (t : VarName) (code : ResultCode) : (s.finish op t code).lineEn = s.lineEn :=
  by simp [State.finish]
@[simp] theorem State.finish_pvTx (s : State) (op : ChmOp) (t : VarName) (code : ResultCode) : (s.finish op t code).pvTx = s.pvTx :=
  by simp [State.finish]
@[simp] theorem State.finish_preq (s : State) (op : ChmOp) (t : VarName) (code : ResultCode) : (s.finish op t code).preq = s.preq :=
  by simp [State.finish]
@[simp] theorem State.finish_inq (s : State) (op : ChmOp) (t : VarName) (code : ResultCode) : (s.finish op t code).inq = s.inq :=
  by simp [State.finish]
@[simp] theorem State.finish_outq (s : State) (op : ChmOp) (t : VarName) (code : ResultCode) : (s.finish op t code).outq = s.outq :=
  by simp [State.finish]
@[simp] theorem State.finish_shm (s : State) (op : ChmOp) (t : VarName) (code : ResultCode) : (s.finish op t code).shm = s.shm :=
  by simp [State.finish]
@[simp] theorem State.finish_dev (s : State) (op : ChmOp) (t : VarName) (code : ResultCode) : (s.finish op t code).dev = s.dev :=
  by simp [State.finish]
@[simp] theorem State.finish_desc (s : State) (op : ChmOp) (t : VarName) (code : ResultCode) : (s.finish op t code).desc = s.desc :=
  by simp [State.finish]
@[simp] theorem State.finish_table (s : State) (op : ChmOp) (t : VarName) (code : ResultCode) : (s.finish op t code).table = s.table :=
  by simp [State.finish]
@[simp] theorem State.finish_free (s : State) (op : ChmOp) (t : VarName) (code : ResultCode) : (s.finish op t code).free = s.free :=
  by simp [State.finish]
@[simp] theorem State.finish_dphase (s : State) (op : ChmOp) (t : VarName) (code : ResultCode) : (s.finish op t code).dphase = s.dphase :=
  by simp [State.finish]
@[simp] theorem State.finish_names (s : State) (op : ChmOp) (t : VarName) (code : ResultCode) : (s.finish op t code).names = s.names :=
  by simp [State.finish]
@[simp] theorem State.finish_refused (s : State) (op : ChmOp) (t : VarName) (code : ResultCode) : (s.finish op t code).refused = s.refused :=
  by simp [State.finish]
@[simp] theorem State.finish_cur (s : State) (op : ChmOp) (t : VarName) (code : ResultCode) : (s.finish op t code).cur = s.cur :=
  by simp [State.finish]
@[simp] theorem State.finish_sched (s : State) (op : ChmOp) (t : VarName) (code : ResultCode) : (s.finish op t code).sched = s.sched :=
  by simp [State.finish]
@[simp] theorem State.finish_tick (s : State) (op : ChmOp) (t : VarName) (code : ResultCode) : (s.finish op t code).tick = s.tick :=
  by simp [State.finish]
@[simp] theorem State.finish_tape (s : State) (op : ChmOp) (t : VarName) (code : ResultCode) : (s.finish op t code).tape = s.tape :=
  by simp [State.finish]
@[simp] theorem State.finish_drawn (s : State) (op : ChmOp) (t : VarName) (code : ResultCode) : (s.finish op t code).drawn = s.drawn :=
  by simp [State.finish]

@[simp] theorem State.finishSend_cfg (s : State) (t : VarName) (code : ResultCode) : (s.finishSend t code).cfg = s.cfg :=
  by simp [State.finishSend]
@[simp] theorem State.finishSend_tx (s : State) (t : VarName) (code : ResultCode) : (s.finishSend t code).tx = s.tx :=
  by simp [State.finishSend]
@[simp] theorem State.finishSend_rx (s : State) (t : VarName) (code : ResultCode) : (s.finishSend t code).rx = s.rx :=
  by simp [State.finishSend]
@[simp] theorem State.finishSend_status (s : State) (t : VarName) (code : ResultCode) : (s.finishSend t code).status = s.status :=
  by simp [State.finishSend]
@[simp] theorem State.finishSend_mask (s : State) (t : VarName) (code : ResultCode) : (s.finishSend t code).mask = s.mask :=
  by simp [State.finishSend]
@[simp] theorem State.finishSend_lineEn (s : State) (t : VarName) (code : ResultCode) : (s.finishSend t code).lineEn = s.lineEn :=
  by simp [State.finishSend]
@[simp] theorem State.finishSend_pvTx (s : State) (t : VarName) (code : ResultCode) : (s.finishSend t code).pvTx = s.pvTx :=
  by simp [State.finishSend]
@[simp] theorem State.finishSend_preq (s : State) (t : VarName) (code : ResultCode) : (s.finishSend t code).preq = s.preq :=
  by simp [State.finishSend]
@[simp] theorem State.finishSend_inq (s : State) (t : VarName) (code : ResultCode) : (s.finishSend t code).inq = s.inq :=
  by simp [State.finishSend]
@[simp] theorem State.finishSend_outq (s : State) (t : VarName) (code : ResultCode) : (s.finishSend t code).outq = s.outq :=
  by simp [State.finishSend]
@[simp] theorem State.finishSend_shm (s : State) (t : VarName) (code : ResultCode) : (s.finishSend t code).shm = s.shm :=
  by simp [State.finishSend]
@[simp] theorem State.finishSend_dev (s : State) (t : VarName) (code : ResultCode) : (s.finishSend t code).dev = s.dev :=
  by simp [State.finishSend]
@[simp] theorem State.finishSend_desc (s : State) (t : VarName) (code : ResultCode) : (s.finishSend t code).desc = s.desc :=
  by simp [State.finishSend]
@[simp] theorem State.finishSend_table (s : State) (t : VarName) (code : ResultCode) : (s.finishSend t code).table = s.table :=
  by simp [State.finishSend]
@[simp] theorem State.finishSend_free (s : State) (t : VarName) (code : ResultCode) : (s.finishSend t code).free = s.free :=
  by simp [State.finishSend]
@[simp] theorem State.finishSend_dphase (s : State) (t : VarName) (code : ResultCode) : (s.finishSend t code).dphase = s.dphase :=
  by simp [State.finishSend]
@[simp] theorem State.finishSend_names (s : State) (t : VarName) (code : ResultCode) : (s.finishSend t code).names = s.names :=
  by simp [State.finishSend]
@[simp] theorem State.finishSend_refused (s : State) (t : VarName) (code : ResultCode) : (s.finishSend t code).refused = s.refused :=
  by simp [State.finishSend]
@[simp] theorem State.finishSend_cur (s : State) (t : VarName) (code : ResultCode) : (s.finishSend t code).cur = s.cur :=
  by simp [State.finishSend]
@[simp] theorem State.finishSend_sched (s : State) (t : VarName) (code : ResultCode) : (s.finishSend t code).sched = s.sched :=
  by simp [State.finishSend]
@[simp] theorem State.finishSend_tick (s : State) (t : VarName) (code : ResultCode) : (s.finishSend t code).tick = s.tick :=
  by simp [State.finishSend]
@[simp] theorem State.finishSend_tape (s : State) (t : VarName) (code : ResultCode) : (s.finishSend t code).tape = s.tape :=
  by simp [State.finishSend]
@[simp] theorem State.finishSend_drawn (s : State) (t : VarName) (code : ResultCode) : (s.finishSend t code).drawn = s.drawn :=
  by simp [State.finishSend]

@[simp] theorem State.afterDraw_cfg (s : State) : s.afterDraw.cfg = s.cfg := by unfold State.afterDraw; split <;> rfl
@[simp] theorem State.afterDraw_tx (s : State) : s.afterDraw.tx = s.tx := by unfold State.afterDraw; split <;> rfl
@[simp] theorem State.afterDraw_rx (s : State) : s.afterDraw.rx = s.rx := by unfold State.afterDraw; split <;> rfl
@[simp] theorem State.afterDraw_status (s : State) : s.afterDraw.status = s.status :=
  by unfold State.afterDraw; split <;> rfl
@[simp] theorem State.afterDraw_mask (s : State) : s.afterDraw.mask = s.mask :=
  by unfold State.afterDraw; split <;> rfl
@[simp] theorem State.afterDraw_lineEn (s : State) : s.afterDraw.lineEn = s.lineEn :=
  by unfold State.afterDraw; split <;> rfl
@[simp] theorem State.afterDraw_pvTx (s : State) : s.afterDraw.pvTx = s.pvTx :=
  by unfold State.afterDraw; split <;> rfl
@[simp] theorem State.afterDraw_preq (s : State) : s.afterDraw.preq = s.preq :=
  by unfold State.afterDraw; split <;> rfl
@[simp] theorem State.afterDraw_inq (s : State) : s.afterDraw.inq = s.inq := by unfold State.afterDraw; split <;> rfl
@[simp] theorem State.afterDraw_outq (s : State) : s.afterDraw.outq = s.outq :=
  by unfold State.afterDraw; split <;> rfl
@[simp] theorem State.afterDraw_shm (s : State) : s.afterDraw.shm = s.shm := by unfold State.afterDraw; split <;> rfl
@[simp] theorem State.afterDraw_dev (s : State) : s.afterDraw.dev = s.dev := by unfold State.afterDraw; split <;> rfl
@[simp] theorem State.afterDraw_desc (s : State) : s.afterDraw.desc = s.desc :=
  by unfold State.afterDraw; split <;> rfl
@[simp] theorem State.afterDraw_table (s : State) : s.afterDraw.table = s.table :=
  by unfold State.afterDraw; split <;> rfl
@[simp] theorem State.afterDraw_free (s : State) : s.afterDraw.free = s.free :=
  by unfold State.afterDraw; split <;> rfl
@[simp] theorem State.afterDraw_log (s : State) : s.afterDraw.log = s.log := by unfold State.afterDraw; split <;> rfl
@[simp] theorem State.afterDraw_dphase (s : State) : s.afterDraw.dphase = s.dphase :=
  by unfold State.afterDraw; split <;> rfl
@[simp] theorem State.afterDraw_callers (s : State) : s.afterDraw.callers = s.callers :=
  by unfold State.afterDraw; split <;> rfl
@[simp] theorem State.afterDraw_peers (s : State) : s.afterDraw.peers = s.peers :=
  by unfold State.afterDraw; split <;> rfl
@[simp] theorem State.afterDraw_names (s : State) : s.afterDraw.names = s.names :=
  by unfold State.afterDraw; split <;> rfl
@[simp] theorem State.afterDraw_refused (s : State) : s.afterDraw.refused = s.refused :=
  by unfold State.afterDraw; split <;> rfl
@[simp] theorem State.afterDraw_cur (s : State) : s.afterDraw.cur = s.cur := by unfold State.afterDraw; split <;> rfl
@[simp] theorem State.afterDraw_sched (s : State) : s.afterDraw.sched = s.sched :=
  by unfold State.afterDraw; split <;> rfl
@[simp] theorem State.afterDraw_tick (s : State) : s.afterDraw.tick = s.tick :=
  by unfold State.afterDraw; split <;> rfl

@[simp] theorem State.afterKeep_cfg (s : State) : s.afterKeep.cfg = s.cfg := by unfold State.afterKeep; split <;> simp
@[simp] theorem State.afterKeep_tx (s : State) : s.afterKeep.tx = s.tx := by unfold State.afterKeep; split <;> simp
@[simp] theorem State.afterKeep_rx (s : State) : s.afterKeep.rx = s.rx := by unfold State.afterKeep; split <;> simp
@[simp] theorem State.afterKeep_status (s : State) : s.afterKeep.status = s.status :=
  by unfold State.afterKeep; split <;> simp
@[simp] theorem State.afterKeep_mask (s : State) : s.afterKeep.mask = s.mask :=
  by unfold State.afterKeep; split <;> simp
@[simp] theorem State.afterKeep_lineEn (s : State) : s.afterKeep.lineEn = s.lineEn :=
  by unfold State.afterKeep; split <;> simp
@[simp] theorem State.afterKeep_pvTx (s : State) : s.afterKeep.pvTx = s.pvTx :=
  by unfold State.afterKeep; split <;> simp
@[simp] theorem State.afterKeep_preq (s : State) : s.afterKeep.preq = s.preq :=
  by unfold State.afterKeep; split <;> simp
@[simp] theorem State.afterKeep_inq (s : State) : s.afterKeep.inq = s.inq := by unfold State.afterKeep; split <;> simp
@[simp] theorem State.afterKeep_outq (s : State) : s.afterKeep.outq = s.outq :=
  by unfold State.afterKeep; split <;> simp
@[simp] theorem State.afterKeep_shm (s : State) : s.afterKeep.shm = s.shm := by unfold State.afterKeep; split <;> simp
@[simp] theorem State.afterKeep_dev (s : State) : s.afterKeep.dev = s.dev := by unfold State.afterKeep; split <;> simp
@[simp] theorem State.afterKeep_desc (s : State) : s.afterKeep.desc = s.desc :=
  by unfold State.afterKeep; split <;> simp
@[simp] theorem State.afterKeep_table (s : State) : s.afterKeep.table = s.table :=
  by unfold State.afterKeep; split <;> simp
@[simp] theorem State.afterKeep_free (s : State) : s.afterKeep.free = s.free :=
  by unfold State.afterKeep; split <;> simp
@[simp] theorem State.afterKeep_log (s : State) : s.afterKeep.log = s.log := by unfold State.afterKeep; split <;> simp
@[simp] theorem State.afterKeep_dphase (s : State) : s.afterKeep.dphase = s.dphase :=
  by unfold State.afterKeep; split <;> simp
@[simp] theorem State.afterKeep_callers (s : State) : s.afterKeep.callers = s.callers :=
  by unfold State.afterKeep; split <;> simp
@[simp] theorem State.afterKeep_peers (s : State) : s.afterKeep.peers = s.peers :=
  by unfold State.afterKeep; split <;> simp
@[simp] theorem State.afterKeep_names (s : State) : s.afterKeep.names = s.names :=
  by unfold State.afterKeep; split <;> simp
@[simp] theorem State.afterKeep_refused (s : State) : s.afterKeep.refused = s.refused :=
  by unfold State.afterKeep; split <;> simp
@[simp] theorem State.afterKeep_cur (s : State) : s.afterKeep.cur = s.cur := by unfold State.afterKeep; split <;> simp
@[simp] theorem State.afterKeep_sched (s : State) : s.afterKeep.sched = s.sched :=
  by unfold State.afterKeep; split <;> simp
@[simp] theorem State.afterKeep_tick (s : State) : s.afterKeep.tick = s.tick :=
  by unfold State.afterKeep; split <;> simp

@[simp] theorem State.writeTx_cfg (s : State) (x : Word) : (s.writeTx x).cfg = s.cfg := rfl
@[simp] theorem State.writeTx_rx (s : State) (x : Word) : (s.writeTx x).rx = s.rx := rfl
@[simp] theorem State.writeTx_status (s : State) (x : Word) : (s.writeTx x).status = s.status := rfl
@[simp] theorem State.writeTx_mask (s : State) (x : Word) : (s.writeTx x).mask = s.mask := rfl
@[simp] theorem State.writeTx_lineEn (s : State) (x : Word) : (s.writeTx x).lineEn = s.lineEn := rfl
@[simp] theorem State.writeTx_pvTx (s : State) (x : Word) : (s.writeTx x).pvTx = s.pvTx := rfl
@[simp] theorem State.writeTx_preq (s : State) (x : Word) : (s.writeTx x).preq = s.preq := rfl
@[simp] theorem State.writeTx_inq (s : State) (x : Word) : (s.writeTx x).inq = s.inq := rfl
@[simp] theorem State.writeTx_shm (s : State) (x : Word) : (s.writeTx x).shm = s.shm := rfl
@[simp] theorem State.writeTx_dev (s : State) (x : Word) : (s.writeTx x).dev = s.dev := rfl
@[simp] theorem State.writeTx_desc (s : State) (x : Word) : (s.writeTx x).desc = s.desc := rfl
@[simp] theorem State.writeTx_table (s : State) (x : Word) : (s.writeTx x).table = s.table := rfl
@[simp] theorem State.writeTx_free (s : State) (x : Word) : (s.writeTx x).free = s.free := rfl
@[simp] theorem State.writeTx_log (s : State) (x : Word) : (s.writeTx x).log = s.log := rfl
@[simp] theorem State.writeTx_dphase (s : State) (x : Word) : (s.writeTx x).dphase = s.dphase := rfl
@[simp] theorem State.writeTx_callers (s : State) (x : Word) : (s.writeTx x).callers = s.callers := rfl
@[simp] theorem State.writeTx_peers (s : State) (x : Word) : (s.writeTx x).peers = s.peers := rfl
@[simp] theorem State.writeTx_names (s : State) (x : Word) : (s.writeTx x).names = s.names := rfl
@[simp] theorem State.writeTx_refused (s : State) (x : Word) : (s.writeTx x).refused = s.refused := rfl
@[simp] theorem State.writeTx_cur (s : State) (x : Word) : (s.writeTx x).cur = s.cur := rfl
@[simp] theorem State.writeTx_sched (s : State) (x : Word) : (s.writeTx x).sched = s.sched := rfl
@[simp] theorem State.writeTx_tick (s : State) (x : Word) : (s.writeTx x).tick = s.tick := rfl
@[simp] theorem State.writeTx_tape (s : State) (x : Word) : (s.writeTx x).tape = s.tape := rfl
@[simp] theorem State.writeTx_drawn (s : State) (x : Word) : (s.writeTx x).drawn = s.drawn := rfl

@[simp] theorem State.writeClr_cfg (s : State) (x : Word) : (s.writeClr x).cfg = s.cfg := rfl
@[simp] theorem State.writeClr_rx (s : State) (x : Word) : (s.writeClr x).rx = s.rx := rfl
@[simp] theorem State.writeClr_status (s : State) (x : Word) : (s.writeClr x).status = s.status := rfl
@[simp] theorem State.writeClr_mask (s : State) (x : Word) : (s.writeClr x).mask = s.mask := rfl
@[simp] theorem State.writeClr_lineEn (s : State) (x : Word) : (s.writeClr x).lineEn = s.lineEn := rfl
@[simp] theorem State.writeClr_pvTx (s : State) (x : Word) : (s.writeClr x).pvTx = s.pvTx := rfl
@[simp] theorem State.writeClr_preq (s : State) (x : Word) : (s.writeClr x).preq = s.preq := rfl
@[simp] theorem State.writeClr_inq (s : State) (x : Word) : (s.writeClr x).inq = s.inq := rfl
@[simp] theorem State.writeClr_shm (s : State) (x : Word) : (s.writeClr x).shm = s.shm := rfl
@[simp] theorem State.writeClr_dev (s : State) (x : Word) : (s.writeClr x).dev = s.dev := rfl
@[simp] theorem State.writeClr_desc (s : State) (x : Word) : (s.writeClr x).desc = s.desc := rfl
@[simp] theorem State.writeClr_table (s : State) (x : Word) : (s.writeClr x).table = s.table := rfl
@[simp] theorem State.writeClr_free (s : State) (x : Word) : (s.writeClr x).free = s.free := rfl
@[simp] theorem State.writeClr_log (s : State) (x : Word) : (s.writeClr x).log = s.log := rfl
@[simp] theorem State.writeClr_dphase (s : State) (x : Word) : (s.writeClr x).dphase = s.dphase := rfl
@[simp] theorem State.writeClr_callers (s : State) (x : Word) : (s.writeClr x).callers = s.callers := rfl
@[simp] theorem State.writeClr_peers (s : State) (x : Word) : (s.writeClr x).peers = s.peers := rfl
@[simp] theorem State.writeClr_names (s : State) (x : Word) : (s.writeClr x).names = s.names := rfl
@[simp] theorem State.writeClr_refused (s : State) (x : Word) : (s.writeClr x).refused = s.refused := rfl
@[simp] theorem State.writeClr_cur (s : State) (x : Word) : (s.writeClr x).cur = s.cur := rfl
@[simp] theorem State.writeClr_sched (s : State) (x : Word) : (s.writeClr x).sched = s.sched := rfl
@[simp] theorem State.writeClr_tick (s : State) (x : Word) : (s.writeClr x).tick = s.tick := rfl
@[simp] theorem State.writeClr_tape (s : State) (x : Word) : (s.writeClr x).tape = s.tape := rfl
@[simp] theorem State.writeClr_drawn (s : State) (x : Word) : (s.writeClr x).drawn = s.drawn := rfl

@[simp] theorem State.clearStatus_cfg (s : State) (x : Word) : (s.clearStatus x).cfg = s.cfg := rfl
@[simp] theorem State.clearStatus_tx (s : State) (x : Word) : (s.clearStatus x).tx = s.tx := rfl
@[simp] theorem State.clearStatus_mask (s : State) (x : Word) : (s.clearStatus x).mask = s.mask := rfl
@[simp] theorem State.clearStatus_lineEn (s : State) (x : Word) : (s.clearStatus x).lineEn = s.lineEn := rfl
@[simp] theorem State.clearStatus_pvTx (s : State) (x : Word) : (s.clearStatus x).pvTx = s.pvTx := rfl
@[simp] theorem State.clearStatus_preq (s : State) (x : Word) : (s.clearStatus x).preq = s.preq := rfl
@[simp] theorem State.clearStatus_inq (s : State) (x : Word) : (s.clearStatus x).inq = s.inq := rfl
@[simp] theorem State.clearStatus_shm (s : State) (x : Word) : (s.clearStatus x).shm = s.shm := rfl
@[simp] theorem State.clearStatus_dev (s : State) (x : Word) : (s.clearStatus x).dev = s.dev := rfl
@[simp] theorem State.clearStatus_desc (s : State) (x : Word) : (s.clearStatus x).desc = s.desc := rfl
@[simp] theorem State.clearStatus_table (s : State) (x : Word) : (s.clearStatus x).table = s.table := rfl
@[simp] theorem State.clearStatus_free (s : State) (x : Word) : (s.clearStatus x).free = s.free := rfl
@[simp] theorem State.clearStatus_log (s : State) (x : Word) : (s.clearStatus x).log = s.log := rfl
@[simp] theorem State.clearStatus_dphase (s : State) (x : Word) : (s.clearStatus x).dphase = s.dphase := rfl
@[simp] theorem State.clearStatus_callers (s : State) (x : Word) : (s.clearStatus x).callers = s.callers := rfl
@[simp] theorem State.clearStatus_peers (s : State) (x : Word) : (s.clearStatus x).peers = s.peers := rfl
@[simp] theorem State.clearStatus_names (s : State) (x : Word) : (s.clearStatus x).names = s.names := rfl
@[simp] theorem State.clearStatus_refused (s : State) (x : Word) : (s.clearStatus x).refused = s.refused := rfl
@[simp] theorem State.clearStatus_cur (s : State) (x : Word) : (s.clearStatus x).cur = s.cur := rfl
@[simp] theorem State.clearStatus_sched (s : State) (x : Word) : (s.clearStatus x).sched = s.sched := rfl
@[simp] theorem State.clearStatus_tick (s : State) (x : Word) : (s.clearStatus x).tick = s.tick := rfl
@[simp] theorem State.clearStatus_tape (s : State) (x : Word) : (s.clearStatus x).tape = s.tape := rfl
@[simp] theorem State.clearStatus_drawn (s : State) (x : Word) : (s.clearStatus x).drawn = s.drawn := rfl

@[simp] theorem State.writeStatus_cfg (s : State) (x : Word) : (s.writeStatus x).cfg = s.cfg :=
  by simp [State.writeStatus]
@[simp] theorem State.writeStatus_tx (s : State) (x : Word) : (s.writeStatus x).tx = s.tx :=
  by simp [State.writeStatus]
@[simp] theorem State.writeStatus_mask (s : State) (x : Word) : (s.writeStatus x).mask = s.mask :=
  by simp [State.writeStatus]
@[simp] theorem State.writeStatus_lineEn (s : State) (x : Word) : (s.writeStatus x).lineEn = s.lineEn :=
  by simp [State.writeStatus]
@[simp] theorem State.writeStatus_pvTx (s : State) (x : Word) : (s.writeStatus x).pvTx = s.pvTx :=
  by simp [State.writeStatus]
@[simp] theorem State.writeStatus_preq (s : State) (x : Word) : (s.writeStatus x).preq = s.preq :=
  by simp [State.writeStatus]
@[simp] theorem State.writeStatus_inq (s : State) (x : Word) : (s.writeStatus x).inq = s.inq :=
  by simp [State.writeStatus]
@[simp] theorem State.writeStatus_shm (s : State) (x : Word) : (s.writeStatus x).shm = s.shm :=
  by simp [State.writeStatus]
@[simp] theorem State.writeStatus_dev (s : State) (x : Word) : (s.writeStatus x).dev = s.dev :=
  by simp [State.writeStatus]
@[simp] theorem State.writeStatus_desc (s : State) (x : Word) : (s.writeStatus x).desc = s.desc :=
  by simp [State.writeStatus]
@[simp] theorem State.writeStatus_table (s : State) (x : Word) : (s.writeStatus x).table = s.table :=
  by simp [State.writeStatus]
@[simp] theorem State.writeStatus_free (s : State) (x : Word) : (s.writeStatus x).free = s.free :=
  by simp [State.writeStatus]
@[simp] theorem State.writeStatus_log (s : State) (x : Word) : (s.writeStatus x).log = s.log :=
  by simp [State.writeStatus]
@[simp] theorem State.writeStatus_dphase (s : State) (x : Word) : (s.writeStatus x).dphase = s.dphase :=
  by simp [State.writeStatus]
@[simp] theorem State.writeStatus_callers (s : State) (x : Word) : (s.writeStatus x).callers = s.callers :=
  by simp [State.writeStatus]
@[simp] theorem State.writeStatus_peers (s : State) (x : Word) : (s.writeStatus x).peers = s.peers :=
  by simp [State.writeStatus]
@[simp] theorem State.writeStatus_names (s : State) (x : Word) : (s.writeStatus x).names = s.names :=
  by simp [State.writeStatus]
@[simp] theorem State.writeStatus_refused (s : State) (x : Word) : (s.writeStatus x).refused = s.refused :=
  by simp [State.writeStatus]
@[simp] theorem State.writeStatus_cur (s : State) (x : Word) : (s.writeStatus x).cur = s.cur :=
  by simp [State.writeStatus]
@[simp] theorem State.writeStatus_sched (s : State) (x : Word) : (s.writeStatus x).sched = s.sched :=
  by simp [State.writeStatus]
@[simp] theorem State.writeStatus_tick (s : State) (x : Word) : (s.writeStatus x).tick = s.tick :=
  by simp [State.writeStatus]

@[simp] theorem State.mmioWrite_cfg (s : State) (r : Reg) (x : Word) : (s.mmioWrite r x).cfg = s.cfg :=
  by cases r <;> simp [State.mmioWrite]
@[simp] theorem State.mmioWrite_lineEn (s : State) (r : Reg) (x : Word) : (s.mmioWrite r x).lineEn = s.lineEn :=
  by cases r <;> simp [State.mmioWrite]
@[simp] theorem State.mmioWrite_pvTx (s : State) (r : Reg) (x : Word) : (s.mmioWrite r x).pvTx = s.pvTx :=
  by cases r <;> simp [State.mmioWrite]
@[simp] theorem State.mmioWrite_preq (s : State) (r : Reg) (x : Word) : (s.mmioWrite r x).preq = s.preq :=
  by cases r <;> simp [State.mmioWrite]
@[simp] theorem State.mmioWrite_inq (s : State) (r : Reg) (x : Word) : (s.mmioWrite r x).inq = s.inq :=
  by cases r <;> simp [State.mmioWrite]
@[simp] theorem State.mmioWrite_shm (s : State) (r : Reg) (x : Word) : (s.mmioWrite r x).shm = s.shm :=
  by cases r <;> simp [State.mmioWrite]
@[simp] theorem State.mmioWrite_dev (s : State) (r : Reg) (x : Word) : (s.mmioWrite r x).dev = s.dev :=
  by cases r <;> simp [State.mmioWrite]
@[simp] theorem State.mmioWrite_desc (s : State) (r : Reg) (x : Word) : (s.mmioWrite r x).desc = s.desc :=
  by cases r <;> simp [State.mmioWrite]
@[simp] theorem State.mmioWrite_table (s : State) (r : Reg) (x : Word) : (s.mmioWrite r x).table = s.table :=
  by cases r <;> simp [State.mmioWrite]
@[simp] theorem State.mmioWrite_free (s : State) (r : Reg) (x : Word) : (s.mmioWrite r x).free = s.free :=
  by cases r <;> simp [State.mmioWrite]
@[simp] theorem State.mmioWrite_log (s : State) (r : Reg) (x : Word) : (s.mmioWrite r x).log = s.log :=
  by cases r <;> simp [State.mmioWrite]
@[simp] theorem State.mmioWrite_dphase (s : State) (r : Reg) (x : Word) : (s.mmioWrite r x).dphase = s.dphase :=
  by cases r <;> simp [State.mmioWrite]
@[simp] theorem State.mmioWrite_callers (s : State) (r : Reg) (x : Word) : (s.mmioWrite r x).callers = s.callers :=
  by cases r <;> simp [State.mmioWrite]
@[simp] theorem State.mmioWrite_peers (s : State) (r : Reg) (x : Word) : (s.mmioWrite r x).peers = s.peers :=
  by cases r <;> simp [State.mmioWrite]
@[simp] theorem State.mmioWrite_names (s : State) (r : Reg) (x : Word) : (s.mmioWrite r x).names = s.names :=
  by cases r <;> simp [State.mmioWrite]
@[simp] theorem State.mmioWrite_refused (s : State) (r : Reg) (x : Word) : (s.mmioWrite r x).refused = s.refused :=
  by cases r <;> simp [State.mmioWrite]
@[simp] theorem State.mmioWrite_cur (s : State) (r : Reg) (x : Word) : (s.mmioWrite r x).cur = s.cur :=
  by cases r <;> simp [State.mmioWrite]
@[simp] theorem State.mmioWrite_sched (s : State) (r : Reg) (x : Word) : (s.mmioWrite r x).sched = s.sched :=
  by cases r <;> simp [State.mmioWrite]
@[simp] theorem State.mmioWrite_tick (s : State) (r : Reg) (x : Word) : (s.mmioWrite r x).tick = s.tick :=
  by cases r <;> simp [State.mmioWrite]

@[simp] theorem State.enqueueIn_cfg (s : State) (p : Port) (c : Chan) (e : InEvent) : (s.enqueueIn p c e).cfg = s.cfg :=
  rfl
@[simp] theorem State.enqueueIn_tx (s : State) (p : Port) (c : Chan) (e : InEvent) : (s.enqueueIn p c e).tx = s.tx :=
  rfl
@[simp] theorem State.enqueueIn_rx (s : State) (p : Port) (c : Chan) (e : InEvent) : (s.enqueueIn p c e).rx = s.rx :=
  rfl
@[simp] theorem State.enqueueIn_status (s : State) (p : Port) (c : Chan) (e : InEvent) : (s.enqueueIn p c e).status = s.status :=
  rfl
@[simp] theorem State.enqueueIn_mask (s : State) (p : Port) (c : Chan) (e : InEvent) : (s.enqueueIn p c e).mask = s.mask :=
  rfl
@[simp] theorem State.enqueueIn_lineEn (s : State) (p : Port) (c : Chan) (e : InEvent) : (s.enqueueIn p c e).lineEn = s.lineEn :=
  rfl
@[simp] theorem State.enqueueIn_pvTx (s : State) (p : Port) (c : Chan) (e : InEvent) : (s.enqueueIn p c e).pvTx = s.pvTx :=
  rfl
@[simp] theorem State.enqueueIn_preq (s : State) (p : Port) (c : Chan) (e : InEvent) : (s.enqueueIn p c e).preq = s.preq :=
  rfl
@[simp] theorem State.enqueueIn_outq (s : State) (p : Port) (c : Chan) (e : InEvent) : (s.enqueueIn p c e).outq = s.outq :=
  rfl
@[simp] theorem State.enqueueIn_shm (s : State) (p : Port) (c : Chan) (e : InEvent) : (s.enqueueIn p c e).shm = s.shm :=
  rfl
@[simp] theorem State.enqueueIn_dev (s : State) (p : Port) (c : Chan) (e : InEvent) : (s.enqueueIn p c e).dev = s.dev :=
  rfl
@[simp] theorem State.enqueueIn_desc (s : State) (p : Port) (c : Chan) (e : InEvent) : (s.enqueueIn p c e).desc = s.desc :=
  rfl
@[simp] theorem State.enqueueIn_table (s : State) (p : Port) (c : Chan) (e : InEvent) : (s.enqueueIn p c e).table = s.table :=
  rfl
@[simp] theorem State.enqueueIn_free (s : State) (p : Port) (c : Chan) (e : InEvent) : (s.enqueueIn p c e).free = s.free :=
  rfl
@[simp] theorem State.enqueueIn_log (s : State) (p : Port) (c : Chan) (e : InEvent) : (s.enqueueIn p c e).log = s.log :=
  rfl
@[simp] theorem State.enqueueIn_dphase (s : State) (p : Port) (c : Chan) (e : InEvent) : (s.enqueueIn p c e).dphase = s.dphase :=
  rfl
@[simp] theorem State.enqueueIn_callers (s : State) (p : Port) (c : Chan) (e : InEvent) : (s.enqueueIn p c e).callers = s.callers :=
  rfl
@[simp] theorem State.enqueueIn_peers (s : State) (p : Port) (c : Chan) (e : InEvent) : (s.enqueueIn p c e).peers = s.peers :=
  rfl
@[simp] theorem State.enqueueIn_names (s : State) (p : Port) (c : Chan) (e : InEvent) : (s.enqueueIn p c e).names = s.names :=
  rfl
@[simp] theorem State.enqueueIn_refused (s : State) (p : Port) (c : Chan) (e : InEvent) : (s.enqueueIn p c e).refused = s.refused :=
  rfl
@[simp] theorem State.enqueueIn_cur (s : State) (p : Port) (c : Chan) (e : InEvent) : (s.enqueueIn p c e).cur = s.cur :=
  rfl
@[simp] theorem State.enqueueIn_sched (s : State) (p : Port) (c : Chan) (e : InEvent) : (s.enqueueIn p c e).sched = s.sched :=
  rfl
@[simp] theorem State.enqueueIn_tick (s : State) (p : Port) (c : Chan) (e : InEvent) : (s.enqueueIn p c e).tick = s.tick :=
  rfl
@[simp] theorem State.enqueueIn_tape (s : State) (p : Port) (c : Chan) (e : InEvent) : (s.enqueueIn p c e).tape = s.tape :=
  rfl
@[simp] theorem State.enqueueIn_drawn (s : State) (p : Port) (c : Chan) (e : InEvent) : (s.enqueueIn p c e).drawn = s.drawn :=
  rfl

@[simp] theorem State.deliverIn_cfg (s : State) (p : Port) (c : Chan) (e : InEvent) : (s.deliverIn p c e).cfg = s.cfg :=
  by cases e <;> first | rfl | (simp only [State.deliverIn]; split <;> rfl)
@[simp] theorem State.deliverIn_mask (s : State) (p : Port) (c : Chan) (e : InEvent) : (s.deliverIn p c e).mask = s.mask :=
  by cases e <;> first | rfl | (simp only [State.deliverIn]; split <;> rfl)
@[simp] theorem State.deliverIn_lineEn (s : State) (p : Port) (c : Chan) (e : InEvent) : (s.deliverIn p c e).lineEn = s.lineEn :=
  by cases e <;> first | rfl | (simp only [State.deliverIn]; split <;> rfl)
@[simp] theorem State.deliverIn_pvTx (s : State) (p : Port) (c : Chan) (e : InEvent) : (s.deliverIn p c e).pvTx = s.pvTx :=
  by cases e <;> first | rfl | (simp only [State.deliverIn]; split <;> rfl)
@[simp] theorem State.deliverIn_preq (s : State) (p : Port) (c : Chan) (e : InEvent) : (s.deliverIn p c e).preq = s.preq :=
  by cases e <;> first | rfl | (simp only [State.deliverIn]; split <;> rfl)
@[simp] theorem State.deliverIn_inq (s : State) (p : Port) (c : Chan) (e : InEvent) : (s.deliverIn p c e).inq = s.inq :=
  by cases e <;> first | rfl | (simp only [State.deliverIn]; split <;> rfl)
@[simp] theorem State.deliverIn_outq (s : State) (p : Port) (c : Chan) (e : InEvent) : (s.deliverIn p c e).outq = s.outq :=
  by cases e <;> first | rfl | (simp only [State.deliverIn]; split <;> rfl)
@[simp] theorem State.deliverIn_shm (s : State) (p : Port) (c : Chan) (e : InEvent) : (s.deliverIn p c e).shm = s.shm :=
  by cases e <;> first | rfl | (simp only [State.deliverIn]; split <;> rfl)
@[simp] theorem State.deliverIn_dev (s : State) (p : Port) (c : Chan) (e : InEvent) : (s.deliverIn p c e).dev = s.dev :=
  by cases e <;> first | rfl | (simp only [State.deliverIn]; split <;> rfl)
@[simp] theorem State.deliverIn_desc (s : State) (p : Port) (c : Chan) (e : InEvent) : (s.deliverIn p c e).desc = s.desc :=
  by cases e <;> first | rfl | (simp only [State.deliverIn]; split <;> rfl)
@[simp] theorem State.deliverIn_table (s : State) (p : Port) (c : Chan) (e : InEvent) : (s.deliverIn p c e).table = s.table :=
  by cases e <;> first | rfl | (simp only [State.deliverIn]; split <;> rfl)
@[simp] theorem State.deliverIn_free (s : State) (p : Port) (c : Chan) (e : InEvent) : (s.deliverIn p c e).free = s.free :=
  by cases e <;> first | rfl | (simp only [State.deliverIn]; split <;> rfl)
@[simp] theorem State.deliverIn_log (s : State) (p : Port) (c : Chan) (e : InEvent) : (s.deliverIn p c e).log = s.log :=
  by cases e <;> first | rfl | (simp only [State.deliverIn]; split <;> rfl)
@[simp] theorem State.deliverIn_dphase (s : State) (p : Port) (c : Chan) (e : InEvent) : (s.deliverIn p c e).dphase = s.dphase :=
  by cases e <;> first | rfl | (simp only [State.deliverIn]; split <;> rfl)
@[simp] theorem State.deliverIn_callers (s : State) (p : Port) (c : Chan) (e : InEvent) : (s.deliverIn p c e).callers = s.callers :=
  by cases e <;> first | rfl | (simp only [State.deliverIn]; split <;> rfl)
@[simp] theorem State.deliverIn_peers (s : State) (p : Port) (c : Chan) (e : InEvent) : (s.deliverIn p c e).peers = s.peers :=
  by cases e <;> first | rfl | (simp only [State.deliverIn]; split <;> rfl)
@[simp] theorem State.deliverIn_names (s : State) (p : Port) (c : Chan) (e : InEvent) : (s.deliverIn p c e).names = s.names :=
  by cases e <;> first | rfl | (simp only [State.deliverIn]; split <;> rfl)
@[simp] theorem State.deliverIn_refused (s : State) (p : Port) (c : Chan) (e : InEvent) : (s.deliverIn p c e).refused = s.refused :=
  by cases e <;> first | rfl | (simp only [State.deliverIn]; split <;> rfl)
@[simp] theorem State.deliverIn_cur (s : State) (p : Port) (c : Chan) (e : InEvent) : (s.deliverIn p c e).cur = s.cur :=
  by cases e <;> first | rfl | (simp only [State.deliverIn]; split <;> rfl)
@[simp] theorem State.deliverIn_sched (s : State) (p : Port) (c : Chan) (e : InEvent) : (s.deliverIn p c e).sched = s.sched :=
  by cases e <;> first | rfl | (simp only [State.deliverIn]; split <;> rfl)
@[simp] theorem State.deliverIn_tick (s : State) (p : Port) (c : Chan) (e : InEvent) : (s.deliverIn p c e).tick = s.tick :=
  by cases e <;> first | rfl | (simp only [State.deliverIn]; split <;> rfl)
@[simp] theorem State.deliverIn_tape (s : State) (p : Port) (c : Chan) (e : InEvent) : (s.deliverIn p c e).tape = s.tape :=
  by cases e <;> first | rfl | (simp only [State.deliverIn]; split <;> rfl)
@[simp] theorem State.deliverIn_drawn (s : State) (p : Port) (c : Chan) (e : InEvent) : (s.deliverIn p c e).drawn = s.drawn :=
  by cases e <;> first | rfl | (simp only [State.deliverIn]; split <;> rfl)

@[simp] theorem State.deliverOut_cfg (s : State) (p : Port) (c : Chan) (e : OutEvent) : (s.deliverOut p c e).cfg = s.cfg :=
  by cases e <;> rfl
@[simp] theorem State.deliverOut_tx (s : State) (p : Port) (c : Chan) (e : OutEvent) : (s.deliverOut p c e).tx = s.tx :=
  by cases e <;> rfl
@[simp] theorem State.deliverOut_rx (s : State) (p : Port) (c : Chan) (e : OutEvent) : (s.deliverOut p c e).rx = s.rx :=
  by cases e <;> rfl
@[simp] theorem State.deliverOut_status (s : State) (p : Port) (c : Chan) (e : OutEvent) : (s.deliverOut p c e).status = s.status :=
  by cases e <;> rfl
@[simp] theorem State.deliverOut_mask (s : State) (p : Port) (c : Chan) (e : OutEvent) : (s.deliverOut p c e).mask = s.mask :=
  by cases e <;> rfl
@[simp] theorem State.deliverOut_lineEn (s : State) (p : Port) (c : Chan) (e : OutEvent) : (s.deliverOut p c e).lineEn = s.lineEn :=
  by cases e <;> rfl
@[simp] theorem State.deliverOut_inq (s : State) (p : Port) (c : Chan) (e : OutEvent) : (s.deliverOut p c e).inq = s.inq :=
  by cases e <;> rfl
@[simp] theorem State.deliverOut_outq (s : State) (p : Port) (c : Chan) (e : OutEvent) : (s.deliverOut p c e).outq = s.outq :=
  by cases e <;> rfl
@[simp] theorem State.deliverOut_shm (s : State) (p : Port) (c : Chan) (e : OutEvent) : (s.deliverOut p c e).shm = s.shm :=
  by cases e <;> rfl
@[simp] theorem State.deliverOut_dev (s : State) (p : Port) (c : Chan) (e : OutEvent) : (s.deliverOut p c e).dev = s.dev :=
  by cases e <;> rfl
@[simp] theorem State.deliverOut_desc (s : State) (p : Port) (c : Chan) (e : OutEvent) : (s.deliverOut p c e).desc = s.desc :=
  by cases e <;> rfl
@[simp] theorem State.deliverOut_table (s : State) (p : Port) (c : Chan) (e : OutEvent) : (s.deliverOut p c e).table = s.table :=
  by cases e <;> rfl
@[simp] theorem State.deliverOut_free (s : State) (p : Port) (c : Chan) (e : OutEvent) : (s.deliverOut p c e).free = s.free :=
  by cases e <;> rfl
@[simp] theorem State.deliverOut_log (s : State) (p : Port) (c : Chan) (e : OutEvent) : (s.deliverOut p c e).log = s.log :=
  by cases e <;> rfl
@[simp] theorem State.deliverOut_dphase (s : State) (p : Port) (c : Chan) (e : OutEvent) : (s.deliverOut p c e).dphase = s.dphase :=
  by cases e <;> rfl
@[simp] theorem State.deliverOut_callers (s : State) (p : Port) (c : Chan) (e : OutEvent) : (s.deliverOut p c e).callers = s.callers :=
  by cases e <;> rfl
@[simp] theorem State.deliverOut_peers (s : State) (p : Port) (c : Chan) (e : OutEvent) : (s.deliverOut p c e).peers = s.peers :=
  by cases e <;> rfl
@[simp] theorem State.deliverOut_names (s : State) (p : Port) (c : Chan) (e : OutEvent) : (s.deliverOut p c e).names = s.names :=
  by cases e <;> rfl
@[simp] theorem State.deliverOut_refused (s : State) (p : Port) (c : Chan) (e : OutEvent) : (s.deliverOut p c e).refused = s.refused :=
  by cases e <;> rfl
@[simp] theorem State.deliverOut_cur (s : State) (p : Port) (c : Chan) (e : OutEvent) : (s.deliverOut p c e).cur = s.cur :=
  by cases e <;> rfl
@[simp] theorem State.deliverOut_sched (s : State) (p : Port) (c : Chan) (e : OutEvent) : (s.deliverOut p c e).sched = s.sched :=
  by cases e <;> rfl
@[simp] theorem State.deliverOut_tick (s : State) (p : Port) (c : Chan) (e : OutEvent) : (s.deliverOut p c e).tick = s.tick :=
  by cases e <;> rfl
@[simp] theorem State.deliverOut_tape (s : State) (p : Port) (c : Chan) (e : OutEvent) : (s.deliverOut p c e).tape = s.tape :=
  by cases e <;> rfl
@[simp] theorem State.deliverOut_drawn (s : State) (p : Port) (c : Chan) (e : OutEvent) : (s.deliverOut p c e).drawn = s.drawn :=
  by cases e <;> rfl

@[simp] theorem State.enterDispatch_cfg (s : State) : s.enterDispatch.cfg = s.cfg := rfl
@[simp] theorem State.enterDispatch_tx (s : State) : s.enterDispatch.tx = s.tx := rfl
@[simp] theorem State.enterDispatch_rx (s : State) : s.enterDispatch.rx = s.rx := rfl
@[simp] theorem State.enterDispatch_status (s : State) : s.enterDispatch.status = s.status := rfl
@[simp] theorem State.enterDispatch_mask (s : State) : s.enterDispatch.mask = s.mask := rfl
@[simp] theorem State.enterDispatch_lineEn (s : State) : s.enterDispatch.lineEn = s.lineEn := rfl
@[simp] theorem State.enterDispatch_pvTx (s : State) : s.enterDispatch.pvTx = s.pvTx := rfl
@[simp] theorem State.enterDispatch_preq (s : State) : s.enterDispatch.preq = s.preq := rfl
@[simp] theorem State.enterDispatch_inq (s : State) : s.enterDispatch.inq = s.inq := rfl
@[simp] theorem State.enterDispatch_outq (s : State) : s.enterDispatch.outq = s.outq := rfl
@[simp] theorem State.enterDispatch_shm (s : State) : s.enterDispatch.shm = s.shm := rfl
@[simp] theorem State.enterDispatch_dev (s : State) : s.enterDispatch.dev = s.dev := rfl
@[simp] theorem State.enterDispatch_desc (s : State) : s.enterDispatch.desc = s.desc := rfl
@[simp] theorem State.enterDispatch_table (s : State) : s.enterDispatch.table = s.table := rfl
@[simp] theorem State.enterDispatch_free (s : State) : s.enterDispatch.free = s.free := rfl
@[simp] theorem State.enterDispatch_log (s : State) : s.enterDispatch.log = s.log := rfl
@[simp] theorem State.enterDispatch_callers (s : State) : s.enterDispatch.callers = s.callers := rfl
@[simp] theorem State.enterDispatch_peers (s : State) : s.enterDispatch.peers = s.peers := rfl
@[simp] theorem State.enterDispatch_names (s : State) : s.enterDispatch.names = s.names := rfl
@[simp] theorem State.enterDispatch_refused (s : State) : s.enterDispatch.refused = s.refused := rfl
@[simp] theorem State.enterDispatch_cur (s : State) : s.enterDispatch.cur = s.cur := rfl
@[simp] theorem State.enterDispatch_sched (s : State) : s.enterDispatch.sched = s.sched := rfl
@[simp] theorem State.enterDispatch_tick (s : State) : s.enterDispatch.tick = s.tick := rfl
@[simp] theorem State.enterDispatch_tape (s : State) : s.enterDispatch.tape = s.tape := rfl
@[simp] theorem State.enterDispatch_drawn (s : State) : s.enterDispatch.drawn = s.drawn := rfl

@[simp] theorem State.leaveDispatch_cfg (s : State) : s.leaveDispatch.cfg = s.cfg := rfl
@[simp] theorem State.leaveDispatch_tx (s : State) : s.leaveDispatch.tx = s.tx := rfl
@[simp] theorem State.leaveDispatch_rx (s : State) : s.leaveDispatch.rx = s.rx := rfl
@[simp] theorem State.leaveDispatch_status (s : State) : s.leaveDispatch.status = s.status := rfl
@[simp] theorem State.leaveDispatch_mask (s : State) : s.leaveDispatch.mask = s.mask := rfl
@[simp] theorem State.leaveDispatch_lineEn (s : State) : s.leaveDispatch.lineEn = s.lineEn := rfl
@[simp] theorem State.leaveDispatch_pvTx (s : State) : s.leaveDispatch.pvTx = s.pvTx := rfl
@[simp] theorem State.leaveDispatch_preq (s : State) : s.leaveDispatch.preq = s.preq := rfl
@[simp] theorem State.leaveDispatch_inq (s : State) : s.leaveDispatch.inq = s.inq := rfl
@[simp] theorem State.leaveDispatch_outq (s : State) : s.leaveDispatch.outq = s.outq := rfl
@[simp] theorem State.leaveDispatch_shm (s : State) : s.leaveDispatch.shm = s.shm := rfl
@[simp] theorem State.leaveDispatch_dev (s : State) : s.leaveDispatch.dev = s.dev := rfl
@[simp] theorem State.leaveDispatch_desc (s : State) : s.leaveDispatch.desc = s.desc := rfl
@[simp] theorem State.leaveDispatch_table (s : State) : s.leaveDispatch.table = s.table := rfl
@[simp] theorem State.leaveDispatch_free (s : State) : s.leaveDispatch.free = s.free := rfl
@[simp] theorem State.leaveDispatch_log (s : State) : s.leaveDispatch.log = s.log := rfl
@[simp] theorem State.leaveDispatch_callers (s : State) : s.leaveDispatch.callers = s.callers := rfl
@[simp] theorem State.leaveDispatch_peers (s : State) : s.leaveDispatch.peers = s.peers := rfl
@[simp] theorem State.leaveDispatch_names (s : State) : s.leaveDispatch.names = s.names := rfl
@[simp] theorem State.leaveDispatch_refused (s : State) : s.leaveDispatch.refused = s.refused := rfl
@[simp] theorem State.leaveDispatch_cur (s : State) : s.leaveDispatch.cur = s.cur := rfl
@[simp] theorem State.leaveDispatch_sched (s : State) : s.leaveDispatch.sched = s.sched := rfl
@[simp] theorem State.leaveDispatch_tick (s : State) : s.leaveDispatch.tick = s.tick := rfl
@[simp] theorem State.leaveDispatch_tape (s : State) : s.leaveDispatch.tape = s.tape := rfl
@[simp] theorem State.leaveDispatch_drawn (s : State) : s.leaveDispatch.drawn = s.drawn := rfl

@[simp] theorem State.allocate_cfg (s : State) (d : DescName) (extra : Nat) : (s.allocate d extra).cfg = s.cfg :=
  by simp [State.allocate]
@[simp] theorem State.allocate_tx (s : State) (d : DescName) (extra : Nat) : (s.allocate d extra).tx = s.tx :=
  by simp [State.allocate]
@[simp] theorem State.allocate_rx (s : State) (d : DescName) (extra : Nat) : (s.allocate d extra).rx = s.rx :=
  by simp [State.allocate]
@[simp] theorem State.allocate_status (s : State) (d : DescName) (extra : Nat) : (s.allocate d extra).status = s.status :=
  by simp [State.allocate]
@[simp] theorem State.allocate_mask (s : State) (d : DescName) (extra : Nat) : (s.allocate d extra).mask = s.mask :=
  by simp [State.allocate]
@[simp] theorem State.allocate_lineEn (s : State) (d : DescName) (extra : Nat) : (s.allocate d extra).lineEn = s.lineEn :=
  by simp [State.allocate]
@[simp] theorem State.allocate_pvTx (s : State) (d : DescName) (extra : Nat) : (s.allocate d extra).pvTx = s.pvTx :=
  by simp [State.allocate]
@[simp] theorem State.allocate_preq (s : State) (d : DescName) (extra : Nat) : (s.allocate d extra).preq = s.preq :=
  by simp [State.allocate]
@[simp] theorem State.allocate_inq (s : State) (d : DescName) (extra : Nat) : (s.allocate d extra).inq = s.inq :=
  by simp [State.allocate]
@[simp] theorem State.allocate_outq (s : State) (d : DescName) (extra : Nat) : (s.allocate d extra).outq = s.outq :=
  by simp [State.allocate]
@[simp] theorem State.allocate_shm (s : State) (d : DescName) (extra : Nat) : (s.allocate d extra).shm = s.shm :=
  by simp [State.allocate]
@[simp] theorem State.allocate_dev (s : State) (d : DescName) (extra : Nat) : (s.allocate d extra).dev = s.dev :=
  by simp [State.allocate]
@[simp] theorem State.allocate_table (s : State) (d : DescName) (extra : Nat) : (s.allocate d extra).table = s.table :=
  by simp [State.allocate]
@[simp] theorem State.allocate_free (s : State) (d : DescName) (extra : Nat) : (s.allocate d extra).free = s.free :=
  by simp [State.allocate]
@[simp] theorem State.allocate_log (s : State) (d : DescName) (extra : Nat) : (s.allocate d extra).log = s.log :=
  by simp [State.allocate]
@[simp] theorem State.allocate_dphase (s : State) (d : DescName) (extra : Nat) : (s.allocate d extra).dphase = s.dphase :=
  by simp [State.allocate]
@[simp] theorem State.allocate_callers (s : State) (d : DescName) (extra : Nat) : (s.allocate d extra).callers = s.callers :=
  by simp [State.allocate]
@[simp] theorem State.allocate_peers (s : State) (d : DescName) (extra : Nat) : (s.allocate d extra).peers = s.peers :=
  by simp [State.allocate]
@[simp] theorem State.allocate_refused (s : State) (d : DescName) (extra : Nat) : (s.allocate d extra).refused = s.refused :=
  by simp [State.allocate]
@[simp] theorem State.allocate_cur (s : State) (d : DescName) (extra : Nat) : (s.allocate d extra).cur = s.cur :=
  by simp [State.allocate]
@[simp] theorem State.allocate_sched (s : State) (d : DescName) (extra : Nat) : (s.allocate d extra).sched = s.sched :=
  by simp [State.allocate]
@[simp] theorem State.allocate_tick (s : State) (d : DescName) (extra : Nat) : (s.allocate d extra).tick = s.tick :=
  by simp [State.allocate]

@[simp] theorem State.setDescId_cfg (s : State) (h : Handle) (n : Nat) : (s.setDescId h n).cfg = s.cfg := rfl
@[simp] theorem State.setDescId_tx (s : State) (h : Handle) (n : Nat) : (s.setDescId h n).tx = s.tx := rfl
@[simp] theorem State.setDescId_rx (s : State) (h : Handle) (n : Nat) : (s.setDescId h n).rx = s.rx := rfl
@[simp] theorem State.setDescId_status (s : State) (h : Handle) (n : Nat) : (s.setDescId h n).status = s.status := rfl
@[simp] theorem State.setDescId_mask (s : State) (h : Handle) (n : Nat) : (s.setDescId h n).mask = s.mask := rfl
@[simp] theorem State.setDescId_lineEn (s : State) (h : Handle) (n : Nat) : (s.setDescId h n).lineEn = s.lineEn := rfl
@[simp] theorem State.setDescId_pvTx (s : State) (h : Handle) (n : Nat) : (s.setDescId h n).pvTx = s.pvTx := rfl
@[simp] theorem State.setDescId_preq (s : State) (h : Handle) (n : Nat) : (s.setDescId h n).preq = s.preq := rfl
@[simp] theorem State.setDescId_inq (s : State) (h : Handle) (n : Nat) : (s.setDescId h n).inq = s.inq := rfl
@[simp] theorem State.setDescId_outq (s : State) (h : Handle) (n : Nat) : (s.setDescId h n).outq = s.outq := rfl
@[simp] theorem State.setDescId_shm (s : State) (h : Handle) (n : Nat) : (s.setDescId h n).shm = s.shm := rfl
@[simp] theorem State.setDescId_dev (s : State) (h : Handle) (n : Nat) : (s.setDescId h n).dev = s.dev := rfl
@[simp] theorem State.setDescId_table (s : State) (h : Handle) (n : Nat) : (s.setDescId h n).table = s.table := rfl
@[simp] theorem State.setDescId_free (s : State) (h : Handle) (n : Nat) : (s.setDescId h n).free = s.free := rfl
@[simp] theorem State.setDescId_log (s : State) (h : Handle) (n : Nat) : (s.setDescId h n).log = s.log := rfl
@[simp] theorem State.setDescId_dphase (s : State) (h : Handle) (n : Nat) : (s.setDescId h n).dphase = s.dphase := rfl
@[simp] theorem State.setDescId_callers (s : State) (h : Handle) (n : Nat) : (s.setDescId h n).callers = s.callers :=
  rfl
@[simp] theorem State.setDescId_peers (s : State) (h : Handle) (n : Nat) : (s.setDescId h n).peers = s.peers := rfl
@[simp] theorem State.setDescId_names (s : State) (h : Handle) (n : Nat) : (s.setDescId h n).names = s.names := rfl
@[simp] theorem State.setDescId_refused (s : State) (h : Handle) (n : Nat) : (s.setDescId h n).refused = s.refused :=
  rfl
@[simp] theorem State.setDescId_cur (s : State) (h : Handle) (n : Nat) : (s.setDescId h n).cur = s.cur := rfl
@[simp] theorem State.setDescId_sched (s : State) (h : Handle) (n : Nat) : (s.setDescId h n).sched = s.sched := rfl
@[simp] theorem State.setDescId_tick (s : State) (h : Handle) (n : Nat) : (s.setDescId h n).tick = s.tick := rfl
@[simp] theorem State.setDescId_tape (s : State) (h : Handle) (n : Nat) : (s.setDescId h n).tape = s.tape := rfl
@[simp] theorem State.setDescId_drawn (s : State) (h : Handle) (n : Nat) : (s.setDescId h n).drawn = s.drawn := rfl

@[simp] theorem State.unmask_cfg (s : State) (p : Port) (c : Chan) (hs : Bool) : (s.unmask p c hs).cfg = s.cfg := rfl
@[simp] theorem State.unmask_tx (s : State) (p : Port) (c : Chan) (hs : Bool) : (s.unmask p c hs).tx = s.tx := rfl
@[simp] theorem State.unmask_rx (s : State) (p : Port) (c : Chan) (hs : Bool) : (s.unmask p c hs).rx = s.rx := rfl
@[simp] theorem State.unmask_status (s : State) (p : Port) (c : Chan) (hs : Bool) : (s.unmask p c hs).status = s.status :=
  rfl
@[simp] theorem State.unmask_lineEn (s : State) (p : Port) (c : Chan) (hs : Bool) : (s.unmask p c hs).lineEn = s.lineEn :=
  rfl
@[simp] theorem State.unmask_pvTx (s : State) (p : Port) (c : Chan) (hs : Bool) : (s.unmask p c hs).pvTx = s.pvTx :=
  rfl
@[simp] theorem State.unmask_preq (s : State) (p : Port) (c : Chan) (hs : Bool) : (s.unmask p c hs).preq = s.preq :=
  rfl
@[simp] theorem State.unmask_inq (s : State) (p : Port) (c : Chan) (hs : Bool) : (s.unmask p c hs).inq = s.inq := rfl
@[simp] theorem State.unmask_outq (s : State) (p : Port) (c : Chan) (hs : Bool) : (s.unmask p c hs).outq = s.outq :=
  rfl
@[simp] theorem State.unmask_shm (s : State) (p : Port) (c : Chan) (hs : Bool) : (s.unmask p c hs).shm = s.shm := rfl
@[simp] theorem State.unmask_dev (s : State) (p : Port) (c : Chan) (hs : Bool) : (s.unmask p c hs).dev = s.dev := rfl
@[simp] theorem State.unmask_desc (s : State) (p : Port) (c : Chan) (hs : Bool) : (s.unmask p c hs).desc = s.desc :=
  rfl
@[simp] theorem State.unmask_table (s : State) (p : Port) (c : Chan) (hs : Bool) : (s.unmask p c hs).table = s.table :=
  rfl
@[simp] theorem State.unmask_free (s : State) (p : Port) (c : Chan) (hs : Bool) : (s.unmask p c hs).free = s.free :=
  rfl
@[simp] theorem State.unmask_log (s : State) (p : Port) (c : Chan) (hs : Bool) : (s.unmask p c hs).log = s.log := rfl
@[simp] theorem State.unmask_dphase (s : State) (p : Port) (c : Chan) (hs : Bool) : (s.unmask p c hs).dphase = s.dphase :=
  rfl
@[simp] theorem State.unmask_callers (s : State) (p : Port) (c : Chan) (hs : Bool) : (s.unmask p c hs).callers = s.callers :=
  rfl
@[simp] theorem State.unmask_peers (s : State) (p : Port) (c : Chan) (hs : Bool) : (s.unmask p c hs).peers = s.peers :=
  rfl
@[simp] theorem State.unmask_names (s : State) (p : Port) (c : Chan) (hs : Bool) : (s.unmask p c hs).names = s.names :=
  rfl
@[simp] theorem State.unmask_refused (s : State) (p : Port) (c : Chan) (hs : Bool) : (s.unmask p c hs).refused = s.refused :=
  rfl
@[simp] theorem State.unmask_cur (s : State) (p : Port) (c : Chan) (hs : Bool) : (s.unmask p c hs).cur = s.cur := rfl
@[simp] theorem State.unmask_sched (s : State) (p : Port) (c : Chan) (hs : Bool) : (s.unmask p c hs).sched = s.sched :=
  rfl
@[simp] theorem State.unmask_tick (s : State) (p : Port) (c : Chan) (hs : Bool) : (s.unmask p c hs).tick = s.tick :=
  rfl
@[simp] theorem State.unmask_tape (s : State) (p : Port) (c : Chan) (hs : Bool) : (s.unmask p c hs).tape = s.tape :=
  rfl
@[simp] theorem State.unmask_drawn (s : State) (p : Port) (c : Chan) (hs : Bool) : (s.unmask p c hs).drawn = s.drawn :=
  rfl

@[simp] theorem State.install_cfg (s : State) (h : Handle) (D : Desc) (p : Port) (c : Chan) : (s.install h D p c).cfg = s.cfg :=
  rfl
@[simp] theorem State.install_tx (s : State) (h : Handle) (D : Desc) (p : Port) (c : Chan) : (s.install h D p c).tx = s.tx :=
  rfl
@[simp] theorem State.install_rx (s : State) (h : Handle) (D : Desc) (p : Port) (c : Chan) : (s.install h D p c).rx = s.rx :=
  rfl
@[simp] theorem State.install_status (s : State) (h : Handle) (D : Desc) (p : Port) (c : Chan) : (s.install h D p c).status = s.status :=
  rfl
@[simp] theorem State.install_lineEn (s : State) (h : Handle) (D : Desc) (p : Port) (c : Chan) : (s.install h D p c).lineEn = s.lineEn :=
  rfl
@[simp] theorem State.install_pvTx (s : State) (h : Handle) (D : Desc) (p : Port) (c : Chan) : (s.install h D p c).pvTx = s.pvTx :=
  rfl
@[simp] theorem State.install_preq (s : State) (h : Handle) (D : Desc) (p : Port) (c : Chan) : (s.install h D p c).preq = s.preq :=
  rfl
@[simp] theorem State.install_inq (s : State) (h : Handle) (D : Desc) (p : Port) (c : Chan) : (s.install h D p c).inq = s.inq :=
  rfl
@[simp] theorem State.install_outq (s : State) (h : Handle) (D : Desc) (p : Port) (c : Chan) : (s.install h D p c).outq = s.outq :=
  rfl
@[simp] theorem State.install_shm (s : State) (h : Handle) (D : Desc) (p : Port) (c : Chan) : (s.install h D p c).shm = s.shm :=
  rfl
@[simp] theorem State.install_dev (s : State) (h : Handle) (D : Desc) (p : Port) (c : Chan) : (s.install h D p c).dev = s.dev :=
  rfl
@[simp] theorem State.install_log (s : State) (h : Handle) (D : Desc) (p : Port) (c : Chan) : (s.install h D p c).log = s.log :=
  rfl
@[simp] theorem State.install_dphase (s : State) (h : Handle) (D : Desc) (p : Port) (c : Chan) : (s.install h D p c).dphase = s.dphase :=
  rfl
@[simp] theorem State.install_callers (s : State) (h : Handle) (D : Desc) (p : Port) (c : Chan) : (s.install h D p c).callers = s.callers :=
  rfl
@[simp] theorem State.install_peers (s : State) (h : Handle) (D : Desc) (p : Port) (c : Chan) : (s.install h D p c).peers = s.peers :=
  rfl
@[simp] theorem State.install_names (s : State) (h : Handle) (D : Desc) (p : Port) (c : Chan) : (s.install h D p c).names = s.names :=
  rfl
@[simp] theorem State.install_refused (s : State) (h : Handle) (D : Desc) (p : Port) (c : Chan) : (s.install h D p c).refused = s.refused :=
  rfl
@[simp] theorem State.install_cur (s : State) (h : Handle) (D : Desc) (p : Port) (c : Chan) : (s.install h D p c).cur = s.cur :=
  rfl
@[simp] theorem State.install_sched (s : State) (h : Handle) (D : Desc) (p : Port) (c : Chan) : (s.install h D p c).sched = s.sched :=
  rfl
@[simp] theorem State.install_tick (s : State) (h : Handle) (D : Desc) (p : Port) (c : Chan) : (s.install h D p c).tick = s.tick :=
  rfl
@[simp] theorem State.install_tape (s : State) (h : Handle) (D : Desc) (p : Port) (c : Chan) : (s.install h D p c).tape = s.tape :=
  rfl
@[simp] theorem State.install_drawn (s : State) (h : Handle) (D : Desc) (p : Port) (c : Chan) : (s.install h D p c).drawn = s.drawn :=
  rfl

@[simp] theorem State.removeEntry_cfg (s : State) (p : Port) (c : Chan) : (s.removeEntry p c).cfg = s.cfg := rfl
@[simp] theorem State.removeEntry_tx (s : State) (p : Port) (c : Chan) : (s.removeEntry p c).tx = s.tx := rfl
@[simp] theorem State.removeEntry_rx (s : State) (p : Port) (c : Chan) : (s.removeEntry p c).rx = s.rx := rfl
@[simp] theorem State.removeEntry_status (s : State) (p : Port) (c : Chan) : (s.removeEntry p c).status = s.status :=
  rfl
@[simp] theorem State.removeEntry_pvTx (s : State) (p : Port) (c : Chan) : (s.removeEntry p c).pvTx = s.pvTx := rfl
@[simp] theorem State.removeEntry_preq (s : State) (p : Port) (c : Chan) : (s.removeEntry p c).preq = s.preq := rfl
@[simp] theorem State.removeEntry_inq (s : State) (p : Port) (c : Chan) : (s.removeEntry p c).inq = s.inq := rfl
@[simp] theorem State.removeEntry_outq (s : State) (p : Port) (c : Chan) : (s.removeEntry p c).outq = s.outq := rfl
@[simp] theorem State.removeEntry_shm (s : State) (p : Port) (c : Chan) : (s.removeEntry p c).shm = s.shm := rfl
@[simp] theorem State.removeEntry_dev (s : State) (p : Port) (c : Chan) : (s.removeEntry p c).dev = s.dev := rfl
@[simp] theorem State.removeEntry_desc (s : State) (p : Port) (c : Chan) : (s.removeEntry p c).desc = s.desc := rfl
@[simp] theorem State.removeEntry_log (s : State) (p : Port) (c : Chan) : (s.removeEntry p c).log = s.log := rfl
@[simp] theorem State.removeEntry_dphase (s : State) (p : Port) (c : Chan) : (s.removeEntry p c).dphase = s.dphase :=
  rfl
@[simp] theorem State.removeEntry_callers (s : State) (p : Port) (c : Chan) : (s.removeEntry p c).callers = s.callers :=
  rfl
@[simp] theorem State.removeEntry_peers (s : State) (p : Port) (c : Chan) : (s.removeEntry p c).peers = s.peers := rfl
@[simp] theorem State.removeEntry_names (s : State) (p : Port) (c : Chan) : (s.removeEntry p c).names = s.names := rfl
@[simp] theorem State.removeEntry_refused (s : State) (p : Port) (c : Chan) : (s.removeEntry p c).refused = s.refused :=
  rfl
@[simp] theorem State.removeEntry_cur (s : State) (p : Port) (c : Chan) : (s.removeEntry p c).cur = s.cur := rfl
@[simp] theorem State.removeEntry_sched (s : State) (p : Port) (c : Chan) : (s.removeEntry p c).sched = s.sched := rfl
@[simp] theorem State.removeEntry_tick (s : State) (p : Port) (c : Chan) : (s.removeEntry p c).tick = s.tick := rfl
@[simp] theorem State.removeEntry_tape (s : State) (p : Port) (c : Chan) : (s.removeEntry p c).tape = s.tape := rfl
@[simp] theorem State.removeEntry_drawn (s : State) (p : Port) (c : Chan) : (s.removeEntry p c).drawn = s.drawn := rfl

@[simp] theorem State.openLine_cfg (s : State) : s.openLine.cfg = s.cfg := rfl
@[simp] theorem State.openLine_tx (s : State) : s.openLine.tx = s.tx := rfl
@[simp] theorem State.openLine_rx (s : State) : s.openLine.rx = s.rx := rfl
@[simp] theorem State.openLine_status (s : State) : s.openLine.status = s.status := rfl
@[simp] theorem State.openLine_mask (s : State) : s.openLine.mask = s.mask := rfl
@[simp] theorem State.openLine_pvTx (s : State) : s.openLine.pvTx = s.pvTx := rfl
@[simp] theorem State.openLine_preq (s : State) : s.openLine.preq = s.preq := rfl
@[simp] theorem State.openLine_inq (s : State) : s.openLine.inq = s.inq := rfl
@[simp] theorem State.openLine_outq (s : State) : s.openLine.outq = s.outq := rfl
@[simp] theorem State.openLine_shm (s : State) : s.openLine.shm = s.shm := rfl
@[simp] theorem State.openLine_dev (s : State) : s.openLine.dev = s.dev := rfl
@[simp] theorem State.openLine_desc (s : State) : s.openLine.desc = s.desc := rfl
@[simp] theorem State.openLine_table (s : State) : s.openLine.table = s.table := rfl
@[simp] theorem State.openLine_free (s : State) : s.openLine.free = s.free := rfl
@[simp] theorem State.openLine_log (s : State) : s.openLine.log = s.log := rfl
@[simp] theorem State.openLine_dphase (s : State) : s.openLine.dphase = s.dphase := rfl
@[simp] theorem State.openLine_callers (s : State) : s.openLine.callers = s.callers := rfl
@[simp] theorem State.openLine_peers (s : State) : s.openLine.peers = s.peers := rfl
@[simp] theorem State.openLine_names (s : State) : s.openLine.names = s.names := rfl
@[simp] theorem State.openLine_refused (s : State) : s.openLine.refused = s.refused := rfl
@[simp] theorem State.openLine_cur (s : State) : s.openLine.cur = s.cur := rfl
@[simp] theorem State.openLine_sched (s : State) : s.openLine.sched = s.sched := rfl
@[simp] theorem State.openLine_tick (s : State) : s.openLine.tick = s.tick := rfl
@[simp] theorem State.openLine_tape (s : State) : s.openLine.tape = s.tape := rfl
@[simp] theorem State.openLine_drawn (s : State) : s.openLine.drawn = s.drawn := rfl

@[simp] theorem State.startRun_cfg (s : State) (w m : Word) : (s.startRun w m).cfg = s.cfg := by simp [State.startRun]
@[simp] theorem State.startRun_tx (s : State) (w m : Word) : (s.startRun w m).tx = s.tx := by simp [State.startRun]
@[simp] theorem State.startRun_rx (s : State) (w m : Word) : (s.startRun w m).rx = s.rx := by simp [State.startRun]
@[simp] theorem State.startRun_status (s : State) (w m : Word) : (s.startRun w m).status = s.status :=
  by simp [State.startRun]
@[simp] theorem State.startRun_mask (s : State) (w m : Word) : (s.startRun w m).mask = s.mask :=
  by simp [State.startRun]
@[simp] theorem State.startRun_lineEn (s : State) (w m : Word) : (s.startRun w m).lineEn = s.lineEn :=
  by simp [State.startRun]
@[simp] theorem State.startRun_pvTx (s : State) (w m : Word) : (s.startRun w m).pvTx = s.pvTx :=
  by simp [State.startRun]
@[simp] theorem State.startRun_preq (s : State) (w m : Word) : (s.startRun w m).preq = s.preq :=
  by simp [State.startRun]
@[simp] theorem State.startRun_inq (s : State) (w m : Word) : (s.startRun w m).inq = s.inq := by simp [State.startRun]
@[simp] theorem State.startRun_outq (s : State) (w m : Word) : (s.startRun w m).outq = s.outq :=
  by simp [State.startRun]
@[simp] theorem State.startRun_shm (s : State) (w m : Word) : (s.startRun w m).shm = s.shm := by simp [State.startRun]
@[simp] theorem State.startRun_dev (s : State) (w m : Word) : (s.startRun w m).dev = s.dev := by simp [State.startRun]
@[simp] theorem State.startRun_desc (s : State) (w m : Word) : (s.startRun w m).desc = s.desc :=
  by simp [State.startRun]
@[simp] theorem State.startRun_table (s : State) (w m : Word) : (s.startRun w m).table = s.table :=
  by simp [State.startRun]
@[simp] theorem State.startRun_free (s : State) (w m : Word) : (s.startRun w m).free = s.free :=
  by simp [State.startRun]
@[simp] theorem State.startRun_log (s : State) (w m : Word) : (s.startRun w m).log = s.log := by simp [State.startRun]
@[simp] theorem State.startRun_callers (s : State) (w m : Word) : (s.startRun w m).callers = s.callers :=
  by simp [State.startRun]
@[simp] theorem State.startRun_peers (s : State) (w m : Word) : (s.startRun w m).peers = s.peers :=
  by simp [State.startRun]
@[simp] theorem State.startRun_names (s : State) (w m : Word) : (s.startRun w m).names = s.names :=
  by simp [State.startRun]
@[simp] theorem State.startRun_refused (s : State) (w m : Word) : (s.startRun w m).refused = s.refused :=
  by simp [State.startRun]
@[simp] theorem State.startRun_cur (s : State) (w m : Word) : (s.startRun w m).cur = s.cur := by simp [State.startRun]
@[simp] theorem State.startRun_sched (s : State) (w m : Word) : (s.startRun w m).sched = s.sched :=
  by simp [State.startRun]
@[simp] theorem State.startRun_tick (s : State) (w m : Word) : (s.startRun w m).tick = s.tick :=
  by simp [State.startRun]

@[simp] theorem State.scheduled_cfg (s : State) : s.scheduled.cfg = s.cfg := by unfold State.scheduled; split <;> rfl
@[simp] theorem State.scheduled_tx (s : State) : s.scheduled.tx = s.tx := by unfold State.scheduled; split <;> rfl
@[simp] theorem State.scheduled_rx (s : State) : s.scheduled.rx = s.rx := by unfold State.scheduled; split <;> rfl
@[simp] theorem State.scheduled_status (s : State) : s.scheduled.status = s.status :=
  by unfold State.scheduled; split <;> rfl
@[simp] theorem State.scheduled_mask (s : State) : s.scheduled.mask = s.mask :=
  by unfold State.scheduled; split <;> rfl
@[simp] theorem State.scheduled_lineEn (s : State) : s.scheduled.lineEn = s.lineEn :=
  by unfold State.scheduled; split <;> rfl
@[simp] theorem State.scheduled_pvTx (s : State) : s.scheduled.pvTx = s.pvTx :=
  by unfold State.scheduled; split <;> rfl
@[simp] theorem State.scheduled_preq (s : State) : s.scheduled.preq = s.preq :=
  by unfold State.scheduled; split <;> rfl
@[simp] theorem State.scheduled_inq (s : State) : s.scheduled.inq = s.inq := by unfold State.scheduled; split <;> rfl
@[simp] theorem State.scheduled_outq (s : State) : s.scheduled.outq = s.outq :=
  by unfold State.scheduled; split <;> rfl
@[simp] theorem State.scheduled_shm (s : State) : s.scheduled.shm = s.shm := by unfold State.scheduled; split <;> rfl
@[simp] theorem State.scheduled_dev (s : State) : s.scheduled.dev = s.dev := by unfold State.scheduled; split <;> rfl
@[simp] theorem State.scheduled_desc (s : State) : s.scheduled.desc = s.desc :=
  by unfold State.scheduled; split <;> rfl
@[simp] theorem State.scheduled_table (s : State) : s.scheduled.table = s.table :=
  by unfold State.scheduled; split <;> rfl
@[simp] theorem State.scheduled_free (s : State) : s.scheduled.free = s.free :=
  by unfold State.scheduled; split <;> rfl
@[simp] theorem State.scheduled_log (s : State) : s.scheduled.log = s.log := by unfold State.scheduled; split <;> rfl
@[simp] theorem State.scheduled_dphase (s : State) : s.scheduled.dphase = s.dphase :=
  by unfold State.scheduled; split <;> rfl
@[simp] theorem State.scheduled_callers (s : State) : s.scheduled.callers = s.callers :=
  by unfold State.scheduled; split <;> rfl
@[simp] theorem State.scheduled_peers (s : State) : s.scheduled.peers = s.peers :=
  by unfold State.scheduled; split <;> rfl
@[simp] theorem State.scheduled_names (s : State) : s.scheduled.names = s.names :=
  by unfold State.scheduled; split <;> rfl
@[simp] theorem State.scheduled_refused (s : State) : s.scheduled.refused = s.refused :=
  by unfold State.scheduled; split <;> rfl
@[simp] theorem State.scheduled_tape (s : State) : s.scheduled.tape = s.tape :=
  by unfold State.scheduled; split <;> rfl
@[simp] theorem State.scheduled_drawn (s : State) : s.scheduled.drawn = s.drawn :=
  by unfold State.scheduled; split <;> rfl

/-! ### Fields an update writes -/

@[simp] theorem State.raise_refused (s : State) (r : Reason) : (s.raise r).refused = some r := rfl
@[simp] theorem State.emit_log (s : State) (e : Event) : (s.emit e).log = s.log ++ [e] := rfl

@[simp] theorem State.finish_log (s : State) (op : ChmOp) (t : VarName) (code : ResultCode) :
    (s.finish op t code).log = s.log ++ [.result s.cur op code] := by
  simp [State.finish]

@[simp] theorem State.finishSend_log (s : State) (t : VarName) (code : ResultCode) :
    (s.finishSend t code).log = s.log ++ [.result s.cur .send code] := by
  simp [State.finishSend]

@[simp] theorem State.enterDispatch_dphase (s : State) : s.enterDispatch.dphase = .acq := rfl
@[simp] theorem State.leaveDispatch_dphase (s : State) : s.leaveDispatch.dphase = .idle := rfl

@[simp] theorem State.enqueueIn_inq (s : State) (p : Port) (c : Chan) (e : InEvent) :
    (s.enqueueIn p c e).inq = s.inq.set p c (s.inq.get p c ++ [e]) := rfl

@[simp] theorem State.setDescId_desc (s : State) (h : Handle) (n : Nat) :
    (s.setDescId h n).desc = s.desc.modify h (fun D => { D with id := n }) := rfl

@[simp] theorem State.install_desc (s : State) (h : Handle) (D : Desc) (p : Port) (c : Chan) :
    (s.install h D p c).desc = s.desc.modify h (fun D => { D with id := c.val }) := rfl

@[simp] theorem State.install_table (s : State) (h : Handle) (D : Desc) (p : Port) (c : Chan) :
    (s.install h D p c).table =
      s.table.set p c (some ⟨h, D.handshake, D.hasTxDrained, rslot p c, wslot p c⟩) := rfl

@[simp] theorem State.install_free (s : State) (h : Handle) (D : Desc) (p : Port) (c : Chan) :
    (s.install h D p c).free = s.free.set p (s.free.get p - 1) := rfl

@[simp] theorem State.install_mask (s : State) (h : Handle) (D : Desc) (p : Port) (c : Chan) :
    (s.install h D p c).mask =
      if D.handshake then s.mask ||| bit (s.cfg.fullBit p c) ||| bit (s.cfg.emptyBit p c)
      else s.mask ||| bit (s.cfg.fullBit p c) := rfl

@[simp] theorem State.removeEntry_table (s : State) (p : Port) (c : Chan) :
    (s.removeEntry p c).table = s.table.set p c none := rfl

@[simp] theorem State.removeEntry_free (s : State) (p : Port) (c : Chan) :
    (s.removeEntry p c).free = s.free.set p (s.free.get p + 1) := rfl

@[simp] theorem State.removeEntry_mask (s : State) (p : Port) (c : Chan) :
    (s.removeEntry p c).mask = s.mask &&& ~~~(bit (s.cfg.fullBit p c) ||| bit (s.cfg.emptyBit p c)) := rfl

/-- The line closes exactly when no entry is left (R247). -/
theorem State.removeEntry_lineEn (s : State) (p : Port) (c : Chan) :
    (s.removeEntry p c).lineEn = if (s.removeEntry p c).registeredCount = 0 then false else s.lineEn := rfl

/-- The line opens with the first registration (R243). -/
theorem State.openLine_lineEn (s : State) :
    s.openLine.lineEn = if s.registeredCount = 0 then true else s.lineEn := rfl

@[simp] theorem State.writeTx_tx_get (s : State) (x : Word) (p : Port) (c : Chan) :
    (s.writeTx x).tx.get p c = (s.tx.get p c || x.getLsbD (s.cfg.dataBit p c)) := by
  simp [State.writeTx]

@[simp] theorem State.writeTx_outq_get (s : State) (x : Word) (p : Port) (c : Chan) :
    (s.writeTx x).outq.get p c =
      if x.getLsbD (s.cfg.dataBit p c) && !(s.tx.get p c) then s.outq.get p c ++ [.txset]
      else s.outq.get p c := by
  simp [State.writeTx]

@[simp] theorem State.writeClr_tx_get (s : State) (x : Word) (p : Port) (c : Chan) :
    (s.writeClr x).tx.get p c = (s.tx.get p c && !(x.getLsbD (s.cfg.dataBit p c))) := by
  simp [State.writeClr]

@[simp] theorem State.writeClr_outq_get (s : State) (x : Word) (p : Port) (c : Chan) :
    (s.writeClr x).outq.get p c =
      if x.getLsbD (s.cfg.dataBit p c) && s.tx.get p c then s.outq.get p c ++ [.txclr]
      else s.outq.get p c := by
  simp [State.writeClr]

@[simp] theorem State.clearStatus_status (s : State) (x : Word) :
    (s.clearStatus x).status = s.status &&& ~~~x := rfl

@[simp] theorem State.clearStatus_rx_get (s : State) (x : Word) (p : Port) (c : Chan) :
    (s.clearStatus x).rx.get p c = (s.rx.get p c && !(x.getLsbD (s.cfg.fullBit p c))) := by
  simp [State.clearStatus]

@[simp] theorem State.clearStatus_outq_get (s : State) (x : Word) (p : Port) (c : Chan) :
    (s.clearStatus x).outq.get p c =
      if x.getLsbD (s.cfg.fullBit p c) then s.outq.get p c ++ [.rxack] else s.outq.get p c := by
  simp [State.clearStatus]

@[simp] theorem State.deliverIn_post_rx (s : State) (p : Port) (c : Chan) :
    (s.deliverIn p c .post).rx = s.rx.set p c true := rfl

@[simp] theorem State.deliverIn_post_tx (s : State) (p : Port) (c : Chan) :
    (s.deliverIn p c .post).tx = s.tx := rfl

@[simp] theorem State.deliverIn_post_status (s : State) (p : Port) (c : Chan) :
    (s.deliverIn p c .post).status = s.status ||| bit (s.cfg.fullBit p c) := rfl

@[simp] theorem State.deliverIn_drain_rx (s : State) (p : Port) (c : Chan) :
    (s.deliverIn p c .drain).rx = s.rx := by
  simp only [State.deliverIn]; split <;> rfl

theorem State.deliverIn_drain_tx (s : State) (p : Port) (c : Chan) :
    (s.deliverIn p c .drain).tx = if s.tx.get p c then s.tx.set p c false else s.tx := by
  simp only [State.deliverIn]; split <;> rfl

theorem State.deliverIn_drain_status (s : State) (p : Port) (c : Chan) :
    (s.deliverIn p c .drain).status =
      if s.tx.get p c then s.status ||| bit (s.cfg.emptyBit p c) else s.status := by
  simp only [State.deliverIn]; split <;> rfl

/-- The stream of the agent that issues changes as the update says. -/
theorem State.updStream_streamOf (s : State) (f : Stream → Stream) (a : Agent) :
    (s.updStream f).streamOf a = if a = s.cur then (s.streamOf a).map f else s.streamOf a := by
  unfold State.updStream
  cases hc : s.cur with
  | caller k =>
    cases a with
    | caller j =>
      simp only [State.streamOf, List.getElem?_modify, Agent.caller.injEq]
      by_cases h : j = k
      · subst h; cases s.callers[j]? <;> simp
      · simp [h, Ne.symm h]
    | peer q => simp [State.streamOf]
    | dispatcher => simp [State.streamOf]
    | sync d q c => simp [State.streamOf]
  | peer p =>
    cases a with
    | caller j => simp [State.streamOf]
    | peer q =>
      by_cases h : q = p
      · subst h; simp [State.streamOf]
      · simp [State.streamOf, PerPort.get_set, h]
    | dispatcher => simp [State.streamOf]
    | sync d q c => simp [State.streamOf]
  | dispatcher => cases a <;> simp [State.streamOf]
  | sync d q c => cases a <;> simp [State.streamOf]

end Sys2Proof.Machine
end

