-- ==== Sys2Proof/Laws/Ops.lean ====
section
/-! SUPPORT. One lemma for each shared operation, saying once what it does, for proofs to cite instead of unfolding it. -/

namespace Sys2Proof.Machine

/-! ### Lists -/

theorem modify_eq_set {α : Type} (l : List α) (k : Nat) (f : α → α) (c : α) (h : l[k]? = some c) :
    l.modify k f = l.set k (f c) := by
  apply List.ext_getElem?
  intro i
  rw [List.getElem?_modify, List.getElem?_set]
  obtain ⟨hk, hc⟩ := List.getElem?_eq_some_iff.1 h
  by_cases hi : k = i
  · subst hi; simp [hk, hc]
  · simp [hi]

/-! ### The issuer checks (R147) -/

/-- A Caller that exists passes the class check. -/
theorem State.asCaller_eq {s : State} {k : Nat} {c : Caller} (body : Caller → Out) (hk : s.cur = .caller k)
    (hc : s.callers[k]? = some c) : s.asCaller body = body c := by
  simp only [State.asCaller, hk, hc]

/-- Everything a Caller operation can do: its body's step for the Caller that issues it, or the mark WrongAgent. -/
theorem State.asCaller_cases {s u : State} {body : Caller → Out} (h : s.asCaller body = .next u) :
    (∃ k c, s.cur = .caller k ∧ s.callers[k]? = some c ∧ body c = .next u) ∨ u = s.raise .wrongAgent := by
  unfold State.asCaller at h
  split at h
  · next k hk =>
    split at h
    · next c hc => exact .inl ⟨k, c, hk, hc, h⟩
    · cases h; exact .inr rfl
  all_goals cases h; exact .inr rfl

/-- The one agent that may issue passes the class check. -/
theorem State.asAgent_eq {s : State} {a : Agent} (body : Out) (h : s.cur = a) : s.asAgent a body = body := by
  simp only [State.asAgent, h, if_true]

/-- Everything an operation of one agent can do. -/
theorem State.asAgent_cases {s u : State} {a : Agent} {body : Out} (h : s.asAgent a body = .next u) :
    (s.cur = a ∧ body = .next u) ∨ u = s.raise .wrongAgent := by
  unfold State.asAgent at h
  split at h
  · next ha => exact .inl ⟨ha, h⟩
  · cases h; exact .inr rfl

/-- Everything a peer move can do: its body's step, nothing outside a trusted peer's contract, or the mark. -/
theorem State.peerMove_cases {s u : State} {p : Port} {g : Bool} {body : Out} (h : s.peerMove p g body = .next u) :
    (s.cur = .peer p ∧ (s.cfg.peerTrusted = true → g = true) ∧ body = .next u) ∨ u = s ∨
      u = s.raise .wrongAgent := by
  rcases State.asAgent_cases h with ⟨ha, h⟩ | h
  · split at h
    · cases h; exact .inr (.inl rfl)
    · next hg =>
      refine .inl ⟨ha, fun ht => ?_, h⟩
      cases g
      · exact absurd (by simp [ht]) hg
      · rfl
  · exact .inr (.inr h)

theorem State.peerMove_eq {s : State} {p : Port} {g : Bool} (body : Out) (h : s.cur = .peer p)
    (hg : s.cfg.peerTrusted = true → g = true) : s.peerMove p g body = body := by
  rw [State.peerMove, State.asAgent_eq _ h, if_neg]
  intro hc
  simp only [Bool.and_eq_true, Bool.not_eq_true'] at hc
  exact absurd (hg hc.1) (by simp [hc.2])

theorem State.peerMove_waits {s : State} {p : Port} {g : Bool} (body : Out) (h : s.cur = .peer p)
    (ht : s.cfg.peerTrusted = true) (hg : g = false) : s.peerMove p g body = .next s := by
  rw [State.peerMove, State.asAgent_eq _ h, if_pos]
  simp [ht, hg]

/-! ### Returning (R32, R400) -/

/-- The return of Caller k's operation. -/
theorem State.retire_caller {s : State} {k : Nat} {c : Caller} (hk : s.cur = .caller k)
    (hc : s.callers[k]? = some c) :
    s.retire =
      { s with callers := s.callers.set k { c with stream := { c.stream with idx := c.stream.idx + 1 } } } := by
  simp only [State.retire, State.updStream, hk, modify_eq_set _ _ _ _ hc]

/-- The return of Caller k's operation with a value bound. -/
theorem State.bind_retire_caller {s : State} {k : Nat} {c : Caller} (t : VarName) (v : Word)
    (hk : s.cur = .caller k) (hc : s.callers[k]? = some c) :
    (s.bind t v).retire =
      { s with
        callers := s.callers.set k
          { c with stream := { c.stream with idx := c.stream.idx + 1, vars := Assoc.put c.stream.vars t v } } } := by
  have hl : k < s.callers.length := (List.getElem?_eq_some_iff.1 hc).1
  simp only [State.retire, State.bind, State.updStream, hk, modify_eq_set _ _ _ _ hc]
  rw [modify_eq_set _ _ _ { c with stream := { c.stream with vars := Assoc.put c.stream.vars t v } }
    (by simp [hl])]
  simp

/-- Two changes of the issuing agent's stream are one. -/
theorem State.updStream_updStream (s : State) (f g : Stream → Stream) :
    (s.updStream f).updStream g = s.updStream (g ∘ f) := by
  cases hc : s.cur with
  | caller k => simp only [State.updStream, hc, List.modify_modify_eq]; rfl
  | peer p => cases p <;> simp [State.updStream, hc, PerPort.set, PerPort.get]
  | dispatcher => simp only [State.updStream, hc]
  | sync d p c => simp only [State.updStream, hc]

/-- The operation in progress and the stream of a Caller are changed in either order. -/
theorem State.updStream_setSend (s : State) (x : Option SendLocals) (f : Stream → Stream) :
    (s.setSend x).updStream f = (s.updStream f).setSend x := by
  cases hc : s.cur with
  | caller k => simp only [State.setSend, State.updStream, hc, List.modify_modify_eq]; rfl
  | peer p => simp only [State.setSend, State.updStream, hc]
  | dispatcher => simp only [State.setSend, State.updStream, hc]
  | sync d p c => simp only [State.setSend, State.updStream, hc]

/-- SEND returns by ending with its code and leaving nothing in progress, in either order. -/
theorem State.finishSend_eq (s : State) (t : VarName) (code : ResultCode) :
    s.finishSend t code = (s.finish .send t code).setSend none := by
  have emit : ∀ e, (s.setSend none).emit e = (s.emit e).setSend none := fun e => by
    cases hc : s.cur <;> simp only [State.setSend, State.emit, hc]
  have cur : (s.setSend none).cur = s.cur := by cases hc : s.cur <;> simp only [State.setSend, hc]
  simp only [State.finishSend, State.finish, State.bind, State.retire, cur, emit, State.updStream_setSend]

/-- A result of Caller k: logged, bound, and the operation returns (R400). -/
theorem State.finish_caller {s : State} {k : Nat} {c : Caller} (op : ChmOp) (t : VarName) (code : ResultCode)
    (hk : s.cur = .caller k) (hc : s.callers[k]? = some c) :
    s.finish op t code =
      { s with
        log := s.log ++ [.result (.caller k) op code]
        callers := s.callers.set k
          { c with stream :=
              { c.stream with idx := c.stream.idx + 1, vars := Assoc.put c.stream.vars t code.toWord } } } := by
  rw [State.finish, State.bind_retire_caller (s := s.emit _) t _ hk hc, hk]
  simp only [State.emit, hk]

/-- The operation in progress of Caller k. -/
theorem State.setSend_caller {s : State} {k : Nat} {c : Caller} (x : Option SendLocals) (hk : s.cur = .caller k)
    (hc : s.callers[k]? = some c) :
    s.setSend x = { s with callers := s.callers.set k { c with send := x } } := by
  simp only [State.setSend, hk, modify_eq_set _ _ _ _ hc]

/-- The return of SEND (R285, R400). -/
theorem State.finishSend_caller {s : State} {k : Nat} {c : Caller} (t : VarName) (code : ResultCode)
    (hk : s.cur = .caller k) (hc : s.callers[k]? = some c) :
    s.finishSend t code =
      { s with
        log := s.log ++ [.result (.caller k) .send code]
        callers := s.callers.set k
          ⟨{ c.stream with idx := c.stream.idx + 1, vars := Assoc.put c.stream.vars t code.toWord }, none⟩ } := by
  have hl : k < s.callers.length := (List.getElem?_eq_some_iff.1 hc).1
  rw [State.finishSend, State.setSend_caller none hk hc,
    State.finish_caller (s := { s with callers := s.callers.set k { c with send := none } }) (k := k)
      (c := { c with send := none }) .send t code hk (by simp [hl])]
  simp

/-- The return of a peer's operation. -/
theorem State.retire_peer {s : State} {p : Port} (h : s.cur = .peer p) :
    s.retire = { s with peers := s.peers.set p { s.peers.get p with idx := (s.peers.get p).idx + 1 } } := by
  simp only [State.retire, State.updStream, h]

/-- The return of a peer's operation with a value bound. -/
theorem State.bind_retire_peer {s : State} {p : Port} (t : VarName) (v : Word) (h : s.cur = .peer p) :
    (s.bind t v).retire =
      { s with
        peers := s.peers.set p
          { s.peers.get p with
            idx := (s.peers.get p).idx + 1, vars := Assoc.put (s.peers.get p).vars t v } } := by
  simp only [State.retire, State.bind, State.updStream, h]
  cases p <;> rfl

/-! ### Shared memory (R101, R106) -/

/-- What a shared-memory write can do: nothing is written where the access is illegal, else the one word. -/
theorem State.memWrite_eq_some {s u : State} {addr : Nat} {v : Word} :
    s.memWrite addr v = some u ↔
      s.cfg.shmOk addr = true ∧ u = { s with shm := s.shm.writeWord s.cfg.byteOrder addr v } := by
  unfold State.memWrite
  split
  · next h => simp [h, eq_comm]
  · next h => simp [h]

theorem State.memWrite_slot {s : State} (h : s.cfg.shmBase % 4 = 0) (i : Slot) (k : WordIdx) (v : Word) :
    s.memWrite (s.cfg.wordAddr i k) v =
      some { s with shm := s.shm.writeWord s.cfg.byteOrder (s.cfg.wordAddr i k) v } := by
  simp [State.memWrite, Params.shmOk_wordAddr h]

theorem State.memRead_slot {s : State} (h : s.cfg.shmBase % 4 = 0) (i : Slot) (k : WordIdx) :
    s.memRead (s.cfg.wordAddr i k) = some (s.shm.readWord s.cfg.byteOrder (s.cfg.wordAddr i k)) := by
  simp [State.memRead, Params.shmOk_wordAddr h]

theorem State.memWrite_slot_misaligned {s : State} (h : s.cfg.shmBase % 4 ≠ 0) (i : Slot) (k : WordIdx) (v : Word) :
    s.memWrite (s.cfg.wordAddr i k) v = none := by
  simp [State.memWrite, Params.shmOk_wordAddr_misaligned h]

theorem State.memRead_slot_misaligned {s : State} (h : s.cfg.shmBase % 4 ≠ 0) (i : Slot) (k : WordIdx) :
    s.memRead (s.cfg.wordAddr i k) = none := by
  simp [State.memRead, Params.shmOk_wordAddr_misaligned h]

/-! ### Register access -/

theorem getLsbD_foldr_or {α : Type} (g : α → Word) (l : List α) (i : Nat) :
    (l.foldr (fun a w => g a ||| w) 0).getLsbD i = l.any (fun a => (g a).getLsbD i) := by
  induction l with
  | nil => simp
  | cons a l ih => rw [List.foldr_cons, BitVec.getLsbD_or, ih, List.any_cons]

/-- The bits of the read of TX and RX (R201, R202). -/
theorem getLsbD_packData (cfg : Params) (f : Chans Bool) (i : Nat) :
    (packData cfg f).getLsbD i = true ↔ i < 32 ∧ ∃ p c, i = cfg.dataBit p c ∧ f.get p c = true := by
  unfold packData
  rw [getLsbD_foldr_or, List.any_eq_true]
  constructor
  · rintro ⟨⟨p, c⟩, -, h⟩
    dsimp only at h
    split at h
    · next hf =>
      rw [getLsbD_bit, Bool.and_eq_true, decide_eq_true_eq, decide_eq_true_eq] at h
      exact ⟨h.2, p, c, h.1, hf⟩
    · simp at h
  · rintro ⟨h, p, c, rfl, hf⟩
    exact ⟨(p, c), mem_allPortChans p c, by simp [hf, getLsbD_bit, h]⟩

/-- Bit `DATA_BIT(p, c)` of the read of TX and RX, for legal parameters (R38, R201, R202). -/
theorem getLsbD_packData_dataBit {cfg : Params} (h : cfg.wf = true) (f : Chans Bool) (p : Port) (c : Chan) :
    (packData cfg f).getLsbD (cfg.dataBit p c) = f.get p c := by
  rw [Bool.eq_iff_iff, getLsbD_packData]
  constructor
  · rintro ⟨-, q, d, h1, h2⟩
    obtain ⟨rfl, rfl⟩ := (Params.dataBit_inj h _ _ _ _).1 h1
    exact h2
  · exact fun hf => ⟨Params.dataBit_lt h p c, p, c, rfl, hf⟩

/-- Without the erratum a write-1-to-clear write keeps no bit (R207). -/
theorem State.writeStatus_of_no_erratum {s : State} (h : s.cfg.erratumResidual = false) (x : Word) :
    s.writeStatus x = s.clearStatus (x &&& s.status) := by
  have hk : x &&& s.status &&& ~~~s.keepMask = x &&& s.status := by
    rw [State.keepMask, h, if_neg (by decide)]
    exact BitVec.and_allOnes
  rw [State.writeStatus, hk, State.afterKeep, h, if_neg (by decide)]

/-- Clearing the bits of a word that are set is clearing the word (R207). -/
theorem and_not_and_self (x y : Word) : y &&& ~~~(x &&& y) = y &&& ~~~x := by
  ext i hi
  simp only [BitVec.getElem_and, BitVec.getElem_not]
  cases x[i] <;> cases y[i] <;> rfl

/-! ### Operands (R150) -/

/-- The value of an operand is a matter of the issuing agent and its variables alone. -/
theorem State.eval_congr {s t : State} (h1 : s.cur = t.cur) (h2 : s.callers = t.callers) (h3 : s.peers = t.peers)
    (x : Expr) : s.eval x = t.eval x := by
  induction x with
  | lit v => rfl
  | var n => simp only [State.eval, State.readVar, State.streamOf, h1, h2, h3]
  | or a b iha ihb => simp only [State.eval, iha, ihb]
  | and a b iha ihb => simp only [State.eval, iha, ihb]
  | not a iha => simp only [State.eval, iha]

/-- What a bound descriptor name stands for (R44, R150). -/
theorem State.lookupDesc_eq_some {s : State} {d : DescName} {h : Handle} {D : Desc} :
    s.lookupDesc d = some (h, D) ↔ s.handleOf d = some h ∧ s.desc[h]? = some D := by
  unfold State.lookupDesc
  cases s.handleOf d with
  | none => simp
  | some g =>
    simp only [Option.map_eq_some_iff, Prod.mk.injEq, Option.some.injEq]
    constructor
    · rintro ⟨E, hE, rfl, rfl⟩; exact ⟨rfl, hE⟩
    · rintro ⟨rfl, hD⟩; exact ⟨D, hD, rfl, rfl⟩

/-! ### The tables (R45) -/

/-- No entry holds a handle exactly when `entryOf` finds none (R247). -/
theorem State.entryOf_eq_none {s : State} {h : Handle} :
    s.entryOf h = none ↔ ∀ p j e, s.table.get p j = some e → e.d ≠ h := by
  unfold State.entryOf
  rw [List.find?_eq_none]
  constructor
  · intro hn p j e he hd
    exact hn (p, j) (mem_allPortChans p j) (by simp [he, hd])
  · rintro hn ⟨p, j⟩ -
    cases he : s.table.get p j with
    | none => simp
    | some e => simpa using hn p j e he

/-- Where `entryOf` finds an entry, the entry holds the handle (R247). -/
theorem State.entryOf_eq_some {s : State} {h : Handle} {p : Port} {j : Chan} (hs : s.entryOf h = some (p, j)) :
    ∃ e, s.table.get p j = some e ∧ e.d = h := by
  have := List.find?_some hs
  cases he : s.table.get p j with
  | none => simp [he] at this
  | some e => exact ⟨e, rfl, by simpa [he] using this⟩

/-- With handles unique, `entryOf` finds the entry of a registered handle (R45, R247). -/
theorem State.entryOf_eq {s : State} {h : Handle} {p : Port} {j : Chan} {e : Entry} (hu : s.handlesUnique)
    (he : s.table.get p j = some e) (hd : e.d = h) : s.entryOf h = some (p, j) := by
  cases hs : s.entryOf h with
  | none => exact absurd hd (State.entryOf_eq_none.1 hs p j e he)
  | some qd =>
    obtain ⟨f, hf, hfd⟩ := State.entryOf_eq_some (p := qd.1) (j := qd.2) hs
    obtain ⟨hp, hj⟩ := hu p j e qd.1 qd.2 f he hf (hd.trans hfd.symm)
    rw [hp, hj]

theorem countP_update {α : Type} [DecidableEq α] (l : List α) (hn : l.Nodup) (f g : α → Bool) (a : α) (ha : a ∈ l)
    (h : ∀ b, b ≠ a → f b = g b) : l.countP g + (f a).toNat = l.countP f + (g a).toNat := by
  induction l with
  | nil => cases ha
  | cons b l ih =>
    obtain ⟨hb, hl⟩ := List.nodup_cons.1 hn
    rw [List.countP_cons, List.countP_cons]
    by_cases hab : b = a
    · subst hab
      have : l.countP g = l.countP f := by
        apply List.countP_congr
        intro x hx
        rw [h x (fun e => hb (e ▸ hx))]
      rw [this]
      cases f b <;> cases g b <;> simp
    · have := ih hl ((List.mem_cons.1 ha).resolve_left (fun e => hab e.symm))
      rw [h b hab]
      omega

/-- The size of a table after one place is written (R45). -/
theorem tableSize_set (t : Chans (Option Entry)) (p q : Port) (j : Chan) (x : Option Entry) :
    tableSize (t.set p j x) q + (if q = p then ((t.get p j).isSome).toNat else 0) =
      tableSize t q + (if q = p then (x.isSome).toNat else 0) := by
  unfold tableSize
  by_cases hq : q = p
  · subst hq
    have := countP_update allChans allChans_nodup (fun c => (t.get q c).isSome)
      (fun c => ((t.set q j x).get q c).isSome) j (mem_allChans j)
      (fun b hb => by simp [Chans.get_set, hb])
    simpa using this
  · simp [Chans.get_set, hq]

theorem tableSize_pos {t : Chans (Option Entry)} {p : Port} {j : Chan} {e : Entry} (h : t.get p j = some e) :
    0 < tableSize t p :=
  List.countP_pos_iff.2 ⟨j, mem_allChans j, by simp [h]⟩

theorem tableSize_le (t : Chans (Option Entry)) (p : Port) : tableSize t p ≤ 8 :=
  List.countP_le_length

theorem getElem_allChans : ∀ c : Chan, allChans[c.val]'(by exact c.isLt) = c := by decide

/-- A table with a free id is not full, and one with none is (R245). -/
theorem State.firstFree_eq_some {s : State} {p : Port} {j : Chan} (h : s.table.get p j = none)
    (hl : ∀ i, i < j → s.table.get p i ≠ none) : s.firstFree p = some j := by
  unfold State.firstFree
  rw [List.find?_eq_some_iff_getElem]
  have h8 : allChans.length = 8 := rfl
  refine ⟨by simp [h], j.val, (by rw [h8]; exact j.isLt), getElem_allChans j, fun i hi => ?_⟩
  have hi8 : i < 8 := by omega
  have he : ∀ hl' : i < allChans.length, allChans[i]'hl' = ⟨i, hi8⟩ := fun _ => getElem_allChans ⟨i, hi8⟩
  rw [he]
  simpa [Option.isSome_iff_ne_none] using hl ⟨i, hi8⟩ hi

end Sys2Proof.Machine
end

