-- ==== Sys2Proof/Laws/Exec.lean ====
section
/-! SUPPORT. What one step can do, said once: `exec_next` for an operation, `step_next` for the machine. -/

namespace Sys2Proof.Machine

/-- What SEND does when it moves (R280 to R285). -/
def SendDid (s : State) (msg : MsgExpr) (t : VarName) (u : State) : Prop :=
  (∃ code, code ≠ .ok ∧ u = s.finishSend t code) ∨
  (∃ p c e, s.dphase = .idle ∧ s.table.get p c = some e ∧
    u = s.setSend (some ⟨.s2, p, s.cfg.dataBit p c, e.wslot, s.evalMsg msg⟩)) ∨
  ∃ k x l, s.cur = .caller k ∧ s.callers[k]? = some x ∧ x.send = some l ∧
    ((∃ ph, u = s.setSend (some { l with phase := ph })) ∨
      (∃ i t1, l.phase = .copy i t1 ∧ s.cfg.shmOk (s.cfg.wordAddr l.ws i) = true ∧
        u = ({ s with shm := s.shm.writeWord s.cfg.byteOrder (s.cfg.wordAddr l.ws i) (l.msg.word i) }.setSend
          (some { l with phase := sendAfterCopy i t1 }))) ∨
      ∃ t1 t2, l.phase = .s8 t1 t2 ∧ u = (s.mmioWrite .tx (t2 ||| bit l.b)).finishSend t .ok)

/-- What DISPATCH does when it moves (R306 to R309). -/
def DispatchDid (s u : State) : Prop :=
  (s.dphase = .idle ∧ s.irq = true ∧ u = s.enterDispatch) ∨
  (s.dphase = .acq ∧ u = { s with dphase := .snap s.status }) ∨
  (∃ w, s.dphase = .snap w ∧ u = { s.mmioWrite .status w with dphase := .ack w }) ∨
  (∃ w, s.dphase = .ack w ∧ u = { s with dphase := .maskrd w s.mask }) ∨
  (∃ w m, s.dphase = .maskrd w m ∧ u = s.startRun w m) ∨
  (∃ w m a buf, s.dphase = .run w m a [] buf ∧ u = s.leaveDispatch) ∨
  ∃ w m a it rest buf, s.dphase = .run w m a (it :: rest) buf ∧
    ((∃ e buf', u = { s.emit e with dphase := .run w m a rest buf' }) ∨
      ∃ buf', u = { s with dphase := .run w m a (it :: rest) buf' })

/-- What an operation does when it moves: neither waits nor is refused. -/
def Did (s : State) (i : Instr) (u : State) : Prop :=
  match i with
  | .rdTx t => u = (s.bind t (s.mmioRead .tx)).retire
  | .rdRx t => u = (s.bind t (s.mmioRead .rx)).retire
  | .rdStatus t => u = (s.bind t (s.mmioRead .status)).retire
  | .rdMask t => u = (s.bind t (s.mmioRead .mask)).retire
  | .rdClr t => u = (s.bind t (s.mmioRead .clr)).retire
  | .wrTx x => u = (s.mmioWrite .tx (s.eval x)).retire
  | .wrRx x => u = (s.mmioWrite .rx (s.eval x)).retire
  | .wrStatus x => u = (s.mmioWrite .status (s.eval x)).retire
  | .wrMask x => u = (s.mmioWrite .mask (s.eval x)).retire
  | .wrClr x => u = (s.mmioWrite .clr (s.eval x)).retire
  | .alloc d extra t =>
    u = s.afterDraw.finish .alloc t .allocFailed ∨ u = (s.afterDraw.allocate d extra).finish .alloc t .ok
  | .configPort _ _ | .configId _ _ | .configHandshake _ _ | .configHasReceive _ _ | .configHasTxDrained _ _ =>
    ∃ h D, s.entryOf h = none ∧ u = { s with desc := s.desc.set h D }.retire
  | .register _ t =>
    s.dphase = .idle ∧ ((u = s.finish .register t .hardwareBringupFailed) ∨
      ∃ h D, s.desc[h]? = some D ∧ u = (s.register h D).1.finish .register t (s.register h D).2)
  | .unregister _ t =>
    s.dphase = .idle ∧ ((u = s.finish .unregister t .hardwareBringupFailed) ∨
      ∃ h, u = (s.unregister h).1.finish .unregister t (s.unregister h).2)
  | .send _ msg t => SendDid s msg t u
  | .bringup t =>
    s.dev = .uninit ∧ (u = { s.afterDraw with dev := .failed }.finish .bringup t .hardwareBringupFailed ∨
      u = { s.afterDraw with dev := .ok }.finish .bringup t .ok)
  | .dispatch => DispatchDid s u
  | .pwrite w p c x =>
    (s.cfg.peerTrusted = true → s.preq.get p c = false) ∧ s.cfg.shmOk (s.cfg.wordAddr (rslot p c) w) = true ∧
      u = { s with
        shm := s.shm.writeWord s.cfg.byteOrder (s.cfg.wordAddr (rslot p c) w) (s.eval x) }.retire
  | .ppost p c =>
    (s.cfg.peerTrusted = true → s.preq.get p c = false) ∧
      u = ({ s with preq := s.preq.set p c true }.enqueueIn p c .post).retire
  | .pread w p c t =>
    (s.cfg.peerTrusted = true → s.pvTx.get p c = true) ∧
      ∃ v, u = ((s.emit (.peerRead p c w v)).bind t v).retire
  | .pdrain p c =>
    (s.cfg.peerTrusted = true → s.pvTx.get p c = true) ∧
      u = ({ s with pvTx := s.pvTx.set p c false }.enqueueIn p c .drain).retire
  | .syncIn p c => ∃ e rest, s.inq.get p c = e :: rest ∧ u = { s with inq := s.inq.set p c rest }.deliverIn p c e
  | .syncOut p c =>
    ∃ e rest, s.outq.get p c = e :: rest ∧ u = { s with outq := s.outq.set p c rest }.deliverOut p c e

/-- What CONFIG of one field can do (R242). -/
theorem State.config_next {s u : State} {d : DescName} {f : Desc → Option Desc} (h : s.config d f = .next u) :
    (∃ r, u = s.raise r) ∨ ∃ g D, s.entryOf g = none ∧ u = { s with desc := s.desc.set g D }.retire := by
  rcases State.asCaller_cases h with ⟨k, c, -, -, h⟩ | h
  · split at h
    · cases h; exact .inl ⟨_, rfl⟩
    · next g D hl =>
      split at h
      · cases h; exact .inl ⟨_, rfl⟩
      · next he =>
        split at h
        · cases h; exact .inl ⟨_, rfl⟩
        · next D' _ => cases h; exact .inr ⟨g, D', by simpa using he, rfl⟩
  · exact .inl ⟨_, h⟩

/-- What REGISTER and UNREGISTER can do around their bodies (R240). -/
theorem State.managed_next {s u : State} {op : ChmOp} {d : DescName} {t : VarName}
    {body : Handle → Desc → State × ResultCode} (h : s.managed op d t body = .next u) :
    u = s ∨ (∃ r, u = s.raise r) ∨
      (s.dphase = .idle ∧ (u = s.finish op t .hardwareBringupFailed ∨
        ∃ g D, s.desc[g]? = some D ∧ u = (body g D).1.finish op t (body g D).2)) := by
  rcases State.asCaller_cases h with ⟨k, c, -, -, h⟩ | h
  · split at h
    · cases h; exact .inl rfl
    · next hi =>
      have hi : s.dphase = .idle := by simpa using hi
      split at h
      · cases h; exact .inr (.inl ⟨_, rfl⟩)
      · cases h; exact .inr (.inr ⟨hi, .inl rfl⟩)
      · split at h
        · cases h; exact .inr (.inl ⟨_, rfl⟩)
        · next g D hl =>
          cases h
          exact .inr (.inr ⟨hi, .inr ⟨g, D, (State.lookupDesc_eq_some.1 hl).2, rfl⟩⟩)
  · exact .inr (.inl ⟨_, h⟩)

/-- What SEND can do (R280 to R285). -/
theorem execSend_next {s u : State} {d : DescName} {msg : MsgExpr} {t : VarName}
    (h : execSend d msg t s = .next u) : u = s ∨ (∃ r, u = s.raise r) ∨ SendDid s msg t u := by
  rcases State.asCaller_cases h with ⟨k, c, hk, hc, h⟩ | h
  · split at h
    · unfold State.sendLookup at h
      split at h
      · cases h; exact .inl rfl
      · next hi =>
        have hi : s.dphase = .idle := by simpa using hi
        repeat' split at h
        all_goals cases h
        all_goals first
          | exact .inr (.inl ⟨_, rfl⟩)
          | exact .inr (.inr (.inl ⟨_, by simp, rfl⟩))
          | exact .inr (.inr (.inr (.inl ⟨_, _, _, hi, by assumption, rfl⟩)))
    · next l hl =>
      unfold State.sendStep at h
      split at h
      · split at h
        · cases h; exact .inr (.inr (.inl ⟨_, by simp, rfl⟩))
        · cases h; exact .inr (.inr (.inr (.inr ⟨k, c, l, hk, hc, hl, .inl ⟨_, rfl⟩⟩)))
      · next i t1 hp =>
        split at h
        · cases h; exact .inr (.inl ⟨_, rfl⟩)
        · next s' hs =>
          obtain ⟨hok, rfl⟩ := State.memWrite_eq_some.1 hs
          cases h
          exact .inr (.inr (.inr (.inr ⟨k, c, l, hk, hc, hl, .inr (.inl ⟨i, t1, hp, hok, rfl⟩)⟩)))
      · cases h; exact .inr (.inr (.inr (.inr ⟨k, c, l, hk, hc, hl, .inl ⟨_, rfl⟩⟩)))
      · next t1 t2 hp =>
        cases h; exact .inr (.inr (.inr (.inr ⟨k, c, l, hk, hc, hl, .inr (.inr ⟨t1, t2, hp, rfl⟩)⟩)))
  · exact .inr (.inl ⟨_, h⟩)

/-- What DISPATCH can do (R306 to R309). -/
theorem execDispatch_next {s u : State} (h : execDispatch s = .next u) :
    u = s ∨ (∃ r, u = s.raise r) ∨ DispatchDid s u := by
  rcases State.asAgent_cases h with ⟨-, h⟩ | h
  · unfold DispatchDid
    split at h
    · next hd =>
      split at h
      · next hi => cases h; exact .inr (.inr (.inl ⟨hd, hi, rfl⟩))
      · cases h; exact .inl rfl
    · next hd => cases h; exact .inr (.inr (.inr (.inl ⟨hd, rfl⟩)))
    · next w hd => cases h; exact .inr (.inr (.inr (.inr (.inl ⟨w, hd, rfl⟩))))
    · next w hd => cases h; exact .inr (.inr (.inr (.inr (.inr (.inl ⟨w, hd, rfl⟩)))))
    · next w m hd => cases h; exact .inr (.inr (.inr (.inr (.inr (.inr (.inl ⟨w, m, hd, rfl⟩))))))
    · next w m a buf hd =>
      cases h; exact .inr (.inr (.inr (.inr (.inr (.inr (.inr (.inl ⟨w, m, a, buf, hd, rfl⟩)))))))
    · next w m a p c rest buf hd =>
      cases h
      exact .inr (.inr (.inr (.inr (.inr (.inr (.inr (.inr
        ⟨w, m, a, _, rest, buf, hd, .inl ⟨_, _, rfl⟩⟩)))))))
    · next w m a p x rest buf hd =>
      cases h
      exact .inr (.inr (.inr (.inr (.inr (.inr (.inr (.inr
        ⟨w, m, a, _, rest, buf, hd, .inl ⟨_, _, rfl⟩⟩)))))))
    · next w m a p c rs rest buf hd =>
      unfold State.runRecv at h
      split at h
      · cases h; exact .inr (.inl ⟨_, rfl⟩)
      · split at h
        all_goals cases h
        all_goals first
          | exact .inr (.inr (.inr (.inr (.inr (.inr (.inr (.inr (.inr
              ⟨w, m, a, _, rest, _, hd, .inr ⟨_, rfl⟩⟩))))))))
          | exact .inr (.inr (.inr (.inr (.inr (.inr (.inr (.inr (.inr
              ⟨w, m, a, _, rest, _, hd, .inl ⟨_, _, rfl⟩⟩))))))))
          | exact .inr (.inr (.inr (.inr (.inr (.inr (.inr (.inr
              ⟨w, m, a, _, rest, _, hd, .inr ⟨_, rfl⟩⟩)))))))
          | exact .inr (.inr (.inr (.inr (.inr (.inr (.inr (.inr
              ⟨w, m, a, _, rest, _, hd, .inl ⟨_, _, rfl⟩⟩)))))))
  · exact .inr (.inl ⟨_, h⟩)

/-- Everything an operation can do: it waits, it is refused, or it moves. -/
theorem exec_next {i : Instr} {s u : State} (h : exec i s = .next u) :
    u = s ∨ (∃ r, u = s.raise r) ∨ Did s i u := by
  have caller : ∀ {body : Caller → Out} {P : Prop}, s.asCaller body = .next u →
      (∀ c, body c = .next u → u = s ∨ (∃ r, u = s.raise r) ∨ P) → u = s ∨ (∃ r, u = s.raise r) ∨ P := by
    intro body P h1 h2
    rcases State.asCaller_cases h1 with ⟨k, c, -, -, h3⟩ | h3
    · exact h2 c h3
    · exact .inr (.inl ⟨_, h3⟩)
  have peer : ∀ {p : Port} {g : Bool} {body : Out} {P : Prop}, s.peerMove p g body = .next u →
      ((s.cfg.peerTrusted = true → g = true) → body = .next u → u = s ∨ (∃ r, u = s.raise r) ∨ P) →
      u = s ∨ (∃ r, u = s.raise r) ∨ P := by
    intro p g body P h1 h2
    rcases State.peerMove_cases h1 with ⟨-, hg, h3⟩ | h3 | h3
    · exact h2 hg h3
    · exact .inl h3
    · exact .inr (.inl ⟨_, h3⟩)
  cases i with
  | rdTx t => exact caller h fun c hb => by cases hb; exact .inr (.inr rfl)
  | rdRx t => exact caller h fun c hb => by cases hb; exact .inr (.inr rfl)
  | rdStatus t => exact caller h fun c hb => by cases hb; exact .inr (.inr rfl)
  | rdMask t => exact caller h fun c hb => by cases hb; exact .inr (.inr rfl)
  | rdClr t => exact caller h fun c hb => by cases hb; exact .inr (.inr rfl)
  | wrTx x => exact caller h fun c hb => by cases hb; exact .inr (.inr rfl)
  | wrRx x => exact caller h fun c hb => by cases hb; exact .inr (.inr rfl)
  | wrStatus x => exact caller h fun c hb => by cases hb; exact .inr (.inr rfl)
  | wrMask x => exact caller h fun c hb => by cases hb; exact .inr (.inr rfl)
  | wrClr x => exact caller h fun c hb => by cases hb; exact .inr (.inr rfl)
  | alloc d extra t =>
    refine caller h fun c hb => ?_
    cases hb
    split
    · exact .inr (.inr (.inl rfl))
    · exact .inr (.inr (.inr rfl))
  | configPort d x => exact .inr (State.config_next (f := fun D => some { D with port := s.eval x }) h)
  | configId d x => exact .inr (State.config_next (f := fun D => some { D with id := (s.eval x).toNat }) h)
  | configHandshake d x => exact .inr (State.config_next h)
  | configHasReceive d x => exact .inr (State.config_next h)
  | configHasTxDrained d x => exact .inr (State.config_next h)
  | register d t => exact State.managed_next h
  | unregister d t =>
    refine (State.managed_next h).imp_right (Or.imp_right (And.imp_right (Or.imp_right ?_)))
    rintro ⟨g, -, -, hu⟩
    exact ⟨g, hu⟩
  | send d msg t => exact execSend_next h
  | bringup t =>
    refine caller h fun c hb => ?_
    split at hb
    · cases hb; exact .inr (.inl ⟨_, rfl⟩)
    · next hd =>
      cases hb
      refine .inr (.inr ⟨by simpa using hd, ?_⟩)
      split
      · exact .inl rfl
      · exact .inr rfl
  | dispatch => exact execDispatch_next h
  | pwrite w p c x =>
    refine peer h fun hg hb => ?_
    split at hb
    · cases hb; exact .inr (.inl ⟨_, rfl⟩)
    · next s' hs =>
      obtain ⟨hok, rfl⟩ := State.memWrite_eq_some.1 hs
      cases hb
      exact .inr (.inr ⟨fun ht => by simpa using hg ht, hok, rfl⟩)
  | ppost p c =>
    refine peer h fun hg hb => ?_
    cases hb
    exact .inr (.inr ⟨fun ht => by simpa using hg ht, rfl⟩)
  | pread w p c t =>
    refine peer h fun hg hb => ?_
    split at hb
    · cases hb; exact .inr (.inl ⟨_, rfl⟩)
    · cases hb; exact .inr (.inr ⟨hg, _, rfl⟩)
  | pdrain p c =>
    refine peer h fun hg hb => ?_
    cases hb
    exact .inr (.inr ⟨hg, rfl⟩)
  | syncIn p c =>
    rcases State.asAgent_cases h with ⟨-, hb⟩ | hb
    · split at hb
      · cases hb; exact .inl rfl
      · next e rest hq => cases hb; exact .inr (.inr ⟨e, rest, hq, rfl⟩)
    · exact .inr (.inl ⟨_, hb⟩)
  | syncOut p c =>
    rcases State.asAgent_cases h with ⟨-, hb⟩ | hb
    · split at hb
      · cases hb; exact .inl rfl
      · next e rest hq => cases hb; exact .inr (.inr ⟨e, rest, hq, rfl⟩)
    · exact .inr (.inl ⟨_, hb⟩)

/-- The refusal of an entry that decodes to no operation is a mark, and nothing else (R404). -/
theorem State.rejectItem_eq (s : State) (r : Reason) : ∃ r', s.rejectItem r = s.raise r' := by
  unfold State.rejectItem
  split
  · exact ⟨_, rfl⟩
  · exact ⟨_, rfl⟩
  · exact ⟨_, rfl⟩

/-- Everything a step can do: the scheduled agent has nothing to issue, its entry is refused, or its operation takes its
step (R30, R404). -/
theorem step_next {s u : State} (h : step s = .next u) :
    u = s.scheduled ∨ (∃ r, u = s.scheduled.raise r) ∨ ∃ i, exec i s.scheduled = .next u := by
  unfold step at h
  split at h
  · cases h
  · split at h
    · cases h; exact .inl rfl
    · split at h
      · next r _ =>
        cases h
        exact .inr (.inl (State.rejectItem_eq _ _))
      · next i _ => exact .inr (.inr ⟨i, h⟩)

end Sys2Proof.Machine
end

