-- ==== Sys2Proof/Machine/Pseudo.lean ====
section
/-! DEFINITION. The pseudo-operations and their expansions (R151): sequences of separate operations, so other agents may
take steps between them. -/

namespace Sys2Proof.Machine

/-- `ack`. -/
def pseudoAck (t : VarName) : List Instr := [.rdStatus t, .wrStatus (.var t)]

/-- `unmask P, c, full`. -/
def pseudoUnmaskFull (cfg : Params) (p : Port) (c : Chan) (t : VarName) : List Instr :=
  [.rdMask t, .wrMask (.or (.var t) (.lit (bit (cfg.fullBit p c))))]

/-- `unmask P, c, empty`. -/
def pseudoUnmaskEmpty (cfg : Params) (p : Port) (c : Chan) (t : VarName) : List Instr :=
  [.rdMask t, .wrMask (.or (.var t) (.lit (bit (cfg.emptyBit p c))))]

/-- `mask P, c`. -/
def pseudoMask (cfg : Params) (p : Port) (c : Chan) (t : VarName) : List Instr :=
  [.rdMask t,
    .wrMask (.and (.var t) (.not (.or (.lit (bit (cfg.fullBit p c))) (.lit (bit (cfg.emptyBit p c))))))]

/-- `post P, c`. -/
def pseudoPost (cfg : Params) (p : Port) (c : Chan) (t : VarName) : List Instr :=
  [.rdTx t, .wrTx (.or (.var t) (.lit (bit (cfg.dataBit p c))))]

/-- `withdraw P, c`. -/
def pseudoWithdraw (cfg : Params) (p : Port) (c : Chan) : List Instr := [.wrClr (.lit (bit (cfg.dataBit p c)))]

/-- `peer.send P, c, m` for the four words m. -/
def pseudoPeerSend (p : Port) (c : Chan) (m : MsgExpr) : List Instr :=
  [.pwrite 0 p c m.kind, .pwrite 1 p c m.payload, .pwrite 2 p c m.length, .pwrite 3 p c m.reserved, .ppost p c]

/-- `peer.consume P, c`. -/
def pseudoPeerConsume (p : Port) (c : Chan) (t0 t1 t2 t3 : VarName) : List Instr :=
  [.pread 0 p c t0, .pread 1 p c t1, .pread 2 p c t2, .pread 3 p c t3, .pdrain p c]

/-- The program entries of a list of operations (R63). -/
def programOf (l : List Instr) : List Item := l.map encode

/-- Put a program into an agent's stream from outside, at index 0 (R63, R472; log 14). The Dispatcher and the
synchronizers have none. -/
def State.load (s : State) (a : Agent) (prog : List Item) : State :=
  match a with
  | .caller k =>
    { s with callers := s.callers.modify k (fun c => { c with stream := { c.stream with prog := prog, idx := 0 } }) }
  | .peer p => { s with peers := s.peers.set p { s.peers.get p with prog := prog, idx := 0 } }
  | .dispatcher => s
  | .sync _ _ _ => s

end Sys2Proof.Machine
end

