-- ==== Sys2Proof/Laws/Peers.lean ====
section
/-! SUPPORT. What the trusted peers' duty to write fully before posting says of their programs (R351, R369). -/

namespace Sys2Proof

/-- The check passed: at each post every word of the channel's slot has been written, with no post of the channel since. -/
theorem writesBeforePosts_spec (p : Port) (c : Chan) (rest : List Instr) (k : WordIdx) (before : List Instr) :
    ∀ written : List (Chan × WordIdx), writesBeforePosts written (before ++ .ppost p c :: rest) = true →
      ((c, k) ∈ written ∧ ∀ r, .ppost r c ∉ before) ∨
        ∃ l q x m, before = l ++ .pwrite k q c x :: m ∧ ∀ r, .ppost r c ∉ m := by
  induction before with
  | nil =>
    intro written h
    simp only [List.nil_append, writesBeforePosts, Bool.and_eq_true, decide_eq_true_eq] at h
    exact .inl ⟨h.1 k, fun _ => List.not_mem_nil⟩
  | cons i before ih =>
    intro written h
    have prepend : (∃ l q x m, before = l ++ .pwrite k q c x :: m ∧ ∀ r, Instr.ppost r c ∉ m) →
        ∃ l q x m, i :: before = l ++ .pwrite k q c x :: m ∧ ∀ r, Instr.ppost r c ∉ m := by
      rintro ⟨l, q, x, m, rfl, hm⟩
      exact ⟨i :: l, q, x, m, rfl, hm⟩
    cases i
    case pwrite k' q c' x =>
      rcases ih ((c', k') :: written) h with ⟨hin, hno⟩ | hr
      · rcases List.mem_cons.1 hin with he | hin
        · cases he
          exact .inr ⟨[], q, x, before, rfl, hno⟩
        · exact .inl ⟨hin, by simpa using hno⟩
      · exact .inr (prepend hr)
    case ppost q c' =>
      simp only [List.cons_append, writesBeforePosts, Bool.and_eq_true, decide_eq_true_eq] at h
      rcases ih _ h.2 with ⟨hin, hno⟩ | hr
      · simp only [List.mem_filter, bne_iff_ne, ne_eq] at hin
        exact .inl ⟨hin.1, fun r hr => (List.mem_cons.1 hr).elim (fun he => hin.2 (by cases he; rfl)) (hno r)⟩
      · exact .inr (prepend hr)
    all_goals
      rcases ih written h with ⟨hin, hno⟩ | hr
      · exact .inl ⟨hin, by simpa using hno⟩
      · exact .inr (prepend hr)

/-- `peer.send` writes fully before it posts (R151, R369). -/
theorem writesBeforePosts_peerSend (p : Port) (c : Chan) (m : MsgExpr) (written : List (Chan × WordIdx)) :
    writesBeforePosts written (Machine.pseudoPeerSend p c m) = true := by
  simp [Machine.pseudoPeerSend, writesBeforePosts]
  intro k
  fin_cases k <;> simp

end Sys2Proof
end

