-- ==== Sys2Proof/Laws/PerInstr.lean ====
section
/-! SUPPORT. A law for each operation on its own: its word selects a row of the opcode map (R148), and that row builds
the operation from the word's fields and the operands. -/

namespace Sys2Proof.Laws.RowBuilds

-- One theorem at a time: many small ones at once each ask for a thread's stack.
set_option Elab.async false

/-- Some row of the opcode map selects the operation's word, and builds the operation (R141 to R146, R148). -/
def Statement (i : Instr) : Prop :=
  ∃ r ∈ opcodeMap, r.selects (encodeWord i) = true ∧ r.build (encodeWord i) (encodeOperands i) = i

/-- The position of a row gives the statement. -/
theorem of_row (i : Instr) (k : Nat) (r : Row) (hk : opcodeMap[k]? = some r)
    (hs : r.selects (encodeWord i) = true) (hb : r.build (encodeWord i) (encodeOperands i) = i) : Statement i :=
  ⟨r, List.mem_of_getElem? hk, hs, hb⟩

theorem rdTx (t : VarName) : Statement (.rdTx t) :=
  of_row _ 0 _ rfl (by simp only [Row.selects, encodeWord]; decide) rfl

theorem rdRx (t : VarName) : Statement (.rdRx t) :=
  of_row _ 1 _ rfl (by simp only [Row.selects, encodeWord]; decide) rfl

theorem rdStatus (t : VarName) : Statement (.rdStatus t) :=
  of_row _ 2 _ rfl (by simp only [Row.selects, encodeWord]; decide) rfl

theorem rdMask (t : VarName) : Statement (.rdMask t) :=
  of_row _ 3 _ rfl (by simp only [Row.selects, encodeWord]; decide) rfl

theorem rdClr (t : VarName) : Statement (.rdClr t) :=
  of_row _ 4 _ rfl (by simp only [Row.selects, encodeWord]; decide) rfl

theorem wrTx (x : Expr) : Statement (.wrTx x) :=
  of_row _ 5 _ rfl (by simp only [Row.selects, encodeWord]; decide) rfl

theorem wrRx (x : Expr) : Statement (.wrRx x) :=
  of_row _ 6 _ rfl (by simp only [Row.selects, encodeWord]; decide) rfl

theorem wrStatus (x : Expr) : Statement (.wrStatus x) :=
  of_row _ 7 _ rfl (by simp only [Row.selects, encodeWord]; decide) rfl

theorem wrMask (x : Expr) : Statement (.wrMask x) :=
  of_row _ 8 _ rfl (by simp only [Row.selects, encodeWord]; decide) rfl

theorem wrClr (x : Expr) : Statement (.wrClr x) :=
  of_row _ 9 _ rfl (by simp only [Row.selects, encodeWord]; decide) rfl

theorem alloc (d : DescName) (extra : Nat) (t : VarName) : Statement (.alloc d extra t) :=
  of_row _ 10 _ rfl (by simp only [Row.selects, encodeWord]; decide) rfl

theorem configPort (d : DescName) (x : Expr) : Statement (.configPort d x) :=
  of_row _ 11 _ rfl (by simp only [Row.selects, encodeWord]; decide) rfl

theorem configId (d : DescName) (x : Expr) : Statement (.configId d x) :=
  of_row _ 12 _ rfl (by simp only [Row.selects, encodeWord]; decide) rfl

theorem configHandshake (d : DescName) (x : Expr) : Statement (.configHandshake d x) :=
  of_row _ 13 _ rfl (by simp only [Row.selects, encodeWord]; decide) rfl

theorem configHasReceive (d : DescName) (x : Expr) : Statement (.configHasReceive d x) :=
  of_row _ 14 _ rfl (by simp only [Row.selects, encodeWord]; decide) rfl

theorem configHasTxDrained (d : DescName) (x : Expr) : Statement (.configHasTxDrained d x) :=
  of_row _ 15 _ rfl (by simp only [Row.selects, encodeWord]; decide) rfl

theorem register (d : DescName) (t : VarName) : Statement (.register d t) :=
  of_row _ 16 _ rfl (by simp only [Row.selects, encodeWord]; decide) rfl

theorem unregister (d : DescName) (t : VarName) : Statement (.unregister d t) :=
  of_row _ 17 _ rfl (by simp only [Row.selects, encodeWord]; decide) rfl

theorem send (d : DescName) (msg : MsgExpr) (t : VarName) : Statement (.send d msg t) :=
  of_row _ 18 _ rfl (by simp only [Row.selects, encodeWord]; decide) rfl

theorem bringup (t : VarName) : Statement (.bringup t) :=
  of_row _ 19 _ rfl (by simp only [Row.selects, encodeWord]; decide) rfl

theorem dispatch : Statement .dispatch :=
  of_row _ 20 _ rfl (by simp only [Row.selects, encodeWord]; decide) rfl

theorem pwrite_fields : ∀ (w : WordIdx) (p : Port) (c : Chan),
    ((0x30000000 : Word) ||| encodeWPC w p c) &&& 0xFFFFFFC0 = 0x30000000 ∧ fieldW (0x30000000 ||| encodeWPC w p c) = w ∧
      fieldP (0x30000000 ||| encodeWPC w p c) = p ∧ fieldCh (0x30000000 ||| encodeWPC w p c) = c := by
  intro w p
  cases p <;> revert w <;> decide +kernel

theorem pwrite (w : WordIdx) (p : Port) (c : Chan) (x : Expr) : Statement (.pwrite w p c x) := by
  obtain ⟨h1, h2, h3, h4⟩ := pwrite_fields w p c
  refine of_row _ 21 _ rfl (beq_iff_eq.2 h1) ?_
  show Instr.pwrite _ _ _ _ = _
  simp only [encodeWord, encodeOperands, h2, h3, h4]

theorem ppost_fields : ∀ (p : Port) (c : Chan),
    ((0x31000000 : Word) ||| encodePC p c) &&& 0xFFFFFFF0 = 0x31000000 ∧ fieldP (0x31000000 ||| encodePC p c) = p ∧
      fieldCh (0x31000000 ||| encodePC p c) = c := by
  intro p
  cases p <;> decide +kernel

theorem ppost (p : Port) (c : Chan) : Statement (.ppost p c) := by
  obtain ⟨h1, h2, h3⟩ := ppost_fields p c
  refine of_row _ 22 _ rfl (beq_iff_eq.2 h1) ?_
  show Instr.ppost _ _ = _
  simp only [encodeWord, h2, h3]

theorem pread_fields : ∀ (w : WordIdx) (p : Port) (c : Chan),
    ((0x32000000 : Word) ||| encodeWPC w p c) &&& 0xFFFFFFC0 = 0x32000000 ∧ fieldW (0x32000000 ||| encodeWPC w p c) = w ∧
      fieldP (0x32000000 ||| encodeWPC w p c) = p ∧ fieldCh (0x32000000 ||| encodeWPC w p c) = c := by
  intro w p
  cases p <;> revert w <;> decide +kernel

theorem pread (w : WordIdx) (p : Port) (c : Chan) (t : VarName) : Statement (.pread w p c t) := by
  obtain ⟨h1, h2, h3, h4⟩ := pread_fields w p c
  refine of_row _ 23 _ rfl (beq_iff_eq.2 h1) ?_
  show Instr.pread _ _ _ _ = _
  simp only [encodeWord, encodeOperands, h2, h3, h4]

theorem pdrain_fields : ∀ (p : Port) (c : Chan),
    ((0x33000000 : Word) ||| encodePC p c) &&& 0xFFFFFFF0 = 0x33000000 ∧ fieldP (0x33000000 ||| encodePC p c) = p ∧
      fieldCh (0x33000000 ||| encodePC p c) = c := by
  intro p
  cases p <;> decide +kernel

theorem pdrain (p : Port) (c : Chan) : Statement (.pdrain p c) := by
  obtain ⟨h1, h2, h3⟩ := pdrain_fields p c
  refine of_row _ 24 _ rfl (beq_iff_eq.2 h1) ?_
  show Instr.pdrain _ _ = _
  simp only [encodeWord, h2, h3]

theorem syncIn_fields : ∀ (p : Port) (c : Chan),
    ((0x40000000 : Word) ||| encodePC p c) &&& 0xFFFFFFF0 = 0x40000000 ∧ fieldP (0x40000000 ||| encodePC p c) = p ∧
      fieldCh (0x40000000 ||| encodePC p c) = c := by
  intro p
  cases p <;> decide +kernel

theorem syncIn (p : Port) (c : Chan) : Statement (.syncIn p c) := by
  obtain ⟨h1, h2, h3⟩ := syncIn_fields p c
  refine of_row _ 25 _ rfl (beq_iff_eq.2 h1) ?_
  show Instr.syncIn _ _ = _
  simp only [encodeWord, h2, h3]

theorem syncOut_fields : ∀ (p : Port) (c : Chan),
    ((0x41000000 : Word) ||| encodePC p c) &&& 0xFFFFFFF0 = 0x41000000 ∧ fieldP (0x41000000 ||| encodePC p c) = p ∧
      fieldCh (0x41000000 ||| encodePC p c) = c := by
  intro p
  cases p <;> decide +kernel

theorem syncOut (p : Port) (c : Chan) : Statement (.syncOut p c) := by
  obtain ⟨h1, h2, h3⟩ := syncOut_fields p c
  refine of_row _ 26 _ rfl (beq_iff_eq.2 h1) ?_
  show Instr.syncOut _ _ = _
  simp only [encodeWord, h2, h3]

end Sys2Proof.Laws.RowBuilds
end

