-- ==== Sys2Proof/Laws/Registration.lean ====
section
/-! SUPPORT. What the draws and the bodies of ALLOC, REGISTER, UNREGISTER and DISPATCH's demultiplex step do, each said
once as a record update. -/

namespace Sys2Proof.Machine

/-- A draw changes only the tape and its counter. -/
theorem State.afterDraw_eq (s : State) :
    s.afterDraw = { s with tape := s.afterDraw.tape, drawn := s.afterDraw.drawn } := by
  unfold State.afterDraw
  split <;> rfl

/-- Two draws change only the tape and its counter. -/
theorem State.afterDraw_afterDraw_eq (s : State) :
    s.afterDraw.afterDraw =
      { s with tape := s.afterDraw.afterDraw.tape, drawn := s.afterDraw.afterDraw.drawn } := by
  rw [State.afterDraw_eq s.afterDraw]
  simp

/-- What a successful ALLOC adds (R241). -/
theorem State.allocate_eq (s : State) (d : DescName) (extra : Nat) :
    s.allocate d extra =
      { s with
        desc := s.desc ++
          [⟨s.drawWord, idUnassigned, s.afterDraw.drawBool, s.afterDraw.afterDraw.drawBool,
            s.afterDraw.afterDraw.afterDraw.drawBool, extra⟩]
        names := Assoc.put s.names d s.desc.length
        tape := s.afterDraw.afterDraw.afterDraw.afterDraw.tape
        drawn := s.afterDraw.afterDraw.afterDraw.afterDraw.drawn } := by
  unfold State.allocate
  dsimp only
  rw [State.afterDraw_afterDraw_eq s.afterDraw.afterDraw]
  simp

/-- "enable-on-first-register" (R243). -/
theorem State.openLine_eq (s : State) :
    s.openLine = { s with lineEn := s.lineEn || decide (s.registeredCount = 0) } := by
  unfold State.openLine
  by_cases h : s.registeredCount = 0 <;> simp [h]

theorem State.openLine_of_registered {s : State} (h : 0 < s.registeredCount) : s.openLine = s := by
  unfold State.openLine
  rw [if_neg (by omega)]

/-- A registered channel is counted (R45). -/
theorem State.registeredCount_pos {s : State} {p : Port} {j : Chan} {e : Entry} (h : s.table.get p j = some e) :
    0 < s.registeredCount := by
  have := tableSize_pos h
  unfold State.registeredCount
  cases p <;> omega

/-- The successful end of REGISTER (R243, R244). -/
theorem State.install_eq {s : State} {h : Handle} {D : Desc} (p : Port) (c : Chan) (hD : s.desc[h]? = some D) :
    s.install h D p c =
      { s with
        desc := s.desc.set h { D with id := c.val }
        table := s.table.set p c (some ⟨h, D.handshake, D.hasTxDrained, rslot p c, wslot p c⟩)
        free := s.free.set p (s.free.get p - 1)
        mask := s.mask ||| bit (s.cfg.fullBit p c) |||
          (if D.handshake then bit (s.cfg.emptyBit p c) else 0) } := by
  simp only [State.install, State.setDescId, State.unmask, State.mmioRead, State.mmioWrite,
    modify_eq_set _ _ _ _ hD]
  cases D.handshake <;> simp

/-- Everything REGISTER's body can do (R243, R245). -/
theorem State.register_cases {s : State} {h : Handle} {D : Desc} (hD : s.desc[h]? = some D) :
    s.register h D = (s, .invalidArgument) ∨
    (∃ p, (s.free.get p = 0 ∨ s.firstFree p = none) ∧ s.register h D = (s.openLine, .resourceExhausted)) ∨
    (∃ p j e, D.id = j.val ∧ s.table.get p j = some e ∧
      s.register h D = ({ s with desc := s.desc.set h { D with id := idRejected } }, .alreadyAssigned)) ∨
    ∃ p j, D.port = p.toWord ∧ (D.id = j.val ∨ D.id = idUnassigned) ∧ s.free.get p ≠ 0 ∧
      s.table.get p j = none ∧
      s.register h D =
        ({ s with
            lineEn := s.lineEn || decide (s.registeredCount = 0)
            desc := s.desc.set h { D with id := j.val }
            table := s.table.set p j (some ⟨h, D.handshake, D.hasTxDrained, rslot p j, wslot p j⟩)
            free := s.free.set p (s.free.get p - 1)
            mask := s.mask ||| bit (s.cfg.fullBit p j) |||
              (if D.handshake then bit (s.cfg.emptyBit p j) else 0) }, .ok) := by
  unfold State.register
  split
  · exact .inl rfl
  · split
    · exact .inl rfl
    · next p hp =>
      have hp := Port.ofWord_eq_some.1 hp
      split
      · exact .inl rfl
      · next hle =>
        split
        · next hf => exact .inr (.inl ⟨p, .inl (by simpa using hf), rfl⟩)
        · next hf =>
          have hDo : s.openLine.desc[h]? = some D := hD
          split
          · next hid =>
            split
            · next ht =>
              obtain ⟨e, he⟩ := Option.isSome_iff_exists.1 ht
              have he : s.table.get p ⟨D.id, hid⟩ = some e := he
              refine .inr (.inr (.inl ⟨p, ⟨D.id, hid⟩, e, rfl, he, ?_⟩))
              rw [State.openLine_of_registered (State.registeredCount_pos he)]
              simp only [State.setDescId, modify_eq_set _ _ _ _ hD]
            · next ht =>
              refine .inr (.inr (.inr ⟨p, ⟨D.id, hid⟩, hp, .inl rfl, hf, by simpa using ht, ?_⟩))
              rw [State.install_eq _ _ hDo, State.openLine_eq]
          · next hid =>
            split
            · next c hc =>
              have hn := List.find?_some hc
              refine .inr (.inr (.inr ⟨p, c, hp, .inr ?_, hf, by simpa using hn, ?_⟩))
              · simp only [idUnassigned] at hle ⊢
                omega
              · rw [State.install_eq _ _ hDo, State.openLine_eq]
            · next hc => exact .inr (.inl ⟨p, .inr hc, rfl⟩)

/-- Everything UNREGISTER's body can do (R247). -/
theorem State.unregister_cases (s : State) (h : Handle) :
    (s.entryOf h = none ∧ s.unregister h = (s, .notRegistered)) ∨
    ∃ p j e, s.table.get p j = some e ∧ e.d = h ∧
      s.unregister h =
        ({ s with
            mask := s.mask &&& ~~~(bit (s.cfg.fullBit p j) ||| bit (s.cfg.emptyBit p j))
            table := s.table.set p j none
            free := s.free.set p (s.free.get p + 1)
            lineEn := s.lineEn && decide (s.registeredCount ≠ 1) }, .ok) := by
  unfold State.unregister
  split
  · next h => exact .inl ⟨h, rfl⟩
  · next p j hs =>
    obtain ⟨e, he, hd⟩ := State.entryOf_eq_some hs
    refine .inr ⟨p, j, e, he, hd, ?_⟩
    have hcount : tableSize (s.table.set p j none) .np + tableSize (s.table.set p j none) .lp = 0 ↔
        s.registeredCount = 1 := by
      have h1 := tableSize_set s.table p .np j none
      have h2 := tableSize_set s.table p .lp j none
      unfold State.registeredCount
      cases p <;> simp [he] at h1 h2 <;> omega
    simp only [State.removeEntry, State.mmioRead, State.mmioWrite, hcount]
    by_cases hh : s.registeredCount = 1 <;> simp [hh]

/-- What the demultiplex step of DISPATCH does (R307). -/
theorem State.startRun_eq (s : State) (w m : Word) :
    s.startRun w m =
      { s with
        dphase := .run w m (w &&& m) (s.buildWork (w &&& m) s.drawOrder s.afterDraw.drawOrder) .k0
        tape := s.afterDraw.afterDraw.tape
        drawn := s.afterDraw.afterDraw.drawn } := by
  unfold State.startRun
  dsimp only
  rw [State.afterDraw_afterDraw_eq]

end Sys2Proof.Machine
end

