-- ==== Sys2Proof/Machine/Assembler.lean ====
section
/-! DEFINITION. The assembler syntax (R150) with the pseudo-operations (R151): text of one operation a line, as lists of
characters, to operations. Names become numbers by a table of the names seen so far (log 12, 23). -/

namespace Sys2Proof.Machine

/-- A token: a name or keyword, a number, or a punctuation character. -/
inductive Tok where
  | word (name : List Char)
  | num (n : Nat)
  | sym (c : Char)
deriving DecidableEq, Repr

/-- The value of a digit, decimal or hexadecimal. -/
def digitOf (c : Char) : Option Nat :=
  let n := c.toNat
  if 48 ≤ n ∧ n ≤ 57 then some (n - 48)
  else if 97 ≤ n ∧ n ≤ 102 then some (n - 87)
  else if 65 ≤ n ∧ n ≤ 70 then some (n - 55)
  else none

/-- The number with the given digits after the value read so far. -/
def digitsOf (base : Nat) : Nat → List Char → Option Nat
  | acc, [] => some acc
  | acc, c :: rest =>
    match digitOf c with
    | some d => if d < base then digitsOf base (acc * base + d) rest else none
    | none => none

/-- A number: decimal or `0x` hexadecimal (R150). -/
def numberOf : List Char → Option Nat
  | '0' :: 'x' :: c :: rest => digitsOf 16 0 (c :: rest)
  | c :: rest => digitsOf 10 0 (c :: rest)
  | [] => none

/-- A character of a name or number. -/
def isWordChar (c : Char) : Bool :=
  let n := c.toNat
  (48 ≤ n && n ≤ 57) || (65 ≤ n && n ≤ 90) || (97 ≤ n && n ≤ 122) || n == 95

/-- The token of a run of word characters: a number if it starts with a digit. -/
def wordTok : List Char → Option Tok
  | [] => none
  | c :: rest =>
    if 48 ≤ c.toNat ∧ c.toNat ≤ 57 then (numberOf (c :: rest)).map Tok.num else some (.word (c :: rest))

/-- Put the run of word characters read so far in front of the later tokens. -/
def flush (run : List Char) (later : Option (List Tok)) : Option (List Tok) :=
  match run with
  | [] => later
  | c :: rest =>
    match wordTok (c :: rest), later with
    | some t, some ts => some (t :: ts)
    | _, _ => none

/-- The tokens of a line; `;` starts a comment (R150); none where a number is malformed. `run` holds the word characters
read so far. -/
def lex (run : List Char) : List Char → Option (List Tok)
  | [] => flush run (some [])
  | c :: rest =>
    if isWordChar c then lex (run ++ [c]) rest
    else if c = ';' then flush run (some [])
    else if c = ' ' ∨ c = '\t' ∨ c = '\r' then flush run (lex [] rest)
    else flush run ((lex [] rest).map (fun ts => Tok.sym c :: ts))

/-- The names seen so far: a name stands for its position. -/
structure Symbols where
  vars : List (List Char)
  descs : List (List Char)
deriving DecidableEq, Repr

/-- No name yet. -/
def Symbols.empty : Symbols := ⟨[], []⟩

/-- The position of a name, and the table with the name added if it is new. -/
def internName (l : List (List Char)) (name : List Char) : Nat × List (List Char) :=
  if l.idxOf name < l.length then (l.idxOf name, l) else (l.length, l ++ [name])

/-- The result variable of a name. -/
def Symbols.var (sy : Symbols) (name : List Char) : VarName × Symbols :=
  ((internName sy.vars name).1, { sy with vars := (internName sy.vars name).2 })

/-- The descriptor name of a name. -/
def Symbols.desc (sy : Symbols) (name : List Char) : DescName × Symbols :=
  ((internName sy.descs name).1, { sy with descs := (internName sy.descs name).2 })

/-- The variable that receives a result code: R150 gives it no place in the text, so it has the fixed name `rc`
(DESIGN CHOICE, log 12). -/
def Symbols.code (sy : Symbols) : VarName × Symbols := sy.var ['r', 'c']

/-- An operand x (R150): numbers and bound names with `|`, `&`, `~` and parentheses. Level 0 reads `|`, level 1 `&`,
level 2 `~` and atoms (DESIGN CHOICE, log 23: `~` binds tightest, then `&`). -/
def parseExpr (sy : Symbols) : Nat → Nat → List Tok → Option (Expr × List Tok)
  | 0, _, _ => none
  | fuel + 1, 0, ts =>
    match parseExpr sy fuel 1 ts with
    | some (e, .sym '|' :: rest) =>
      match parseExpr sy fuel 0 rest with
      | some (f, rest') => some (.or e f, rest')
      | none => none
    | r => r
  | fuel + 1, 1, ts =>
    match parseExpr sy fuel 2 ts with
    | some (e, .sym '&' :: rest) =>
      match parseExpr sy fuel 1 rest with
      | some (f, rest') => some (.and e f, rest')
      | none => none
    | r => r
  | fuel + 1, _, ts =>
    match ts with
    | .sym '~' :: rest =>
      match parseExpr sy fuel 2 rest with
      | some (e, rest') => some (.not e, rest')
      | none => none
    | .sym '(' :: rest =>
      match parseExpr sy fuel 0 rest with
      | some (e, .sym ')' :: rest') => some (e, rest')
      | _ => none
    | .num n :: rest => if n < 2 ^ 32 then some (.lit (BitVec.ofNat 32 n), rest) else none
    | .word w :: rest =>
      if sy.vars.idxOf w < sy.vars.length then some (.var (sy.vars.idxOf w), rest) else none
    | _ => none

/-- An operand x at the front of the tokens. -/
def operand (sy : Symbols) (ts : List Tok) : Option (Expr × List Tok) := parseExpr sy (4 * ts.length + 4) 0 ts

/-- An operand x that ends the line. -/
def lastOperand (sy : Symbols) (ts : List Tok) : Option Expr :=
  match operand sy ts with
  | some (e, []) => some e
  | _ => none

/-- The four words of a message between braces (character codes 123 and 125), ending the line. -/
def messageOperand (sy : Symbols) (ts : List Tok) : Option MsgExpr :=
  match ts with
  | .sym c :: ts0 =>
    if c.toNat = 123 then
      match operand sy ts0 with
      | some (w0, .sym ',' :: ts1) =>
        match operand sy ts1 with
        | some (w1, .sym ',' :: ts2) =>
          match operand sy ts2 with
          | some (w2, .sym ',' :: ts3) =>
            match operand sy ts3 with
            | some (w3, [.sym c']) => if c'.toNat = 125 then some ⟨w0, w1, w2, w3⟩ else none
            | _ => none
          | _ => none
        | _ => none
      | _ => none
    else none
  | _ => none

/-- `NP` or `LP`. -/
def portName : List Char → Option Port
  | ['N', 'P'] => some .np
  | ['L', 'P'] => some .lp
  | _ => none

/-- A channel 0..7. -/
def chanNum (n : Nat) : Option Chan := if h : n < 8 then some ⟨n, h⟩ else none

/-- A word index 0..3. -/
def wordNum (n : Nat) : Option WordIdx := if h : n < 4 then some ⟨n, h⟩ else none

/-- `P, c` at the front of the tokens. -/
def portChan : List Tok → Option ((Port × Chan) × List Tok)
  | .word w :: .sym ',' :: .num n :: rest =>
    match portName w, chanNum n with
    | some p, some c => some ((p, c), rest)
    | _, _ => none
  | _ => none

/-- `P, c` that ends the line. -/
def lastPortChan (ts : List Tok) : Option (Port × Chan) :=
  match portChan ts with
  | some (pc, []) => some pc
  | _ => none

/-- The register of a name. -/
def regName : List Char → Option Reg
  | ['T', 'X'] => some .tx
  | ['R', 'X'] => some .rx
  | ['S', 'T', 'A', 'T', 'U', 'S'] => some .status
  | ['M', 'A', 'S', 'K'] => some .mask
  | ['C', 'L', 'R'] => some .clr
  | _ => none

/-- The value of `config d.port`: `NP`, `LP` or an operand. -/
def portOperand (sy : Symbols) (ts : List Tok) : Option Expr :=
  match ts with
  | [.word ['N', 'P']] => some (.lit 0)
  | [.word ['L', 'P']] => some (.lit 1)
  | _ => lastOperand sy ts

/-- `config d.f, x` for the field of a name. -/
def configField (sy : Symbols) (d : DescName) (f : List Char) (ts : List Tok) : Option Instr :=
  match f with
  | ['p', 'o', 'r', 't'] => (portOperand sy ts).map (fun x => .configPort d x)
  | ['i', 'd'] => (lastOperand sy ts).map (fun x => .configId d x)
  | ['h', 's'] => (lastOperand sy ts).map (fun x => .configHandshake d x)
  | ['r', 'c', 'v'] => (lastOperand sy ts).map (fun x => .configHasReceive d x)
  | ['t', 'x', 'd'] => (lastOperand sy ts).map (fun x => .configHasTxDrained d x)
  | _ => none

/-- A line that starts with `peer.` and the given name (R150, R151). -/
def peerLine (sy : Symbols) (op : List Char) (ts : List Tok) : Option (List Instr × Symbols) :=
  match portChan ts with
  | none => none
  | some ((p, c), rest) =>
    match op, rest with
    | ['w', 'r', 'i', 't', 'e'], .sym ',' :: .num n :: .sym ',' :: r =>
      match wordNum n, lastOperand sy r with
      | some w, some x => some ([.pwrite w p c x], sy)
      | _, _ => none
    | ['p', 'o', 's', 't'], [] => some ([.ppost p c], sy)
    | ['r', 'e', 'a', 'd'], [.sym ',', .num n, .sym '-', .sym '>', .word t] =>
      match wordNum n with
      | some w => some ([.pread w p c (sy.var t).1], (sy.var t).2)
      | none => none
    | ['d', 'r', 'a', 'i', 'n'], [] => some ([.pdrain p c], sy)
    | ['s', 'e', 'n', 'd'], .sym ',' :: r => (messageOperand sy r).map (fun m => (pseudoPeerSend p c m, sy))
    | ['c', 'o', 'n', 's', 'u', 'm', 'e'], [] =>
      let r0 := sy.var ['t', '0']
      let r1 := r0.2.var ['t', '1']
      let r2 := r1.2.var ['t', '2']
      let r3 := r2.2.var ['t', '3']
      some (pseudoPeerConsume p c r0.1 r1.1 r2.1 r3.1, r3.2)
    | _, _ => none

/-- The operations of one line of tokens (R150, R151). R150 lets `alloc d` omit `extra` and gives no default: an omitted
`extra` is 0 (DESIGN CHOICE, log 29). -/
def assembleLine (cfg : Params) (sy : Symbols) (ts : List Tok) : Option (List Instr × Symbols) :=
  match ts with
  | [] => some ([], sy)
  | [.word ['r', 'd'], .word r, .sym '-', .sym '>', .word t] =>
    (regName r).map (fun r => ([rdInstr r (sy.var t).1], (sy.var t).2))
  | .word ['w', 'r'] :: .word r :: .sym ',' :: rest =>
    match regName r, lastOperand sy rest with
    | some r, some x => some ([wrInstr r x], sy)
    | _, _ => none
  | [.word ['a', 'l', 'l', 'o', 'c'], .word d] =>
    some ([.alloc (sy.desc d).1 0 (sy.desc d).2.code.1], (sy.desc d).2.code.2)
  | [.word ['a', 'l', 'l', 'o', 'c'], .word d, .sym ',', .num n] =>
    some ([.alloc (sy.desc d).1 n (sy.desc d).2.code.1], (sy.desc d).2.code.2)
  | .word ['c', 'o', 'n', 'f', 'i', 'g'] :: .word d :: .sym '.' :: .word f :: .sym ',' :: rest =>
    (configField sy (sy.desc d).1 f rest).map (fun i => ([i], (sy.desc d).2))
  | [.word ['r', 'e', 'g', 'i', 's', 't', 'e', 'r'], .word d] =>
    some ([.register (sy.desc d).1 (sy.desc d).2.code.1], (sy.desc d).2.code.2)
  | [.word ['u', 'n', 'r', 'e', 'g', 'i', 's', 't', 'e', 'r'], .word d] =>
    some ([.unregister (sy.desc d).1 (sy.desc d).2.code.1], (sy.desc d).2.code.2)
  | .word ['s', 'e', 'n', 'd'] :: .word d :: .sym ',' :: rest =>
    (messageOperand sy rest).map
      (fun m => ([.send (sy.desc d).1 m (sy.desc d).2.code.1], (sy.desc d).2.code.2))
  | [.word ['b', 'r', 'i', 'n', 'g', 'u', 'p']] => some ([.bringup sy.code.1], sy.code.2)
  | [.word ['d', 'i', 's', 'p', 'a', 't', 'c', 'h']] => some ([.dispatch], sy)
  | .word ['p', 'e', 'e', 'r'] :: .sym '.' :: .word op :: rest => peerLine sy op rest
  | .word ['s', 'y', 'n', 'c'] :: .sym '.' :: .word ['i', 'n'] :: rest =>
    (lastPortChan rest).map (fun pc => ([.syncIn pc.1 pc.2], sy))
  | .word ['s', 'y', 'n', 'c'] :: .sym '.' :: .word ['o', 'u', 't'] :: rest =>
    (lastPortChan rest).map (fun pc => ([.syncOut pc.1 pc.2], sy))
  | [.word ['a', 'c', 'k']] => some (pseudoAck (sy.var ['t']).1, (sy.var ['t']).2)
  | .word ['u', 'n', 'm', 'a', 's', 'k'] :: rest =>
    match portChan rest with
    | some ((p, c), [.sym ',', .word ['f', 'u', 'l', 'l']]) =>
      some (pseudoUnmaskFull cfg p c (sy.var ['t']).1, (sy.var ['t']).2)
    | some ((p, c), [.sym ',', .word ['e', 'm', 'p', 't', 'y']]) =>
      some (pseudoUnmaskEmpty cfg p c (sy.var ['t']).1, (sy.var ['t']).2)
    | _ => none
  | .word ['m', 'a', 's', 'k'] :: rest =>
    (lastPortChan rest).map (fun pc => (pseudoMask cfg pc.1 pc.2 (sy.var ['t']).1, (sy.var ['t']).2))
  | .word ['p', 'o', 's', 't'] :: rest =>
    (lastPortChan rest).map (fun pc => (pseudoPost cfg pc.1 pc.2 (sy.var ['t']).1, (sy.var ['t']).2))
  | .word ['w', 'i', 't', 'h', 'd', 'r', 'a', 'w'] :: rest =>
    (lastPortChan rest).map (fun pc => (pseudoWithdraw cfg pc.1 pc.2, sy))
  | _ => none

/-- The operations of a text of lines, one operation or pseudo-operation a line (R150); none where a line spells no
operation. -/
def assemble (cfg : Params) (sy : Symbols) : List (List Char) → Option (List Instr)
  | [] => some []
  | line :: rest =>
    match lex [] line with
    | none => none
    | some ts =>
      match assembleLine cfg sy ts with
      | none => none
      | some (is, sy') => (assemble cfg sy' rest).map (fun more => is ++ more)

end Sys2Proof.Machine
end

