-- ==== Sys2Proof/Tests/Slice0.lean ====
section
/-! SUPPORT. Tests: the static checks refuse ill-formed terms; words written out from 30_encoding.md and
95_test_vectors.md decode as they say; single steps of the vectors of 95_test_vectors.md; and for every statement with
hypotheses a concrete case that meets them. Expected values are the spec's, not the model's. -/

namespace Sys2Proof.Tests

open Sys2Proof.Machine
open Sys2Proof.Claims

-- One theorem at a time: many small ones at once each ask for a thread's stack.
set_option Elab.async false

/-! ### Helpers -/

/-- The next state of an outcome. -/
def nextOf : Out → Option State
  | .next u => some u
  | .fault _ => none
  | .refused _ => none

/-- One look at the state after one operation. -/
def after {α : Type} (i : Instr) (s : State) (look : State → α) : Option α := (nextOf (exec i s)).map look

/-- A literal operand. -/
def n32 (v : Word) : Expr := .lit v

/-- A descriptor of the vectors: (port, id, hs, rcv, txd), `extra` 0. -/
def descOf (port : Word) (id : Nat) (hs rcv txd : Bool) : Desc := ⟨port, id, hs, rcv, txd, 0⟩

/-- `dev = OK` and one descriptor, bound to the name 0 and not registered. -/
def withDesc (D : Desc) : State := { State.reset with dev := .ok, desc := [D], names := [(0, 0)] }

/-- The descriptor 0 registered as (p, c), all else as REGISTER leaves it. -/
def registered (p : Port) (c : Chan) (hs txd : Bool) : State :=
  { withDesc ⟨p.toWord, c.val, hs, true, txd, 0⟩ with
    lineEn := true
    table := (Chans.fill none).set p c (some ⟨0, hs, txd, rslot p c, wslot p c⟩)
    free := PerPort.set ⟨8, 8⟩ p 7
    mask := bit (Params.reference.fullBit p c) ||| (if hs then bit (Params.reference.emptyBit p c) else 0) }

/-- A state with a SEND of Caller 0 in progress at a phase. -/
def sending (s : State) (l : SendLocals) : State := { s with callers := [⟨Stream.reset, some l⟩] }

/-- The step is the Dispatcher's, in a phase. -/
def dispatching (s : State) (d : DPhase) : State := { s with cur := .dispatcher, dphase := d }

/-- The step is a peer's. -/
def asPeer (s : State) (p : Port) : State := { s with cur := .peer p }

/-- Caller 0 of the reset state. -/
def caller0 : Caller := ⟨Stream.reset, none⟩

/-! ### Well-formedness: each check refuses an ill-formed term -/

theorem test_wf_reference : Params.reference.wf = true := by decide
theorem test_wf_misaligned_offset : { Params.reference with offMask := 0x0D }.wf = false := by decide
theorem test_wf_equal_offsets : { Params.reference with offClr := 0x00 }.wf = false := by decide
theorem test_wf_overlapping_data_fields : { Params.reference with lpDataLsb := 7 }.wf = false := by decide
theorem test_wf_data_field_outside_word : { Params.reference with lpDataLsb := 25 }.wf = false := by decide
theorem test_wf_overlapping_status_fields : { Params.reference with npFullLsb := 8 }.wf = false := by decide
theorem test_wf_misaligned_shm : { Params.reference with shmBase := 2 }.wf = false := by decide
theorem test_wf_no_caller : { Params.reference with nCallers := 0 }.wf = false := by decide
theorem test_wf_flag_operand : (Instr.configHandshake 0 (.lit 2)).wf = false := by decide
theorem test_wf_foreign_operation : programWf (.caller 0) [] [.dispatch] = false := by decide
theorem test_wf_unbound_name : programWf (.caller 0) [] [.wrTx (.var 0)] = false := by decide
theorem test_wf_program : programWf (.caller 0) [] [.rdTx 0, .wrTx (.or (.var 0) (.lit 1))] = true := by decide

/-- R369: a post with one of the four words unwritten, and a second post of the same channel with no new write. -/
theorem test_wf_post_before_writing :
    writesBeforePosts [] [.pwrite 0 .lp 3 (.lit 1), .pwrite 1 .lp 3 (.lit 1), .pwrite 3 .lp 3 (.lit 1), .ppost .lp 3] =
      false := by decide
theorem test_wf_second_post_without_writing :
    writesBeforePosts []
      (pseudoPeerSend .lp 3 ⟨.lit 0xA5, .lit 0x12345678, .lit 4, .lit 0⟩ ++ [.ppost .lp 3]) = false := by decide

/-! ### Decoding: one word written out for every operation (30_encoding.md R141 to R148) -/

/-- What a word decodes to with the default operands. -/
def dec (w : Word) : Option Instr := decodeTableWord 32 w.toNat

theorem test_decode_rd_tx : dec 0x00000000 = some (.rdTx 0) := by decide
theorem test_decode_rd_rx : dec 0x00000001 = some (.rdRx 0) := by decide
theorem test_decode_rd_status : dec 0x00000002 = some (.rdStatus 0) := by decide
theorem test_decode_rd_mask : dec 0x00000003 = some (.rdMask 0) := by decide
theorem test_decode_rd_clr : dec 0x00000004 = some (.rdClr 0) := by decide
theorem test_decode_wr_tx : dec 0x08000000 = some (.wrTx (.lit 0)) := by decide
theorem test_decode_wr_rx : dec 0x08000001 = some (.wrRx (.lit 0)) := by decide
theorem test_decode_wr_status : dec 0x08000002 = some (.wrStatus (.lit 0)) := by decide
theorem test_decode_wr_mask : dec 0x08000003 = some (.wrMask (.lit 0)) := by decide
theorem test_decode_wr_clr : dec 0x08000004 = some (.wrClr (.lit 0)) := by decide
theorem test_decode_alloc : dec 0x10000000 = some (.alloc 0 0 0) := by decide
theorem test_decode_config_port : dec 0x11000000 = some (.configPort 0 (.lit 0)) := by decide
theorem test_decode_config_id : dec 0x11000001 = some (.configId 0 (.lit 0)) := by decide
theorem test_decode_config_hs : dec 0x11000002 = some (.configHandshake 0 (.lit 0)) := by decide
theorem test_decode_config_rcv : dec 0x11000003 = some (.configHasReceive 0 (.lit 0)) := by decide
theorem test_decode_config_txd : dec 0x11000004 = some (.configHasTxDrained 0 (.lit 0)) := by decide
theorem test_decode_register : dec 0x12000000 = some (.register 0 0) := by decide
theorem test_decode_unregister : dec 0x13000000 = some (.unregister 0 0) := by decide
theorem test_decode_send : dec 0x14000000 = some (.send 0 ⟨.lit 0, .lit 0, .lit 0, .lit 0⟩ 0) := by decide
theorem test_decode_bringup : dec 0x15000000 = some (.bringup 0) := by decide
theorem test_decode_dispatch : dec 0x20000000 = some .dispatch := by decide
theorem test_decode_pwrite : dec 0x3000003B = some (.pwrite 3 .lp 3 (.lit 0)) := by decide
theorem test_decode_ppost : dec 0x3100000B = some (.ppost .lp 3) := by decide
theorem test_decode_pread : dec 0x32000021 = some (.pread 2 .np 1 0) := by decide
theorem test_decode_pdrain : dec 0x33000007 = some (.pdrain .np 7) := by decide
theorem test_decode_sync_in : dec 0x40000009 = some (.syncIn .lp 1) := by decide
theorem test_decode_sync_out : dec 0x4100000F = some (.syncOut .lp 7) := by decide

/-- The illegal words of 95_test_vectors.md 2.2, and the words just past the end of each field's range (R149). -/
theorem test_illegal_words :
    ([0x00000005, 0x00000008, 0x00000007, 0x0800000F, 0x08000005, 0x04000000, 0x10000001, 0x11000005, 0x11000010,
      0x16000000, 0x12000001, 0x20000001, 0x21000000, 0x30000040, 0x31000010, 0x33000020, 0x34000000, 0x32000080,
      0x40000010, 0x41000100, 0x42000000, 0x50000000, 0xFFFFFFFF] : List Word).map dec =
      List.replicate 23 none := by decide

/-- Operands outside the word reach the operation (R142, R144). -/
theorem test_decode_operands :
    decode 0x11000001 { d := 7, x := .lit 5, t := 9 } = .ok (.configId 7 (.lit 5)) := by rfl

/-- R106: a raw access of another width, misaligned, or to no register reaches none (RA19). -/
theorem test_bus_bad_access :
    [(0, 2), (2, 4), (0x14, 4), (1, 1)].map (fun a => Params.reference.regAt a.1 a.2) = List.replicate 4 none := by
  decide
theorem test_bus_status : Params.reference.regAt 0x08 4 = some .status := by decide

/-! ### The assembler and the pseudo-operations (R150, R151) -/

theorem test_assemble_operations :
    assemble Params.reference Symbols.empty
      ["rd MASK -> t".toList, "wr MASK, t | 0x00010000 ; unmask".toList, "config d.port, LP".toList,
        "peer.write LP, 3, 1, 0x12345678".toList, "sync.out LP, 7".toList] =
      some [.rdMask 0, .wrMask (.or (.var 0) (.lit 0x00010000)), .configPort 0 (.lit 1),
        .pwrite 1 .lp 3 (.lit 0x12345678), .syncOut .lp 7] := by decide
theorem test_assemble_pseudo :
    assemble Params.reference Symbols.empty ["ack".toList, "withdraw LP, 1".toList] =
      some [.rdStatus 0, .wrStatus (.var 0), .wrClr (.lit 0x00020000)] := by decide
theorem test_assemble_refuses_a_bad_line : assemble Params.reference Symbols.empty ["rd FOO -> t".toList] = none := by
  decide

/-! ### Register access (95_test_vectors.md 2.3) -/

/-- The value bound to the variable 0 of Caller 0. -/
def var0 (s : State) : Word := { s with cur := .caller 0 }.readVar 0

def ra1 : State := { State.reset with tx := ((Chans.fill false).set .np 0 true).set .lp 2 true }

theorem test_ra1_rd_tx : after (.rdTx 0) ra1 var0 = some 0x00040001 := by decide
theorem test_ra2_rd_rx :
    after (.rdRx 0) { State.reset with rx := (Chans.fill false).set .lp 3 true } var0 = some 0x00080000 := by decide
theorem test_ra3_rd_status :
    after (.rdStatus 0) { State.reset with status := 0x00040020 } var0 = some 0x00040020 := by decide
theorem test_rd_mask : after (.rdMask 0) (registered .np 0 false false) var0 = some 0x00010000 := by decide
theorem test_ra4_rd_clr : after (.rdClr 0) ra1 var0 = some 0 := by decide

/-- RA8's effect, with the word R205 needs for it: the vector's own word has 0 at LP's data bits 23:16 (log 25). -/
theorem test_ra8_wr_tx_ignores_reserved_bits :
    after (.wrTx (n32 0xFFFFFF00)) State.reset
      (fun u => (u.mmioRead .tx, u.outq.get .lp 7, u.outq.get .np 7)) = some (0x00FF0000, [.txset], []) := by decide
theorem test_ra9_wr_tx_posts_new_bits_only :
    after (.wrTx (n32 0x00010001)) { State.reset with tx := (Chans.fill false).set .np 0 true }
      (fun u => (u.tx.get .lp 0, u.outq.get .lp 0, u.outq.get .np 0)) = some (true, [.txset], []) := by decide
theorem test_ra10_wr_rx :
    after (.wrRx (n32 0xFFFFFFFF)) { State.reset with rx := (Chans.fill false).set .np 2 true }
      (fun u => (u.rx.get .np 2, u.rx.get .np 3)) = some (true, false) := by decide

def ra11 : State :=
  { State.reset with status := 0x00040020, rx := (Chans.fill false).set .np 2 true }

theorem test_ra11_wr_status :
    after (.wrStatus (n32 0x00040020)) ra11 (fun u => (u.status, u.rx.get .np 2, u.outq.get .np 2, u.outq.get .np 5)) =
      some (0, false, [.rxack], []) := by decide
theorem test_ra14_erratum_keeps_the_bit :
    after (.wrStatus (n32 0x00010000))
      { State.reset with
        cfg := { Params.reference with erratumResidual := true }
        status := 0x00010000
        rx := (Chans.fill false).set .np 0 true
        tape := [0x00010000] }
      (fun u => (u.status, u.rx.get .np 0, u.outq.get .np 0)) = some (0x00010000, true, []) := by decide
theorem test_ra16_wr_mask :
    after (.wrMask (n32 0x00200020)) { State.reset with lineEn := true, status := 0x00000020 }
      (fun u => (u.mask, u.irq)) = some (0x00200020, true) := by decide
theorem test_ra17_wr_clr :
    after (.wrClr (n32 0x00020000)) { State.reset with tx := (Chans.fill false).set .lp 1 true }
      (fun u => (u.tx.get .lp 1, u.outq.get .lp 1, u.status)) = some (false, [.txclr], 0) := by decide

/-! ### Registration, bring-up (95_test_vectors.md 2.4, 2.5) -/

theorem test_rg18_alloc_fails :
    after (.alloc 0 16 0) { State.reset with tape := [1] } (fun u => (u.desc, u.names, var0 u)) =
      some ([], [], 7) := by decide
theorem test_rg19_alloc :
    after (.alloc 0 16 0) { State.reset with tape := [0, 3, 1, 0, 1] }
      (fun u => (u.desc, u.names, var0 u)) = some ([⟨3, 8, true, false, true, 16⟩], [(0, 0)], 0) := by decide
theorem test_rg14_config_port_registered :
    after (.configPort 0 (n32 1)) (registered .np 0 false false) (fun u => u.refused) =
      some (some .configWhileRegistered) := by decide
theorem test_config_id :
    after (.configId 0 (n32 3)) (withDesc (descOf 0 8 false true false)) (fun u => u.desc) =
      some [descOf 0 3 false true false] := by decide
theorem test_rg15_config_hs :
    after (.configHandshake 0 (n32 2)) (withDesc (descOf 0 8 false true false)) (fun u => u.refused) =
      some (some .badOperand) := by decide
theorem test_config_rcv :
    after (.configHasReceive 0 (n32 1)) (withDesc (descOf 0 8 false false false)) (fun u => u.desc) =
      some [descOf 0 8 false true false] := by decide
theorem test_config_txd :
    after (.configHasTxDrained 0 (n32 1)) (withDesc (descOf 0 8 false true false)) (fun u => u.desc) =
      some [descOf 0 8 false true true] := by decide

/-- RG2: an explicit id on LP in handshake mode. -/
theorem test_rg2_register :
    after (.register 0 0) (withDesc (descOf 1 3 true true true))
      (fun u => (u.table.get .lp 3, u.mask, u.lineEn, u.free, var0 u)) =
      some (some ⟨0, true, true, 11, 35⟩, 0x08000800, true, ⟨8, 7⟩, 0) := by decide
/-- RG7: registering a registered descriptor. -/
theorem test_rg7_register_twice :
    after (.register 0 0) (registered .np 0 false false) (fun u => (u.desc, u.mask, var0 u)) =
      some ([descOf 0 9 false true false], 0x00010000, 3) := by decide
/-- RG13. -/
theorem test_rg13_unregister :
    after (.unregister 0 0) (registered .lp 3 true false)
      (fun u => (u.mask, u.free, u.lineEn, u.desc)) =
      some (0, ⟨8, 8⟩, false, [descOf 1 3 true true false]) := by decide
theorem test_bu2_bringup_fails :
    after (.bringup 0) { State.reset with tape := [1] } (fun u => (u.dev, var0 u)) = some (.failed, 6) := by decide
theorem test_bu3_rebringup :
    after (.bringup 0) { State.reset with dev := .ok } (fun u => u.refused) = some (some .rebringup) := by decide

/-! ### SEND (95_test_vectors.md 2.6) -/

def msg1 : MsgExpr := ⟨.lit 1, .lit 0x1000, .lit 16, .lit 0⟩

def sendAt (ph : SendPhase) : SendLocals := ⟨ph, .np, 0, 40, ⟨1, 0x1000, 16, 0⟩⟩

/-- SD2: the busy test. -/
theorem test_sd2_send_busy :
    after (.send 0 msg1 0) (sending { registered .np 0 false false with tx := (Chans.fill false).set .np 0 true }
      (sendAt .s2)) (fun u => (var0 u, u.shm, u.outq.get .np 0)) = some (5, [], []) := by decide
/-- SD1: S4 writes the payload at +0x284, little-endian. -/
theorem test_sd1_send_copies :
    after (.send 0 msg1 0) (sending (registered .np 0 false false) (sendAt (.copy 1 0))) (fun u => u.shm) =
      some [(0x284, 0x00), (0x285, 0x10), (0x286, 0x00), (0x287, 0x00)] := by decide

/-! ### DISPATCH (95_test_vectors.md 2.7) -/

/-- DP2: the acknowledge step clears masked bits too. -/
theorem test_dp2_ack :
    after .dispatch
      (dispatching { registered .np 0 false false with
        status := 0x00030000
        rx := ((Chans.fill false).set .np 0 true).set .np 1 true } (.snap 0x00030000))
      (fun u => (u.status, u.rx.get .np 1, u.outq.get .np 1, u.dphase)) =
      some (0, false, [.rxack], .ack 0x00030000) := by decide
/-- DP7: a bit no entry owns becomes one Stray. -/
theorem test_dp7_stray :
    after .dispatch
      (dispatching { registered .np 0 false false with mask := 0x80010000, tape := [0, 0] } (.maskrd 0x80000000 0x80010000))
      (fun u => u.dphase) =
      some (.run 0x80000000 0x80010000 0x80000000 [.stray .lp 0x80000000] .k0) := by decide

/-- DM1: both orders of the entries 2 and 5. -/
def dm1 : Chans (Option Entry) :=
  ((Chans.fill none).set .np 2 (some ⟨0, false, false, rslot .np 2, wslot .np 2⟩)).set .np 5
    (some ⟨1, true, true, rslot .np 5, wslot .np 5⟩)

theorem test_dm1_rising :
    demux Params.reference .np 0x00040020 dm1 [0, 1, 2, 3, 4, 5, 6, 7] = [.recv .np 2 26, .drain .np 5] := by decide
theorem test_dm1_falling :
    demux Params.reference .np 0x00040020 dm1 [7, 6, 5, 4, 3, 2, 1, 0] = [.drain .np 5, .recv .np 2 26] := by decide
/-- DM3: a plain entry does not own its EMPTY bit. -/
theorem test_dm3 :
    demux Params.reference .np 0x00010001
      ((Chans.fill none).set .np 0 (some ⟨0, false, false, rslot .np 0, wslot .np 0⟩)) allChans =
      [.recv .np 0 24, .stray .np 0x00000001] := by decide
/-- DM6: LP's word holds no NP bit. -/
theorem test_dm6 :
    demux Params.reference .lp 0x01010000 (Chans.fill none) allChans = [.stray .lp 0x01000000] := by decide

/-! ### Peers and synchronizers (95_test_vectors.md 2.8) -/

/-- PC2: word 0 of rslot(LP, 3) at +0x0B0. -/
theorem test_pc2_pwrite :
    after (.pwrite 0 .lp 3 (n32 7))
      (asPeer { State.reset with
        cfg := { Params.reference with peerTrusted := false }
        preq := (Chans.fill false).set .lp 3 true } .lp) (fun u => u.shm) =
      some [(0x0B0, 7), (0x0B1, 0), (0x0B2, 0), (0x0B3, 0)] := by decide
theorem test_pc3_ppost :
    after (.ppost .lp 3) (asPeer State.reset .lp) (fun u => (u.preq.get .lp 3, u.inq.get .lp 3)) =
      some (true, [.post]) := by decide
/-- PC6. -/
theorem test_pc6_pread :
    after (.pread 0 .np 0 0)
      (asPeer { State.reset with
        pvTx := (Chans.fill false).set .np 0 true
        shm := [(0x280, 1), (0x281, 0), (0x282, 0), (0x283, 0)] } .np) (fun u => u.log) =
      some [.peerRead .np 0 0 1] := by decide
theorem test_pc7_pdrain :
    after (.pdrain .np 5) (asPeer { State.reset with pvTx := (Chans.fill false).set .np 5 true } .np)
      (fun u => (u.pvTx.get .np 5, u.inq.get .np 5)) = some (false, [.drain]) := by decide
/-- PC8: a DRAIN of a withdrawn post has no effect. -/
theorem test_pc8_sync_in :
    after (.syncIn .lp 1)
      { State.reset with cur := .sync .inward .lp 1, inq := (Chans.fill []).set .lp 1 [.drain] }
      (fun u => (u.inq.get .lp 1, u.status)) = some ([], 0) := by decide
/-- PC4. -/
theorem test_pc4_sync_in :
    after (.syncIn .lp 3)
      { State.reset with cur := .sync .inward .lp 3, inq := (Chans.fill []).set .lp 3 [.post] }
      (fun u => (u.rx.get .lp 3, u.status, u.inq.get .lp 3)) = some (true, 0x08000000, []) := by decide
/-- PC10. -/
theorem test_pc10_sync_out :
    after (.syncOut .lp 3)
      { State.reset with
        cur := .sync .outward .lp 3
        outq := (Chans.fill []).set .lp 3 [.rxack]
        preq := (Chans.fill false).set .lp 3 true }
      (fun u => (u.preq.get .lp 3, u.outq.get .lp 3)) = some (false, []) := by decide

/-- A word placed by the host is the next one fetched, and its step is that of the word's own issuer. -/
theorem test_placed_word_runs :
    (nextOf (step (State.reset.withFetchWord 32 0x00000002))).map (fun u => (u.cur, u.callers.map (fun c => c.stream.idx)))
      = some (.caller 0, [1]) := by decide

/-! ### Witnesses: for each statement with hypotheses, states and operands that meet them together, clause by clause -/

theorem registered_table (p q : Port) (c d : Chan) (hs txd : Bool) :
    (registered p c hs txd).table.get q d =
      if q = p ∧ d = c then some ⟨0, hs, txd, rslot p c, wslot p c⟩ else none := by
  simp [registered, Chans.get_set]

theorem registered_eq {p q : Port} {c d : Chan} {hs txd : Bool} {e : Entry}
    (h : (registered p c hs txd).table.get q d = some e) :
    q = p ∧ d = c ∧ e = ⟨0, hs, txd, rslot p c, wslot p c⟩ := by
  rw [registered_table] at h
  split at h
  · next hq => exact ⟨hq.1, hq.2, (Option.some.inj h).symm⟩
  · cases h

theorem registered_unique (p : Port) (c : Chan) (hs txd : Bool) : (registered p c hs txd).handlesUnique := by
  intro q d e r f g h1 h2 _
  obtain ⟨rfl, rfl, -⟩ := registered_eq h1
  obtain ⟨rfl, rfl, -⟩ := registered_eq h2
  exact ⟨rfl, rfl⟩

theorem registered_counts : ∀ (c : Chan) (hs txd : Bool),
    tableSize (registered .np c hs txd).table .np = 1 ∧ tableSize (registered .np c hs txd).table .lp = 0 ∧
      tableSize (registered .lp c hs txd).table .np = 0 ∧ tableSize (registered .lp c hs txd).table .lp = 1 := by
  decide

/-- The invariant of REGISTER and UNREGISTER holds with one channel registered. -/
theorem registered_inv (p : Port) (c : Chan) (hs txd : Bool) : (registered p c hs txd).registrationInv := by
  obtain ⟨h1, h2, h3, h4⟩ := registered_counts c hs txd
  refine ⟨?_, ?_, registered_unique p c hs txd, ?_⟩
  · cases p
    · exact iff_of_true rfl (by rw [State.registeredCount, h1, h2]; decide)
    · exact iff_of_true rfl (by rw [State.registeredCount, h3, h4]; decide)
  · cases p
    · rintro (_ | _)
      · rw [h1]; rfl
      · rw [h2]; rfl
    · rintro (_ | _)
      · rw [h3]; rfl
      · rw [h4]; rfl
  · intro q d e h
    obtain ⟨rfl, rfl, rfl⟩ := registered_eq h
    exact ⟨⟨_, rfl, rfl, .inl rfl⟩, rfl, rfl⟩

/-- A busy state: (NP, 7) registered in handshake mode, a message of the peer pending, one of AP's seen by the peer, and a
byte of shared memory written. -/
def live : State :=
  { registered .np 7 true true with
    tx := (Chans.fill false).set .np 7 true
    pvTx := (Chans.fill false).set .np 7 true
    rx := (Chans.fill false).set .np 7 true
    status := 0x00800000
    preq := (Chans.fill false).set .np 7 true
    shm := [(0x2FF, 1)] }

theorem live_caller : IsCaller live 0 caller0 := ⟨rfl, rfl⟩

theorem witness_DecodeAndEncodeAgree : decode 0x3000003F { x := .lit 7 } = .ok (.pwrite 3 .lp 7 (.lit 7)) := rfl
theorem witness_RawAccessReachesOnlyTheFiveRegisters :
    Params.reference.wf = true ∧
      ((⟨0x10, 4, false, .lit 0, 0⟩ : BusAccess).size = 4 ∧
        (⟨0x10, 4, false, .lit 0, 0⟩ : BusAccess).addr = Params.reference.regAddr .clr) ∧
      (⟨0x10, 2, false, .lit 0, 0⟩ : BusAccess).size ≠ 4 ∧
      ∀ r, (⟨0x14, 4, false, .lit 0, 0⟩ : BusAccess).addr ≠ Params.reference.regAddr r :=
  ⟨by decide, ⟨rfl, rfl⟩, by decide, fun r => by cases r <;> decide⟩

/-- Caller 0 has the program with one entry. -/
def withItem (it : Item) : State :=
  { State.reset with callers := [⟨⟨[it], 0, []⟩, none⟩], sched := [.caller 0] }

theorem witness_StepRunsTheDecodedOperation :
    (withItem (.op 2 { t := 3 })).refused = none ∧
      (withItem (.op 2 { t := 3 })).scheduled.fetch = some (.op 2 { t := 3 }) ∧
      decodeItem (withItem (.op 2 { t := 3 })).cfg (.op 2 { t := 3 }) = .ok (.rdStatus 3) := ⟨rfl, rfl, rfl⟩
theorem witness_AgentsIssueTheirNextOperation :
    IsCaller State.reset 0 caller0 ∧ (asPeer State.reset .lp).cur = .peer .lp ∧
      (dispatching State.reset .idle).cur = .dispatcher ∧
      { State.reset with cur := .sync .inward .lp 7 }.cur = .sync .inward .lp 7 ∧
      { State.reset with cur := .sync .outward .lp 7 }.cur = .sync .outward .lp 7 :=
  ⟨⟨rfl, rfl⟩, rfl, rfl, rfl, rfl⟩
theorem witness_RefusalMarksAndStopsTheRun :
    { State.reset with refused := some .rebringup }.refused = some .rebringup ∧
      ((withItem (.op 5 {})).refused = none ∧ (withItem (.op 5 {})).scheduled.fetch = some (.op 5 {}) ∧
        decode 5 {} = .error .illegalOp) ∧
      ((withItem (.bus ⟨0x14, 4, false, .lit 0, 0⟩)).scheduled.fetch = some (.bus ⟨0x14, 4, false, .lit 0, 0⟩) ∧
        decodeBus (withItem (.bus ⟨0x14, 4, false, .lit 0, 0⟩)).cfg ⟨0x14, 4, false, .lit 0, 0⟩ = .error .badAccess ∧
        (withItem (.bus ⟨0x14, 4, false, .lit 0, 0⟩)).scheduled.cur = .caller 0) ∧
      ({ State.reset with sched := [.peer .np], peers := ⟨⟨[.bus ⟨0, 4, false, .lit 0, 0⟩], 0, []⟩, Stream.reset⟩ }
          ).scheduled.fetch = some (.bus ⟨0, 4, false, .lit 0, 0⟩) :=
  ⟨rfl, ⟨rfl, rfl, rfl⟩, ⟨rfl, rfl, rfl⟩, rfl⟩
theorem witness_AgentWithoutEnabledStepWaits :
    { State.reset with sched := [.sync .inward .np 7] }.refused = none ∧
      { State.reset with sched := [.sync .inward .np 7] }.canStep
        { State.reset with sched := [.sync .inward .np 7] }.nextAgent = false := ⟨rfl, by decide⟩
theorem witness_WrongIssuerIsRefused :
    WrongIssuer State.reset .dispatch ∧ WrongIssuer { State.reset with cur := .caller 1 } (.rdTx 0) ∧
      WrongIssuer { State.reset with cur := .sync .inward .lp 2 } (.syncIn .lp 1) :=
  ⟨.inl rfl, .inr ⟨1, rfl, rfl⟩, .inl rfl⟩

theorem witness_RegisterReadsBindTheirView : IsCaller ra1 0 caller0 ∧ ra1.cfg.wf = true := ⟨⟨rfl, rfl⟩, by decide⟩
theorem witness_WriteTxSetsAndPosts :
    IsCaller ra1 0 caller0 ∧
      ((ra1.eval (.lit 0x00800000)).getLsbD (ra1.cfg.dataBit .lp 7) = true ∧ ra1.tx.get .lp 7 = false) ∧
      (ra1.eval (.lit 0x00800000)).getLsbD (ra1.cfg.dataBit .np 0) = false ∧ ra1.tx.get .np 0 = true := by
  refine ⟨⟨rfl, rfl⟩, ?_⟩; decide
theorem witness_WriteRxIsIgnored : IsCaller live 0 caller0 := live_caller
theorem witness_WriteStatusClearsAndAcknowledges :
    IsCaller live 0 caller0 ∧ live.cfg.wf = true ∧ live.cfg.erratumResidual = false ∧
      (live.eval (.lit 0x80800000) &&& live.status).getLsbD (live.cfg.fullBit .np 7) = true ∧
      (live.eval (.lit 0x80800000) &&& live.status).getLsbD (live.cfg.fullBit .lp 7) = false := by
  refine ⟨live_caller, ?_⟩; decide

/-- A state with the erratum. -/
def erratic : State := { live with cfg := { Params.reference with erratumResidual := true } }

theorem witness_ErratumKeepsAnyChoiceOfBits :
    (IsCaller erratic 0 caller0 ∧ erratic.cfg.erratumResidual = true) ∧
      ((dispatching erratic (.snap 5)).cur = .dispatcher ∧ (dispatching erratic (.snap 5)).dphase = .snap 5 ∧
        (dispatching erratic (.snap 5)).cfg.erratumResidual = true) ∧
      IsCaller live 0 caller0 ∧ live.cfg.erratumResidual = false :=
  ⟨⟨⟨rfl, rfl⟩, rfl⟩, ⟨rfl, rfl, rfl⟩, live_caller, rfl⟩
theorem witness_WriteMaskIsPlain : IsCaller live 0 caller0 := live_caller
theorem witness_WriteClrWithdraws :
    IsCaller live 0 caller0 ∧
      ((live.eval (.lit 0x00000080)).getLsbD (live.cfg.dataBit .np 7) = true ∧ live.tx.get .np 7 = true) ∧
      (live.eval (.lit 0x00000080)).getLsbD (live.cfg.dataBit .lp 0) = false ∧ live.tx.get .lp 7 = false := by
  refine ⟨live_caller, ?_⟩; decide
theorem witness_RegisterWritesAreIdempotent : live.cfg.erratumResidual = false := rfl

theorem witness_AllocBindsAFreshDescriptorOrFails :
    IsCaller { live with tape := [1] } 0 caller0 ∧ { live with tape := [1] }.drawBool = true ∧
      IsCaller { live with tape := [0] } 0 caller0 ∧ { live with tape := [0] }.drawBool = false :=
  ⟨⟨rfl, rfl⟩, rfl, ⟨rfl, rfl⟩, rfl⟩

/-- A descriptor at the ends of the field ranges, not registered. -/
def plain : State := withDesc (descOf 1 7 false true false)

theorem plain_unregistered (h : Handle) : ∀ p j e, plain.table.get p j = some e → e.d ≠ h := by
  intro p j e he
  simp [plain, withDesc, State.reset, State.resetWith] at he

theorem witness_ConfigWritesOneField :
    IsCaller plain 0 caller0 ∧ plain.lookupDesc 0 = some (0, descOf 1 7 false true false) ∧
      (∀ p j e, plain.table.get p j = some e → e.d ≠ 0) ∧ plain.eval (.lit 1) = (if true then 1 else 0) ∧
      plain.eval (.lit 0) = (if false then 1 else 0) :=
  ⟨⟨rfl, rfl⟩, rfl, plain_unregistered 0, rfl, rfl⟩
theorem witness_ConfigRefusesInOrder :
    (IsCaller live 0 caller0 ∧ live.lookupDesc 1 = none) ∧
      (live.lookupDesc 0 = some (0, descOf 0 7 true true true) ∧
        live.table.get .np 7 = some ⟨0, true, true, 31, 47⟩) ∧
      IsCaller plain 0 caller0 ∧ plain.lookupDesc 0 = some (0, descOf 1 7 false true false) ∧
      (∀ p j e, plain.table.get p j = some e → e.d ≠ 0) ∧ 1 < (plain.eval (.lit 2)).toNat :=
  ⟨⟨live_caller, rfl⟩, ⟨rfl, rfl⟩, ⟨rfl, rfl⟩, rfl, plain_unregistered 0, by decide⟩
theorem witness_RegisterInstallsTheEntry :
    (IsCaller plain 0 caller0 ∧ Manageable plain 0 0 (descOf 1 7 false true false) ∧
      (descOf 1 7 false true false).port = Port.lp.toWord ∧ plain.free.get .lp ≠ 0 ∧ plain.table.get .lp 7 = none ∧
      (descOf 1 7 false true false).id = (7 : Chan).val) ∧
      IsCaller (withDesc (descOf 0 8 true true true)) 0 caller0 ∧
      Manageable (withDesc (descOf 0 8 true true true)) 0 0 (descOf 0 8 true true true) ∧
      (withDesc (descOf 0 8 true true true)).table.get .np 0 = none ∧
      ∀ i : Chan, i < 0 → (withDesc (descOf 0 8 true true true)).table.get .np i ≠ none :=
  ⟨⟨⟨rfl, rfl⟩, ⟨rfl, rfl, rfl⟩, rfl, by decide, rfl, rfl⟩, ⟨rfl, rfl⟩, ⟨rfl, rfl, rfl⟩, rfl,
    fun i hi => absurd hi (by simp)⟩

/-- All ids of LP taken, and one more descriptor. -/
def exhausted : State :=
  { withDesc (descOf 1 8 false true false) with
    table := ⟨Vector.replicate 8 none, Vector.replicate 8 (some ⟨1, false, false, 8, 32⟩)⟩
    free := ⟨8, 0⟩ }

theorem witness_RegisterRejectsInOrder :
    (∀ D ∈ [descOf 0 8 false false false, descOf 2 8 false true false, descOf 0 9 false true false],
      IsCaller (withDesc D) 0 caller0 ∧ Manageable (withDesc D) 0 0 D ∧ (withDesc D).countersAgree ∧
        (D.hasReceive = false ∨ (∀ p, D.port ≠ Port.toWord p) ∨ 8 < D.id)) ∧
      (IsCaller exhausted 0 caller0 ∧ Manageable exhausted 0 0 (descOf 1 8 false true false) ∧
        exhausted.countersAgree ∧ exhausted.free.get .lp = 0) ∧
      IsCaller live 0 caller0 ∧ Manageable live 0 0 (descOf 0 7 true true true) ∧ live.countersAgree ∧
      live.free.get .np ≠ 0 ∧ live.table.get .np 7 = some ⟨0, true, true, 31, 47⟩ := by
  refine ⟨fun D hD => ?_, ⟨⟨rfl, rfl⟩, ⟨rfl, rfl, rfl⟩, fun p => by cases p <;> decide, rfl⟩, live_caller,
    ⟨rfl, rfl, rfl⟩, fun p => by cases p <;> decide, by decide, rfl⟩
  have hc : ∀ E : Desc, (withDesc E).countersAgree := fun E p => by
    show (⟨8, 8⟩ : PerPort Nat).get p + tableSize (Chans.fill none) p = 8
    cases p <;> decide
  simp only [List.mem_cons, List.not_mem_nil, or_false] at hD
  rcases hD with rfl | rfl | rfl
  · exact ⟨⟨rfl, rfl⟩, ⟨rfl, rfl, rfl⟩, hc _, .inl rfl⟩
  · exact ⟨⟨rfl, rfl⟩, ⟨rfl, rfl, rfl⟩, hc _, .inr (.inl fun p => by cases p <;> decide)⟩
  · exact ⟨⟨rfl, rfl⟩, ⟨rfl, rfl, rfl⟩, hc _, .inr (.inr (by decide))⟩
theorem witness_RegistrationNeedsLocksDeviceAndHandle :
    (IsCaller { live with dphase := .acq } 0 caller0 ∧ { live with dphase := .acq }.dphase ≠ .idle) ∧
      (IsCaller State.reset 0 caller0 ∧ State.reset.dphase = .idle ∧ State.reset.dev = .uninit) ∧
      (IsCaller { live with dev := .failed } 0 caller0 ∧ { live with dev := .failed }.dphase = .idle) ∧
      IsCaller live 0 caller0 ∧ live.dphase = .idle ∧ live.dev = .ok ∧ live.lookupDesc 1 = none :=
  ⟨⟨⟨rfl, rfl⟩, by decide⟩, ⟨⟨rfl, rfl⟩, rfl, rfl⟩, ⟨⟨rfl, rfl⟩, rfl⟩, live_caller, rfl, rfl, rfl⟩
theorem witness_UnregisterRemovesTheEntry :
    (IsCaller live 0 caller0 ∧ Manageable live 0 0 (descOf 0 7 true true true) ∧ live.handlesUnique ∧
      live.table.get .np 7 = some ⟨0, true, true, 31, 47⟩) ∧
      IsCaller plain 0 caller0 ∧ Manageable plain 0 0 (descOf 1 7 false true false) ∧
      ∀ p j e, plain.table.get p j = some e → e.d ≠ 0 :=
  ⟨⟨live_caller, ⟨rfl, rfl, rfl⟩, registered_unique .np 7 true true, rfl⟩, ⟨rfl, rfl⟩, ⟨rfl, rfl, rfl⟩,
    plain_unregistered 0⟩
theorem witness_BringupSetsTheDeviceOnce :
    (IsCaller { State.reset with tape := [0] } 0 caller0 ∧ { State.reset with tape := [0] }.dev = .uninit ∧
      { State.reset with tape := [0] }.drawBool = false) ∧
      { State.reset with tape := [1] }.drawBool = true ∧ IsCaller live 0 caller0 ∧ live.dev ≠ .uninit :=
  ⟨⟨⟨rfl, rfl⟩, rfl, rfl⟩, rfl, live_caller, by decide⟩

theorem witness_SendLookupFixesTheLocals :
    IsCaller live 0 caller0 ∧ caller0.send = none ∧ Manageable live 0 0 (descOf 0 7 true true true) ∧
      (descOf 0 7 true true true).port = Port.np.toWord ∧ live.handlesUnique ∧
      live.table.get .np 7 = some ⟨0, true, true, 31, 47⟩ :=
  ⟨live_caller, rfl, ⟨rfl, rfl, rfl⟩, rfl, registered_unique .np 7 true true, rfl⟩
theorem witness_SendLookupFailsInOrder :
    caller0.send = none ∧ (IsCaller { live with dphase := .acq } 0 caller0 ∧ { live with dphase := .acq }.dphase ≠ .idle) ∧
      (IsCaller State.reset 0 caller0 ∧ State.reset.dev = .uninit) ∧
      IsCaller { live with dev := .failed } 0 caller0 ∧ live.lookupDesc 1 = none ∧
      (Manageable (withDesc (descOf 2 8 false true false)) 0 0 (descOf 2 8 false true false) ∧
        ∀ p, (descOf 2 8 false true false).port ≠ Port.toWord p) ∧
      Manageable plain 0 0 (descOf 1 7 false true false) ∧ ∀ j e, plain.table.get .lp j = some e → e.d ≠ 0 :=
  ⟨rfl, ⟨⟨rfl, rfl⟩, by decide⟩, ⟨⟨rfl, rfl⟩, rfl⟩, ⟨rfl, rfl⟩, rfl, ⟨⟨rfl, rfl, rfl⟩, fun p => by cases p <;> decide⟩,
    ⟨rfl, rfl, rfl⟩, plain_unregistered 0 .lp⟩

/-- SEND's locals on (NP, 7) in a phase. -/
def local7 (ph : SendPhase) : SendLocals := ⟨ph, .np, 7, 47, ⟨1, 2, 3, 4⟩⟩

/-- Caller 0 with a SEND on (NP, 7) in progress. -/
def caller7 (ph : SendPhase) : Caller := ⟨Stream.reset, some (local7 ph)⟩

theorem witness_SendBusyTest :
    (IsCaller (sending live (local7 .s2)) 0 (caller7 .s2) ∧ (caller7 .s2).send = some (local7 .s2) ∧
      live.cfg.wf = true ∧ (local7 .s2).b = live.cfg.dataBit .np 7 ∧ live.tx.get .np 7 = true) ∧
      IsCaller (sending { live with tx := Chans.fill false } (local7 .s2)) 0 (caller7 .s2) :=
  ⟨⟨⟨rfl, rfl⟩, rfl, by decide, rfl, rfl⟩, ⟨rfl, rfl⟩⟩
theorem witness_SendCopiesOneWord :
    ∀ i : WordIdx, IsCaller (sending live (local7 (.copy i 0))) 0 (caller7 (.copy i 0)) ∧
      (caller7 (.copy i 0)).send = some (local7 (.copy i 0)) ∧ (local7 (.copy i 0)).phase = .copy i 0 ∧
      (sending live (local7 (.copy i 0))).cfg.shmBase % 4 = 0 := fun _ => ⟨⟨rfl, rfl⟩, rfl, rfl, rfl⟩
theorem witness_SendPostsTheFreshWord :
    (IsCaller (sending live (local7 (.s7 0))) 0 (caller7 (.s7 0)) ∧
      (caller7 (.s7 0)).send = some (local7 (.s7 0)) ∧ live.cfg.wf = true) ∧
      IsCaller (sending live (local7 (.s8 0 2))) 0 (caller7 (.s8 0 2)) ∧
      (local7 (.s8 0 2)).b = live.cfg.dataBit .np 7 := ⟨⟨⟨rfl, rfl⟩, rfl, by decide⟩, ⟨rfl, rfl⟩, rfl⟩
theorem witness_SendAloneDeliversTheMessage :
    IsCaller (registered .lp 7 false false) 0 caller0 ∧
      Manageable (registered .lp 7 false false) 0 0 (descOf 1 7 false true false) ∧
      (descOf 1 7 false true false).port = Port.lp.toWord ∧ (registered .lp 7 false false).registrationInv ∧
      (registered .lp 7 false false).table.get .lp 7 = some ⟨0, false, false, 15, 39⟩ ∧
      (registered .lp 7 false false).cfg.wf = true ∧ (registered .lp 7 false false).tx.get .lp 7 = false :=
  ⟨⟨rfl, rfl⟩, ⟨rfl, rfl, rfl⟩, rfl, registered_inv .lp 7 false false, rfl, by decide, rfl⟩

theorem witness_DispatchEntryAndReturn :
    (live.lineEn = true ∧ live.status &&& live.mask ≠ 0) ∧ (dispatching live .idle).cur = .dispatcher ∧
      (¬ (plain.lineEn = true ∧ plain.status &&& plain.mask ≠ 0)) ∧
      (dispatching live (.run 1 1 1 [] .k0)).dphase = .run 1 1 1 [] .k0 := by decide
theorem witness_DispatchSnapshotsAndAcknowledges :
    (∀ d ∈ [DPhase.acq, .ack 0x00800000, .maskrd 0x00800000 0x00800080],
      (dispatching erratic d).cur = .dispatcher ∧ (dispatching erratic d).cfg.erratumResidual = true ∧
        (dispatching erratic d).dphase = d) ∧
      (dispatching live (.snap 0x00800000)).cur = .dispatcher ∧
      (dispatching live (.snap 0x00800000)).dphase = .snap 0x00800000 ∧
      (dispatching live (.snap 0x00800000)).cfg.erratumResidual = false :=
  ⟨fun _ _ => ⟨rfl, rfl, rfl⟩, rfl, rfl, rfl⟩
theorem witness_DrawsReachEveryChoice :
    (IsCaller State.reset 0 caller0 ∧ State.reset.dev = .uninit) ∧
      (dispatching live (.maskrd 5 7)).cur = .dispatcher ∧ (dispatching live (.maskrd 5 7)).dphase = .maskrd 5 7 ∧
      [7, 6, 5, 4, 3, 2, 1, 0].Perm allChans ∧ allChans.Perm allChans := by
  refine ⟨⟨⟨rfl, rfl⟩, rfl⟩, rfl, rfl, ?_, .refl _⟩; decide

/-- Only bit 31 of the word is set. -/
theorem bit31 (i : Nat) : (0x80000000#32).getLsbD i = decide (i = 31) := by
  by_cases h : i < 32
  · have : ∀ j : Fin 32, (0x80000000#32).getLsbD j.val = decide (j.val = 31) := by decide
    exact this ⟨i, h⟩
  · rw [BitVec.getLsbD_of_ge _ _ (Nat.le_of_not_lt h)]
    exact (decide_eq_false (by omega)).symm

/-- DM2: the cases of the statement in which the count of a Recv, and of a Drain, is 1, and those next to them in which it
is 0: another slot, and an entry without `txd`. -/
theorem witness_DemuxServesEveryOwnedBitOnce_counts :
    (Params.reference.wf = true ∧ allChans.Perm allChans) ∧
      ((0x00010001 : Word).getLsbD (Params.reference.fullBit .np 0) = true ∧
        ((registered .np 0 true true).table.get .np 0).any (fun e => e.rslot == 24) = true ∧
        (demux Params.reference .np 0x00010001 (registered .np 0 true true).table allChans).count (.recv .np 0 24) = 1) ∧
      ((0x00010001 : Word).getLsbD (Params.reference.emptyBit .np 0) = true ∧
        ((registered .np 0 true true).table.get .np 0).any (fun e => e.hs && e.txd) = true ∧
        (demux Params.reference .np 0x00010001 (registered .np 0 true true).table allChans).count (.drain .np 0) = 1) ∧
      ((registered .np 0 true true).table.get .np 0).any (fun e => e.rslot == 8) = false ∧
      ((registered .np 0 true false).table.get .np 0).any (fun e => e.hs && e.txd) = false := by decide

/-- DM5: with no entry, the set bit is unowned; a stray item with another word is none. -/
theorem witness_DemuxServesEveryOwnedBitOnce :
    Params.reference.wf = true ∧ [7, 6, 5, 4, 3, 2, 1, 0].Perm allChans ∧
      (Port.lp = .lp ∧ (0x80000000 : Word) ≠ 0 ∧ ∀ i, (0x80000000#32).getLsbD i = true ↔
        Unowned Params.reference (Chans.fill none) .lp 0x80000000 i) ∧
      ¬ (Port.lp = .lp ∧ (0 : Word) ≠ 0 ∧ ∀ i, (0 : Word).getLsbD i = true ↔
        Unowned Params.reference (Chans.fill none) .lp 0x80000000 i) := by
  refine ⟨by decide, by decide, ⟨rfl, by decide, fun i => ?_⟩, fun h => h.2.1 rfl⟩
  show (0x80000000#32).getLsbD i = true ↔ (0x80000000#32).getLsbD i = true ∧ _
  simp only [bit31, decide_eq_true_eq]
  refine ⟨fun h => ⟨h, ?_, fun c => ?_⟩, fun h => h.1⟩
  · subst h; decide
  · simp [ownsFull, ownsEmpty]
theorem witness_DemuxLoopIsOnePass : Params.reference.wf = true ∧ [7, 6, 5, 4, 3, 2, 1, 0].Perm allChans := by decide
theorem witness_WorkOrderIsNpFirstAndDrainFirst :
    live.cfg.wf = true ∧ [7, 6, 5, 4, 3, 2, 1, 0].Perm allChans ∧
      { live with mask := 0 }.buildWork 0x00800080 [7, 6, 5, 4, 3, 2, 1, 0] allChans =
        [.drain .np 7] ++ .recv .np 7 31 :: [] := by decide
theorem witness_RunStepServesTheHead :
    ∀ x ∈ [WorkItem.drain .lp 7, .stray .lp 1, .recv .lp 7 15], ∀ buf ∈ [RecvBuf.k0, .k1 1, .k2 1 2, .k3 1 2 3],
      (dispatching live (.run 1 1 1 [x] buf)).cur = .dispatcher ∧
        (dispatching live (.run 1 1 1 [x] buf)).dphase = .run 1 1 1 (x :: []) buf ∧
        (dispatching live (.run 1 1 1 [x] buf)).cfg.shmBase % 4 = 0 := fun _ _ _ _ => ⟨rfl, rfl, rfl⟩
theorem witness_RunAloneServesTheWholeWork :
    (dispatching live (.run 1 1 1 [.recv .lp 7 15, .drain .np 0] .k0)).cur = .dispatcher ∧
      (dispatching live (.run 1 1 1 [.recv .lp 7 15, .drain .np 0] .k0)).dphase =
        .run 1 1 1 [.recv .lp 7 15, .drain .np 0] .k0 ∧ live.cfg.shmBase % 4 = 0 := ⟨rfl, rfl, rfl⟩
theorem witness_DispatchIsComplete :
    (dispatching live .idle).cur = .dispatcher ∧ (dispatching live .idle).dphase = .idle ∧
      (dispatching live .idle).irq = true ∧ (dispatching live .idle).cfg.wf = true ∧
      (dispatching live .idle).cfg.erratumResidual = false := by decide
theorem witness_TablesAreStableDuringDispatch :
    (dispatching live .acq).dphase ≠ .idle ∧ ∃ u, exec .dispatch (dispatching live .acq) = .next u :=
  ⟨by decide, _, rfl⟩

theorem witness_PeerSlotAccess :
    ((asPeer State.reset .lp).cur = .peer .lp ∧ State.reset.cfg.shmBase % 4 = 0 ∧
      (State.reset.cfg.peerTrusted = true → State.reset.preq.get .lp 7 = false)) ∧
      (asPeer live .np).cur = .peer .np ∧ (live.cfg.peerTrusted = true → live.pvTx.get .np 7 = true) := by decide
theorem witness_PeerPostAndDrainSendTheirEvents :
    ((asPeer State.reset .lp).cur = .peer .lp ∧
      (State.reset.cfg.peerTrusted = true → State.reset.preq.get .lp 7 = false)) ∧
      (asPeer live .np).cur = .peer .np ∧ (live.cfg.peerTrusted = true → live.pvTx.get .np 7 = true) := by decide
theorem witness_TrustedPeerWaitsOutsideItsContract :
    (asPeer live .np).cur = .peer .np ∧ live.cfg.peerTrusted = true ∧ live.preq.get .np 7 = true ∧
      live.pvTx.get .np 0 = false := by decide

/-- A state whose shared memory is not on a word address. -/
def skewed : State := { live with cfg := { Params.reference with shmBase := 2 } }

theorem witness_MisalignedSharedMemoryIsBadAccess :
    skewed.cfg.shmBase % 4 ≠ 0 ∧
      ((asPeer skewed .np).cur = .peer .np ∧ (skewed.cfg.peerTrusted = true → skewed.preq.get .np 0 = false) ∧
        (skewed.cfg.peerTrusted = true → skewed.pvTx.get .np 7 = true)) ∧
      IsCaller (sending skewed (local7 (.copy 3 0))) 0 (caller7 (.copy 3 0)) ∧
      (dispatching skewed (.run 1 1 1 [.recv .np 7 31] .k0)).dphase = .run 1 1 1 [.recv .np 7 31] .k0 :=
  ⟨by decide, by decide, ⟨rfl, rfl⟩, rfl⟩

/-- The step is the inbound synchronizer of (NP, 7), with a queue. -/
def inbound (q : List InEvent) (b : Bool) : State :=
  { live with
    cur := .sync .inward .np 7
    inq := (Chans.fill []).set .np 7 q
    tx := (Chans.fill false).set .np 7 b }

theorem witness_InboundDelivery :
    ∀ q ∈ [[InEvent.post, .drain], [.drain]], ∀ b, (inbound q b).cur = .sync .inward .np 7 ∧
      (inbound q b).inq.get .np 7 = q ∧ (inbound q b).tx.get .np 7 = b := fun _ _ _ => ⟨rfl, rfl, rfl⟩

/-- The step is the outbound synchronizer of (LP, 7), with a queue. -/
def outbound (q : List OutEvent) : State :=
  { live with cur := .sync .outward .lp 7, outq := (Chans.fill []).set .lp 7 q }

theorem witness_OutboundDelivery :
    ∀ q ∈ [[OutEvent.txset, .txclr], [.rxack], [.txclr]],
      (outbound q).cur = .sync .outward .lp 7 ∧ (outbound q).outq.get .lp 7 = q := fun _ _ => ⟨rfl, rfl⟩
theorem witness_OnlyTheNamedOperationsChangeState :
    (∃ u, exec (.rdTx 0) live = .next u) ∧ live.dev ≠ .uninit ∧ live.status.getLsbD 23 = true ∧
      live.callers[0]? = some caller0 ∧ live.cur ≠ .caller 1 ∧ live.cur ≠ .peer .lp ∧ 1 ∉ (Instr.rdTx 0).binds ∧
      live.callersCounted ∧ ∃ u, step { live with sched := [.dispatcher] } = .next u :=
  ⟨⟨_, rfl⟩, by decide, by decide, rfl, by decide, by decide, by decide, rfl, _, rfl⟩

/-- `live`, with the Dispatcher scheduled. -/
def liveRun : State := { live with sched := [.dispatcher] }

theorem liveRun_steps : ∃ u, step liveRun = .next u := ⟨_, rfl⟩

theorem liveRun_slots : liveRun.slotsSound := by
  refine ⟨fun p c e h => ?_, fun x hx l hl => ?_, fun w m a work buf h => ?_⟩
  · obtain ⟨rfl, rfl, rfl⟩ := registered_eq (p := .np) (c := 7) (hs := true) (txd := true) h
    exact ⟨rfl, rfl⟩
  · obtain rfl : x = caller0 := List.mem_singleton.1 hx
    cases hl
  · cases h

theorem liveRun_mirrors : liveRun.rxMirrorsFull := by
  intro p
  cases p <;> decide

theorem witness_UnusedSlotsAreNeverWritten :
    liveRun.slotsSound ∧ (∃ u, step liveRun = .next u) ∧
      ∀ i ∈ [(0 : Slot), 7, 16, 23], (i.val < 8 ∨ (16 ≤ i.val ∧ i.val < 24)) ∧
        liveRun.cfg.shmBase + 16 * i.val ≤ 16 * i.val + 15 ∧
        16 * i.val + 15 < liveRun.cfg.shmBase + 16 * i.val + 16 :=
  ⟨liveRun_slots, liveRun_steps, by decide⟩
theorem witness_StepsKeepSlotsSound : liveRun.slotsSound ∧ ∃ u, step liveRun = .next u :=
  ⟨liveRun_slots, liveRun_steps⟩
theorem witness_StepsKeepRxMirroringFull :
    liveRun.cfg.wf = true ∧ liveRun.rxMirrorsFull ∧ ∃ u, step liveRun = .next u :=
  ⟨by decide, liveRun_mirrors, liveRun_steps⟩
theorem witness_StepsKeepRegistrationInvariant : liveRun.registrationInv ∧ ∃ u, step liveRun = .next u :=
  ⟨registered_inv .np 7 true true, liveRun_steps⟩
theorem witness_OperationsKeepMaskFollowingTables :
    live.cfg.wf = true ∧ live.maskFollowsTables ∧ (∀ x, Instr.unregister 0 0 ≠ .wrMask x) ∧
      ∃ u, exec (.unregister 0 0) live = .next u :=
  ⟨by decide, fun p => by cases p <;> decide, fun _ h => (by cases h), _, rfl⟩
theorem witness_StepsKeepInboundHandshake :
    liveRun.cfg.wf = true ∧ liveRun.cfg.peerTrusted = true ∧ liveRun.rxMirrorsFull ∧ liveRun.inboundHandshake ∧
      ∃ u, step liveRun = .next u :=
  ⟨by decide, rfl, liveRun_mirrors, fun p => by cases p <;> decide, liveRun_steps⟩
theorem witness_OperationsKeepOutboundHandshake :
    (asPeer live .np).cfg.peerTrusted = true ∧ (asPeer live .np).outboundHandshake ∧
      (∀ x, Instr.pdrain .np 7 ≠ .wrClr x) ∧ ∃ u, exec (.pdrain .np 7) (asPeer live .np) = .next u :=
  ⟨rfl, fun p => by cases p <;> decide, fun _ h => (by cases h), _, rfl⟩
theorem witness_StepsKeepMemoryWellFormed : liveRun.memoryWf ∧ ∃ u, step liveRun = .next u :=
  ⟨⟨by decide, by decide⟩, liveRun_steps⟩
theorem witness_SlotsAndFieldsStandWhereTheSpecPutsThem : Params.reference.wf = true := by decide
theorem witness_ResetSatisfiesEveryInvariant : Params.reference.wf = true := by decide

end Sys2Proof.Tests
end

