-- ==== Sys2Proof/Proofs/Fields.lean ====
section
/-! The bits of the fields as ranges (R12), and O60: where slots, words and fields stand (R12, R101, R102). -/

namespace Sys2Proof

open Sys2Proof.Claims

/-- A field that ends inside the word holds the bits of its range, and no other. -/
theorem getLsbD_byteField_iff_inField {l : Nat} (h : l + 8 ≤ 32) (b : Nat) :
    (byteField l).getLsbD b = true ↔ InField l b := by
  rw [getLsbD_byteField, Bool.and_eq_true, Bool.and_eq_true, decide_eq_true_eq, decide_eq_true_eq,
    decide_eq_true_eq]
  exact and_iff_left_of_imp fun hb => by omega

theorem Params.dataLsb_add_le {cfg : Params} (h : cfg.wf = true) (p : Port) : cfg.dataLsb p + 8 ≤ 32 :=
  Params.dataBit_lt h p 7

theorem Params.emptyLsb_add_le {cfg : Params} (h : cfg.wf = true) (p : Port) : cfg.emptyLsb p + 8 ≤ 32 :=
  Params.emptyBit_lt h p 7

theorem Params.fullLsb_add_le {cfg : Params} (h : cfg.wf = true) (p : Port) : cfg.fullLsb p + 8 ≤ 32 :=
  Params.fullBit_lt h p 7

/-- `DATA_FIELD(p)` is the port's data field, for legal parameters (R12, R38). -/
theorem Params.getLsbD_dataField_iff_inField {cfg : Params} (h : cfg.wf = true) (p : Port) (b : Nat) :
    (cfg.dataField p).getLsbD b = true ↔ InField (cfg.dataLsb p) b :=
  getLsbD_byteField_iff_inField (Params.dataLsb_add_le h p) b

/-- `ORIGIN(p)` is the port's EMPTY and FULL fields, for legal parameters (R12, R35). -/
theorem Params.getLsbD_origin_iff_inField {cfg : Params} (h : cfg.wf = true) (p : Port) (b : Nat) :
    (cfg.origin p).getLsbD b = true ↔ InField (cfg.emptyLsb p) b ∨ InField (cfg.fullLsb p) b := by
  rw [Params.origin, BitVec.getLsbD_or, Bool.or_eq_true,
    getLsbD_byteField_iff_inField (Params.emptyLsb_add_le h p),
    getLsbD_byteField_iff_inField (Params.fullLsb_add_le h p)]

/-- The bit positions under the reference values of R9: the fields that start at bit 0 need their sum rewritten. -/
theorem Params.reference_bits (c : Chan) :
    Params.reference.dataBit .np c = c.val ∧ Params.reference.dataBit .lp c = 16 + c.val ∧
      Params.reference.emptyBit .np c = c.val ∧ Params.reference.emptyBit .lp c = 8 + c.val ∧
      Params.reference.fullBit .np c = 16 + c.val ∧ Params.reference.fullBit .lp c = 24 + c.val :=
  ⟨Nat.zero_add _, rfl, Nat.zero_add _, rfl, rfl, rfl⟩

/-- Settles O60: the positions are the definitions' own formulas, the masks' bits are `getLsbD_origin_iff_inField` and
`getLsbD_dataField_iff_inField`, and the reference values are computed. -/
theorem slotsAndFieldsStandWhereTheSpecPutsThem : Obligations.SlotsAndFieldsStandWhereTheSpecPutsThem := by
  refine ⟨?slots, ?words, ?bits, ?masks, ?originNP, ?originLP, ?dataNP, ?dataLP, Params.reference_bits⟩
  case slots => exact fun _ => ⟨rfl, rfl, rfl, rfl⟩
  case words => exact fun _ _ _ => rfl
  case bits => exact fun _ _ => ⟨rfl, rfl, rfl, rfl, rfl, rfl⟩
  case masks =>
    exact fun cfg b h =>
      ⟨Params.getLsbD_origin_iff_inField h .np b, Params.getLsbD_origin_iff_inField h .lp b,
        Params.getLsbD_dataField_iff_inField h .np b, Params.getLsbD_dataField_iff_inField h .lp b⟩
  case originNP => decide
  case originLP => decide
  case dataNP => decide
  case dataLP => decide

end Sys2Proof
end

