-- ==== Sys2Proof/Proofs/Misaligned.lean ====
section
/-! What the operations that reach shared memory do when the access is illegal (R106), and O46: with a misaligned
SHM_BASE every access is (log 9). -/

namespace Sys2Proof.Machine

open Sys2Proof.Claims

/-! ### The step an issuer with work to do takes -/

/-- SEND of a Caller with a SEND in progress takes its next step (R280). -/
theorem exec_send_inProgress {s : State} {k : Nat} {c : Caller} {l : SendLocals} (d : DescName) (msg : MsgExpr)
    (t : VarName) (hc : IsCaller s k c) (hl : c.send = some l) : exec (.send d msg t) s = s.sendStep l t := by
  obtain ⟨hcur, hget⟩ := hc
  refine (State.asCaller_eq _ hcur hget).trans ?_
  simp only [hl]

/-- DISPATCH with a `Recv` item at the head of its work takes a step on it (R308). -/
theorem exec_dispatch_recv {s : State} {w m a : Word} {p : Port} {c : Chan} {rs : Slot} {rest : List WorkItem}
    {buf : RecvBuf} (hcur : s.cur = .dispatcher) (hph : s.dphase = .run w m a (.recv p c rs :: rest) buf) :
    exec .dispatch s = s.runRecv w m a p c rs rest buf := by
  refine (State.asAgent_eq _ hcur).trans ?_
  simp only [hph]

/-! ### An illegal access is the mark BadAccess (R106) -/

/-- The copy of a word of SEND to an illegal address (R283). -/
theorem State.sendStep_copy_badAccess {s : State} {l : SendLocals} {k : WordIdx} {t1 : Word} (t : VarName)
    (hph : l.phase = .copy k t1) (hw : s.memWrite (s.cfg.wordAddr l.ws k) (l.msg.word k) = none) :
    s.sendStep l t = .next (s.raise .badAccess) := by
  simp only [State.sendStep, hph, hw]

/-- The read of a word of a `Recv` item from an illegal address (R308). -/
theorem State.runRecv_badAccess {s : State} {rs : Slot} {buf : RecvBuf} (w m a : Word) (p : Port) (c : Chan)
    (rest : List WorkItem) (hr : s.memRead (s.cfg.wordAddr rs buf.k) = none) :
    s.runRecv w m a p c rs rest buf = .next (s.raise .badAccess) := by
  simp only [State.runRecv, hr]

/-- An enabled PWRITE to an illegal address (R350). -/
theorem exec_pwrite_badAccess {s : State} {w : WordIdx} {p : Port} {c : Chan} {x : Expr} (hcur : s.cur = .peer p)
    (hg : s.cfg.peerTrusted = true → s.preq.get p c = false)
    (hw : s.memWrite (s.cfg.wordAddr (rslot p c) w) (s.eval x) = none) :
    exec (.pwrite w p c x) s = .next (s.raise .badAccess) := by
  refine (State.peerMove_eq _ hcur fun ht => by rw [hg ht]; rfl).trans ?_
  simp only [hw]

/-- An enabled PREAD from an illegal address (R352). -/
theorem exec_pread_badAccess {s : State} {w : WordIdx} {p : Port} {c : Chan} (t : VarName) (hcur : s.cur = .peer p)
    (hg : s.cfg.peerTrusted = true → s.pvTx.get p c = true)
    (hr : s.memRead (s.cfg.wordAddr (wslot p c) w) = none) :
    exec (.pread w p c t) s = .next (s.raise .badAccess) := by
  refine (State.peerMove_eq _ hcur hg).trans ?_
  simp only [hr]

/-- Settles O46: no word of a slot is a legal address (`memWrite_slot_misaligned`, `memRead_slot_misaligned`), and each
of the four accesses answers an illegal address with BadAccess. -/
theorem misalignedSharedMemoryIsBadAccess : Obligations.MisalignedSharedMemoryIsBadAccess := by
  intro s hs
  refine ⟨?pwrite, ?pread, ?send, ?dispatch⟩
  case pwrite =>
    exact fun w p c x hcur hg => exec_pwrite_badAccess hcur hg (State.memWrite_slot_misaligned hs _ _ _)
  case pread =>
    exact fun w p c t hcur hg => exec_pread_badAccess t hcur hg (State.memRead_slot_misaligned hs _ _)
  case send =>
    intro k c d m t l i t1 hc hl hph
    rw [exec_send_inProgress d m t hc hl,
      State.sendStep_copy_badAccess t hph (State.memWrite_slot_misaligned hs _ _ _)]
    rfl
  case dispatch =>
    intro w m a p c rs rest buf hcur hph
    rw [exec_dispatch_recv hcur hph, State.runRecv_badAccess w m a p c rest (State.memRead_slot_misaligned hs _ _)]
    rfl

end Sys2Proof.Machine
end

