-- ==== Sys2Proof/Proofs/Footprint.lean ====
section
/-! The footprint of an operation: the fields of the state its move may write (R33 to R46, R60 to R63), and from it what
each operation leaves unchanged. -/

namespace Sys2Proof.Machine

open Sys2Proof.Claims

/-! ### Footprints -/

/-- The state s with the fields that the operation i may write taken from v. The operation streams are not among them:
they change by `State.updStream` and `State.setSend` (R32, R63). -/
def footprint (i : Instr) (s v : State) : State :=
  match i with
  | .rdTx _ | .rdRx _ | .rdStatus _ | .rdMask _ | .rdClr _ | .wrRx _ => s
  | .wrTx _ | .wrClr _ => { s with tx := v.tx, outq := v.outq }
  | .wrStatus _ =>
    { s with rx := v.rx, status := v.status, outq := v.outq, tape := v.tape, drawn := v.drawn }
  | .wrMask _ => { s with mask := v.mask }
  | .alloc _ _ _ => { s with desc := v.desc, names := v.names, log := v.log, tape := v.tape, drawn := v.drawn }
  | .configPort _ _ | .configId _ _ | .configHandshake _ _ | .configHasReceive _ _ | .configHasTxDrained _ _ =>
    { s with desc := v.desc }
  | .register _ _ =>
    { s with lineEn := v.lineEn, mask := v.mask, desc := v.desc, table := v.table, free := v.free, log := v.log }
  | .unregister _ _ => { s with lineEn := v.lineEn, mask := v.mask, table := v.table, free := v.free, log := v.log }
  | .send _ _ _ => { s with tx := v.tx, outq := v.outq, shm := v.shm, log := v.log }
  | .bringup _ => { s with dev := v.dev, log := v.log, tape := v.tape, drawn := v.drawn }
  | .dispatch =>
    { s with
      rx := v.rx, status := v.status, outq := v.outq, log := v.log, dphase := v.dphase, tape := v.tape,
      drawn := v.drawn }
  | .pwrite _ _ _ _ => { s with shm := v.shm }
  | .ppost _ _ => { s with preq := v.preq, inq := v.inq }
  | .pread _ _ _ _ => { s with log := v.log }
  | .pdrain _ _ => { s with pvTx := v.pvTx, inq := v.inq }
  | .syncIn _ _ => { s with tx := v.tx, rx := v.rx, status := v.status, inq := v.inq }
  | .syncOut _ _ => { s with pvTx := v.pvTx, preq := v.preq, outq := v.outq }

/-- A move of the operation i, taken apart: v differs from s in the footprint of i only, then the issuing agent's stream
may move, and a SEND may change its locals. -/
inductive Effect (i : Instr) (s : State) : State → Prop where
  | fields {v : State} (hv : v = footprint i s v) : Effect i s v
  | stream {v : State} {f : Stream → Stream} (hv : v = footprint i s v) (hf : ∀ a, StreamMoved i a (f a)) :
    Effect i s (v.updStream f)
  | locals {v : State} (x : Option SendLocals) (hi : ∃ d m t, i = .send d m t) (hv : Effect i s v) :
    Effect i s (v.setSend x)

/-! ### How the shared operations move a stream -/

theorem streamMoved_refl (i : Instr) (a : Stream) : StreamMoved i a a := ⟨rfl, .inl rfl, fun _ _ => rfl⟩

/-- A return moves the index only (R32). -/
theorem streamMoved_retire (i : Instr) (a : Stream) : StreamMoved i a { a with idx := a.idx + 1 } :=
  ⟨rfl, .inr rfl, fun _ _ => rfl⟩

/-- A return with a value bound moves the index and changes the bound variable (R150, R400). -/
theorem streamMoved_bind_retire {i : Instr} {t : VarName} (ht : t ∈ i.binds) (w : Word) (a : Stream) :
    StreamMoved i a { a with idx := a.idx + 1, vars := Assoc.put a.vars t w } :=
  ⟨rfl, .inr rfl, fun y hy => by rw [Assoc.get?_put, if_neg fun e : y = t => hy (e ▸ ht)]⟩

/-! ### Each move has its operation's footprint -/

section
variable {i : Instr} {s v : State}

/-- A return after a change of the footprint. -/
theorem Effect.retire (hv : v = footprint i s v) : Effect i s v.retire := .stream hv (streamMoved_retire i)

/-- A return with a value bound after a change of the footprint. -/
theorem Effect.bind_retire {t : VarName} (w : Word) (hv : v = footprint i s v) (ht : t ∈ i.binds) :
    Effect i s (v.bind t w).retire := by
  rw [State.retire, State.bind, State.updStream_updStream]
  exact .stream hv (streamMoved_bind_retire ht w)

/-- A result code after a change of the footprint; the log must be in the footprint. -/
theorem Effect.finish {op : ChmOp} {t : VarName} {code : ResultCode}
    (hv : v.emit (.result v.cur op code) = footprint i s (v.emit (.result v.cur op code))) (ht : t ∈ i.binds) :
    Effect i s (v.finish op t code) :=
  .bind_retire code.toWord hv ht

end

/-- The draw of the erratum changes only the tape and its counter (R212). -/
theorem State.afterKeep_eq (s : State) :
    s.afterKeep = { s with tape := s.afterKeep.tape, drawn := s.afterKeep.drawn } := by
  unfold State.afterKeep
  split
  · exact State.afterDraw_eq s
  · rfl

/-- The footprint of a write of STATUS (R207, R212). -/
theorem State.writeStatus_eq (s : State) (x : Word) :
    s.writeStatus x =
      { s with
        rx := (s.writeStatus x).rx, status := (s.writeStatus x).status, outq := (s.writeStatus x).outq
        tape := (s.writeStatus x).tape, drawn := (s.writeStatus x).drawn } := by
  unfold State.writeStatus State.clearStatus
  rw [State.afterKeep_eq]

theorem effect_alloc {s : State} (d : DescName) (extra : Nat) (t : VarName) :
    Effect (.alloc d extra t) s (s.afterDraw.finish .alloc t .allocFailed) ∧
      Effect (.alloc d extra t) s ((s.afterDraw.allocate d extra).finish .alloc t .ok) := by
  rw [State.allocate_eq, State.afterDraw_eq s]
  exact ⟨.finish rfl (by simp [Instr.binds]), .finish rfl (by simp [Instr.binds])⟩

theorem effect_register {s : State} {h : Handle} {D : Desc} (d : DescName) (t : VarName) (hD : s.desc[h]? = some D) :
    Effect (.register d t) s ((s.register h D).1.finish .register t (s.register h D).2) := by
  refine .finish ?_ (by simp [Instr.binds])
  rcases State.register_cases hD with he | ⟨p, -, he⟩ | ⟨p, j, e, -, -, he⟩ | ⟨p, j, -, -, -, -, he⟩ <;> rw [he] <;> rfl

theorem effect_unregister (s : State) (h : Handle) (d : DescName) (t : VarName) :
    Effect (.unregister d t) s ((s.unregister h).1.finish .unregister t (s.unregister h).2) := by
  refine .finish ?_ (by simp [Instr.binds])
  rcases State.unregister_cases s h with ⟨-, he⟩ | ⟨p, j, e, -, -, he⟩ <;> rw [he] <;> rfl

theorem effect_send {s u : State} {d : DescName} {msg : MsgExpr} {t : VarName} (hd : SendDid s msg t u) :
    Effect (.send d msg t) s u := by
  have hsend : ∃ d' m' t', Instr.send d msg t = .send d' m' t' := ⟨d, msg, t, rfl⟩
  have finishSend : ∀ {v : State} (code : ResultCode),
      v.emit (.result v.cur .send code) = footprint (.send d msg t) s (v.emit (.result v.cur .send code)) →
        Effect (.send d msg t) s (v.finishSend t code) := fun code hv => by
    rw [State.finishSend_eq]
    exact .locals none hsend (.finish hv (by simp [Instr.binds]))
  rcases hd with ⟨code, -, rfl⟩ | ⟨p, c, e, -, -, rfl⟩ | ⟨k, x, l, -, -, -, hl⟩
  · exact finishSend code rfl
  · exact .locals _ hsend (.fields rfl)
  · rcases hl with ⟨ph, rfl⟩ | ⟨j, t1, -, -, rfl⟩ | ⟨t1, t2, -, rfl⟩
    · exact .locals _ hsend (.fields rfl)
    · exact .locals _ hsend (.fields rfl)
    · exact finishSend .ok rfl

theorem effect_dispatch {s u : State} (hd : DispatchDid s u) : Effect .dispatch s u := by
  refine .fields ?_
  rcases hd with ⟨-, -, rfl⟩ | ⟨-, rfl⟩ | ⟨w, -, rfl⟩ | ⟨w, -, rfl⟩ | ⟨w, m, -, rfl⟩ | ⟨w, m, a, buf, -, rfl⟩ |
    ⟨w, m, a, it, rest, buf, -, ⟨e, buf', rfl⟩ | ⟨buf', rfl⟩⟩
  · rfl
  · rfl
  · rw [State.mmioWrite, State.writeStatus_eq]; rfl
  · rfl
  · rw [State.startRun_eq]; rfl
  · rfl
  · rfl
  · rfl

/-- Every move has its operation's footprint (R33 to R46, R60 to R63). -/
theorem Did.effect {i : Instr} {s u : State} (hd : Did s i u) : Effect i s u := by
  cases i with
  | rdTx t | rdRx t | rdStatus t | rdMask t | rdClr t =>
    subst hd; exact .bind_retire _ rfl (by simp [Instr.binds])
  | wrTx x | wrRx x | wrMask x | wrClr x => subst hd; exact .retire rfl
  | wrStatus x => subst hd; exact .retire (State.writeStatus_eq s _)
  | alloc d extra t =>
    rcases hd with rfl | rfl
    · exact (effect_alloc d extra t).1
    · exact (effect_alloc d extra t).2
  | configPort d x | configId d x | configHandshake d x | configHasReceive d x | configHasTxDrained d x =>
    obtain ⟨h, D, -, rfl⟩ := hd
    exact .retire rfl
  | register d t =>
    obtain ⟨-, rfl | ⟨h, D, hD, rfl⟩⟩ := hd
    · exact .finish rfl (by simp [Instr.binds])
    · exact effect_register d t hD
  | unregister d t =>
    obtain ⟨-, rfl | ⟨h, rfl⟩⟩ := hd
    · exact .finish rfl (by simp [Instr.binds])
    · exact effect_unregister s h d t
  | send d msg t => exact effect_send hd
  | bringup t =>
    obtain ⟨-, hu⟩ := hd
    rw [State.afterDraw_eq s] at hu
    rcases hu with rfl | rfl <;> exact .finish rfl (by simp [Instr.binds])
  | dispatch => exact effect_dispatch hd
  | pwrite w p c x => obtain ⟨-, -, rfl⟩ := hd; exact .retire rfl
  | ppost p c => obtain ⟨-, rfl⟩ := hd; exact .retire rfl
  | pread w p c t => obtain ⟨-, v, rfl⟩ := hd; exact .bind_retire _ rfl (by simp [Instr.binds])
  | pdrain p c => obtain ⟨-, rfl⟩ := hd; exact .retire rfl
  | syncIn p c =>
    obtain ⟨e, rest, -, rfl⟩ := hd
    refine .fields ?_
    cases e with
    | post => rfl
    | drain => simp only [State.deliverIn]; split <;> rfl
  | syncOut p c =>
    obtain ⟨e, rest, -, rfl⟩ := hd
    cases e <;> exact .fields rfl

/-! ### What an operation leaves unchanged -/

/-- The stream of the issuing agent stands in `callers` or in `peers` (R63, R472). -/
theorem State.updStream_eq (s : State) (f : Stream → Stream) :
    s.updStream f = { s with callers := (s.updStream f).callers, peers := (s.updStream f).peers } := by
  unfold State.updStream
  split <;> rfl

theorem State.setSend_eq (s : State) (x : Option SendLocals) :
    s.setSend x = { s with callers := (s.setSend x).callers } := by
  unfold State.setSend
  split <;> rfl

/-- The streams are in no footprint. -/
theorem footprint_streams (i : Instr) (s v : State) (cs : List Caller) (ps : PerPort Stream) :
    footprint i s { v with callers := cs, peers := ps } = footprint i s v := by
  cases i <;> rfl

theorem Effect.eq_footprint {i : Instr} {s u : State} (h : Effect i s u) :
    u = { footprint i s u with callers := u.callers, peers := u.peers } := by
  have move : ∀ {v : State} (cs : List Caller) (ps : PerPort Stream),
      v = { footprint i s v with callers := v.callers, peers := v.peers } →
        ({ v with callers := cs, peers := ps } : State) =
          { footprint i s { v with callers := cs, peers := ps } with callers := cs, peers := ps } :=
    fun {v} cs ps hv => by
      rw [footprint_streams]
      exact congrArg (fun w : State => { w with callers := cs, peers := ps }) hv
  induction h with
  | fields hv => rw [← hv]
  | stream hv _ => rw [State.updStream_eq]; exact move _ _ (by rw [← hv])
  | locals x _ _ ih => rw [State.setSend_eq]; exact move _ _ ih

/-- Everything an operation leaves unchanged, in one equation: outside its footprint only the streams and the refusal
mark may change (R33 to R46, R60 to R63, R404). -/
theorem exec_eq_footprint {i : Instr} {s u : State} (h : exec i s = .next u) :
    u = { footprint i s u with callers := u.callers, peers := u.peers, refused := u.refused } := by
  rcases exec_next h with rfl | ⟨r, rfl⟩ | hd
  · cases i <;> rfl
  · cases i <;> rfl
  · exact congrArg (fun w : State => { w with refused := u.refused }) hd.effect.eq_footprint

section
variable {i : Instr} {s u : State}

/-- The parameters never change (R9). -/
theorem exec_cfg (h : exec i s = .next u) :
    u.cfg = s.cfg := by
  refine (congrArg State.cfg (exec_eq_footprint h)).trans ?_
  cases i <;> rfl

/-- Only BRINGUP changes the device state (R43, R452). -/
theorem exec_dev (h : exec i s = .next u) (hb : ∀ t, i ≠ .bringup t) :
    u.dev = s.dev := by
  refine (congrArg State.dev (exec_eq_footprint h)).trans ?_
  cases i with
  | bringup t => exact absurd rfl (hb t)
  | _ => rfl

/-- Only ALLOC, CONFIG and REGISTER change descriptors (R44). -/
theorem exec_desc (h : exec i s = .next u)
    (ha : ∀ d x t, i ≠ .alloc d x t) (hr : ∀ d t, i ≠ .register d t)
    (hc : ∀ d x, i ≠ .configPort d x ∧ i ≠ .configId d x ∧ i ≠ .configHandshake d x ∧ i ≠ .configHasReceive d x ∧
      i ≠ .configHasTxDrained d x) :
    u.desc = s.desc := by
  refine (congrArg State.desc (exec_eq_footprint h)).trans ?_
  cases i with
  | alloc d x t => exact absurd rfl (ha d x t)
  | register d t => exact absurd rfl (hr d t)
  | configPort d x | configId d x | configHandshake d x | configHasReceive d x | configHasTxDrained d x =>
    obtain ⟨hport, hid, hhandshake, hreceive, hdrained⟩ := hc d x
    contradiction
  | _ => rfl

/-- Only ALLOC binds descriptor names (R241). -/
theorem exec_names (h : exec i s = .next u) (ha : ∀ d x t, i ≠ .alloc d x t) :
    u.names = s.names := by
  refine (congrArg State.names (exec_eq_footprint h)).trans ?_
  cases i with
  | alloc d x t => exact absurd rfl (ha d x t)
  | _ => rfl

/-- Only SEND and PWRITE write shared memory (R42). -/
theorem exec_shm (h : exec i s = .next u)
    (hs : ∀ d m t, i ≠ .send d m t) (hp : ∀ w p c x, i ≠ .pwrite w p c x) :
    u.shm = s.shm := by
  refine (congrArg State.shm (exec_eq_footprint h)).trans ?_
  cases i with
  | send d m t => exact absurd rfl (hs d m t)
  | pwrite w p c x => exact absurd rfl (hp w p c x)
  | _ => rfl

/-- Only a write of TX or CLR, SEND and SYNC_IN change `tx` (R33). -/
theorem exec_tx (h : exec i s = .next u)
    (hw : ∀ x, i ≠ .wrTx x) (hc : ∀ x, i ≠ .wrClr x) (hs : ∀ d m t, i ≠ .send d m t)
    (hi : ∀ p c, i ≠ .syncIn p c) :
    u.tx = s.tx := by
  refine (congrArg State.tx (exec_eq_footprint h)).trans ?_
  cases i with
  | wrTx x => exact absurd rfl (hw x)
  | wrClr x => exact absurd rfl (hc x)
  | send d m t => exact absurd rfl (hs d m t)
  | syncIn p c => exact absurd rfl (hi p c)
  | _ => rfl

/-- Only PDRAIN and SYNC_OUT change `pv_tx` (R39). -/
theorem exec_pvTx (h : exec i s = .next u)
    (hd : ∀ p c, i ≠ .pdrain p c) (ho : ∀ p c, i ≠ .syncOut p c) :
    u.pvTx = s.pvTx := by
  refine (congrArg State.pvTx (exec_eq_footprint h)).trans ?_
  cases i with
  | pdrain p c => exact absurd rfl (hd p c)
  | syncOut p c => exact absurd rfl (ho p c)
  | _ => rfl

/-- Only PPOST and SYNC_OUT change `preq` (R40). -/
theorem exec_preq (h : exec i s = .next u)
    (hp : ∀ p c, i ≠ .ppost p c) (ho : ∀ p c, i ≠ .syncOut p c) :
    u.preq = s.preq := by
  refine (congrArg State.preq (exec_eq_footprint h)).trans ?_
  cases i with
  | ppost p c => exact absurd rfl (hp p c)
  | syncOut p c => exact absurd rfl (ho p c)
  | _ => rfl

/-- Only PPOST, PDRAIN and SYNC_IN change the inbound queues (R41). -/
theorem exec_inq (h : exec i s = .next u)
    (hp : ∀ p c, i ≠ .ppost p c) (hd : ∀ p c, i ≠ .pdrain p c)
    (hi : ∀ p c, i ≠ .syncIn p c) :
    u.inq = s.inq := by
  refine (congrArg State.inq (exec_eq_footprint h)).trans ?_
  cases i with
  | ppost p c => exact absurd rfl (hp p c)
  | pdrain p c => exact absurd rfl (hd p c)
  | syncIn p c => exact absurd rfl (hi p c)
  | _ => rfl

/-- Only a write of TX, STATUS or CLR, SEND, DISPATCH and SYNC_OUT change the outbound queues (R41). -/
theorem exec_outq (h : exec i s = .next u)
    (hw : ∀ x, i ≠ .wrTx x ∧ i ≠ .wrStatus x ∧ i ≠ .wrClr x) (hs : ∀ d m t, i ≠ .send d m t)
    (hd : i ≠ .dispatch) (ho : ∀ p c, i ≠ .syncOut p c) :
    u.outq = s.outq := by
  refine (congrArg State.outq (exec_eq_footprint h)).trans ?_
  cases i with
  | wrTx x | wrStatus x | wrClr x =>
    obtain ⟨htx, hstatus, hclr⟩ := hw x
    contradiction
  | send d m t => exact absurd rfl (hs d m t)
  | dispatch => exact absurd rfl hd
  | syncOut p c => exact absurd rfl (ho p c)
  | _ => rfl

/-- Only DISPATCH changes the Dispatcher's phase (R61). -/
theorem exec_dphase (h : exec i s = .next u) (hd : i ≠ .dispatch) :
    u.dphase = s.dphase := by
  refine (congrArg State.dphase (exec_eq_footprint h)).trans ?_
  cases i with
  | dispatch => exact absurd rfl hd
  | _ => rfl

/-- Only REGISTER, UNREGISTER and a raw write change MASK (R36). -/
theorem exec_mask (h : exec i s = .next u)
    (hr : ∀ d t, i ≠ .register d t) (hu : ∀ d t, i ≠ .unregister d t)
    (hw : ∀ x, i ≠ .wrMask x) :
    u.mask = s.mask := by
  refine (congrArg State.mask (exec_eq_footprint h)).trans ?_
  cases i with
  | register d t => exact absurd rfl (hr d t)
  | unregister d t => exact absurd rfl (hu d t)
  | wrMask x => exact absurd rfl (hw x)
  | _ => rfl

/-- Only REGISTER and UNREGISTER change the line enable, the tables and the counters (R37, R45, R46). -/
theorem exec_tables (h : exec i s = .next u) (hr : ∀ d t, i ≠ .register d t) (hu : ∀ d t, i ≠ .unregister d t) :
    u.lineEn = s.lineEn ∧ u.table = s.table ∧ u.free = s.free := by
  rw [exec_eq_footprint h]
  cases i with
  | register d t => exact absurd rfl (hr d t)
  | unregister d t => exact absurd rfl (hu d t)
  | _ => exact ⟨rfl, rfl, rfl⟩

/-- Only a write of STATUS, DISPATCH and SYNC_IN change `rx` and STATUS (R34, R35). -/
theorem exec_rx_status (h : exec i s = .next u) (hw : ∀ x, i ≠ .wrStatus x) (hd : i ≠ .dispatch)
    (hi : ∀ p c, i ≠ .syncIn p c) :
    u.rx = s.rx ∧ u.status = s.status := by
  rw [exec_eq_footprint h]
  cases i with
  | wrStatus x => exact absurd rfl (hw x)
  | dispatch => exact absurd rfl hd
  | syncIn p c => exact absurd rfl (hi p c)
  | _ => exact ⟨rfl, rfl⟩

/-- Only ALLOC, BRINGUP, a write of STATUS and DISPATCH take draws (log 4). -/
theorem exec_draws (h : exec i s = .next u) (ha : ∀ d x t, i ≠ .alloc d x t) (hb : ∀ t, i ≠ .bringup t)
    (hw : ∀ x, i ≠ .wrStatus x) (hd : i ≠ .dispatch) :
    u.tape = s.tape ∧ u.drawn = s.drawn := by
  rw [exec_eq_footprint h]
  cases i with
  | alloc d x t => exact absurd rfl (ha d x t)
  | bringup t => exact absurd rfl (hb t)
  | wrStatus x => exact absurd rfl (hw x)
  | dispatch => exact absurd rfl hd
  | _ => exact ⟨rfl, rfl⟩

/-- No operation changes the schedule (log 1, log 3). -/
theorem exec_schedule (h : exec i s = .next u) :
    u.cur = s.cur ∧ u.sched = s.sched ∧ u.tick = s.tick := by
  rw [exec_eq_footprint h]
  cases i <;> exact ⟨rfl, rfl, rfl⟩

end

/-- A refusal is the mark alone, and no operation clears it (R404). -/
theorem exec_refused {i : Instr} {s u : State} (h : exec i s = .next u) :
    u.refused = s.refused ∨ ∃ r, u = { s with refused := some r } := by
  rcases exec_next h with rfl | ⟨r, rfl⟩ | hd
  · exact .inl rfl
  · exact .inr ⟨r, rfl⟩
  · refine .inl ((congrArg State.refused hd.effect.eq_footprint).trans ?_)
    cases i <;> rfl

end Sys2Proof.Machine
end

