-- ==== Sys2Proof/Proofs/WhoChangesWhat.lean ====
section
/-! What an operation does to the agents (R30, R32, R63, R472), the fields that change one way only, and O49: who may
change what. -/

namespace Sys2Proof.Machine

open Sys2Proof.Claims

/-! ### The streams and SEND's locals -/

theorem State.updStream_callers_get (s : State) (f : Stream → Stream) (k : Nat) :
    (s.updStream f).callers[k]? =
      if s.cur = .caller k then (s.callers[k]?).map (fun c => { c with stream := f c.stream })
      else s.callers[k]? := by
  unfold State.updStream
  cases hc : s.cur with
  | caller j =>
    simp only [List.getElem?_modify, Agent.caller.injEq]
    split <;> simp
  | _ => simp

theorem State.setSend_callers_get (s : State) (x : Option SendLocals) (k : Nat) :
    (s.setSend x).callers[k]? =
      if s.cur = .caller k then (s.callers[k]?).map (fun c => { c with send := x }) else s.callers[k]? := by
  unfold State.setSend
  cases hc : s.cur with
  | caller j =>
    simp only [List.getElem?_modify, Agent.caller.injEq]
    split <;> simp
  | _ => simp

theorem State.updStream_callers_length (s : State) (f : Stream → Stream) :
    (s.updStream f).callers.length = s.callers.length := by
  unfold State.updStream
  split <;> simp

theorem State.setSend_callers_length (s : State) (x : Option SendLocals) :
    (s.setSend x).callers.length = s.callers.length := by
  unfold State.setSend
  split <;> simp

theorem State.updStream_peers_get (s : State) (f : Stream → Stream) (p : Port) :
    (s.updStream f).peers.get p = if s.cur = .peer p then f (s.peers.get p) else s.peers.get p := by
  unfold State.updStream
  cases hc : s.cur with
  | peer q =>
    simp only [PerPort.get_set, Agent.peer.injEq, eq_comm]
    split
    · next hq => rw [hq]
    · rfl
  | _ => simp

/-- What a step of the operation i does to the agents: no Caller comes or goes, only the issuing agent's stream moves,
and a SEND's locals change only by SEND (R30, R32, R63, R472). -/
def AgentsMoved (i : Instr) (s u : State) : Prop :=
  u.callers.length = s.callers.length ∧
    (∀ (k : Nat) c, s.callers[k]? = some c → ∃ c', u.callers[k]? = some c' ∧ StreamMoved i c.stream c'.stream ∧
      (s.cur ≠ .caller k → c' = c) ∧ ((∀ d m t, i ≠ .send d m t) → c'.send = c.send)) ∧
    ∀ p, StreamMoved i (s.peers.get p) (u.peers.get p) ∧ (s.cur ≠ .peer p → u.peers.get p = s.peers.get p)

/-- No agent moves where no stream and no SEND's locals change. -/
theorem AgentsMoved.of_eq {i : Instr} {s u : State} (hc : u.callers = s.callers) (hp : u.peers = s.peers) :
    AgentsMoved i s u := by
  refine ⟨by rw [hc], fun k c hk => ?_, fun p => ?_⟩
  · exact ⟨c, by rw [hc]; exact hk, streamMoved_refl i _, fun _ => rfl, fun _ => rfl⟩
  · rw [hp]
    exact ⟨streamMoved_refl i _, fun _ => rfl⟩

theorem AgentsMoved.updStream {i : Instr} {s v : State} {f : Stream → Stream} (hcur : v.cur = s.cur)
    (hc : v.callers = s.callers) (hp : v.peers = s.peers) (hf : ∀ a, StreamMoved i a (f a)) :
    AgentsMoved i s (v.updStream f) := by
  refine ⟨by rw [State.updStream_callers_length, hc], fun k c hk => ?_, fun p => ?_⟩
  · rw [State.updStream_callers_get, hcur, hc, hk]
    split
    · next hk => exact ⟨_, rfl, hf _, fun hne => absurd hk hne, fun _ => rfl⟩
    · exact ⟨c, rfl, streamMoved_refl i _, fun _ => rfl, fun _ => rfl⟩
  · rw [State.updStream_peers_get, hcur, hp]
    split
    · next hp => exact ⟨hf _, fun hne => absurd hp hne⟩
    · exact ⟨streamMoved_refl i _, fun _ => rfl⟩

theorem AgentsMoved.setSend {i : Instr} {s v : State} (x : Option SendLocals) (hcur : v.cur = s.cur)
    (hi : ∃ d m t, i = .send d m t) (h : AgentsMoved i s v) : AgentsMoved i s (v.setSend x) := by
  obtain ⟨hlen, hcallers, hpeers⟩ := h
  refine ⟨by rw [State.setSend_callers_length, hlen], fun k c hk => ?_, by rw [State.setSend_peers]; exact hpeers⟩
  obtain ⟨c', hc', hstream, hother, -⟩ := hcallers k c hk
  obtain ⟨d, m, t, hsend⟩ := hi
  rw [State.setSend_callers_get, hcur, hc']
  split
  · next hk => exact ⟨_, rfl, hstream, fun hne => absurd hk hne, fun hne => absurd hsend (hne d m t)⟩
  · exact ⟨c', rfl, hstream, hother, fun hne => absurd hsend (hne d m t)⟩

theorem Effect.cur {i : Instr} {s u : State} (h : Effect i s u) : u.cur = s.cur := by
  refine (congrArg State.cur h.eq_footprint).trans ?_
  cases i <;> rfl

/-- The agents are in no footprint. -/
theorem agents_of_footprint {i : Instr} {s v : State} (hv : v = footprint i s v) :
    v.cur = s.cur ∧ v.callers = s.callers ∧ v.peers = s.peers := by
  rw [hv]
  cases i <;> exact ⟨rfl, rfl, rfl⟩

theorem Effect.agentsMoved {i : Instr} {s u : State} (h : Effect i s u) : AgentsMoved i s u := by
  induction h with
  | fields hv =>
    obtain ⟨-, hc, hp⟩ := agents_of_footprint hv
    exact .of_eq hc hp
  | stream hv hf =>
    obtain ⟨hcur, hc, hp⟩ := agents_of_footprint hv
    exact .updStream hcur hc hp hf
  | locals x hi hv ih => exact .setSend x hv.cur hi ih

theorem exec_agentsMoved {i : Instr} {s u : State} (h : exec i s = .next u) : AgentsMoved i s u := by
  rcases exec_next h with rfl | ⟨r, rfl⟩ | hd
  · exact .of_eq rfl rfl
  · exact .of_eq rfl rfl
  · exact hd.effect.agentsMoved

/-! ### Fields that change one way only -/

/-- REGISTER's body logs nothing and removes no record (R243). -/
theorem State.register_log_desc {s : State} {h : Handle} {D : Desc} (hD : s.desc[h]? = some D) :
    (s.register h D).1.log = s.log ∧ (s.register h D).1.desc.length = s.desc.length := by
  rcases State.register_cases hD with he | ⟨p, -, he⟩ | ⟨p, j, e, -, -, he⟩ | ⟨p, j, -, -, -, -, he⟩ <;> rw [he]
  · exact ⟨rfl, rfl⟩
  · exact ⟨rfl, rfl⟩
  · exact ⟨rfl, List.length_set⟩
  · exact ⟨rfl, List.length_set⟩

/-- UNREGISTER's body logs nothing (R247). -/
theorem State.unregister_log (s : State) (h : Handle) : (s.unregister h).1.log = s.log := by
  rcases State.unregister_cases s h with ⟨-, he⟩ | ⟨p, j, e, -, -, he⟩ <;> rw [he]

theorem SendDid.log_grows {s u : State} {msg : MsgExpr} {t : VarName} (hd : SendDid s msg t u) :
    ∃ l, u.log = s.log ++ l := by
  rcases hd with ⟨code, -, rfl⟩ | ⟨p, c, e, -, -, rfl⟩ | ⟨k, x, l, -, -, -, hl⟩
  · exact ⟨_, State.finishSend_log s t code⟩
  · exact ⟨[], by simp⟩
  · rcases hl with ⟨ph, rfl⟩ | ⟨j, t1, -, -, rfl⟩ | ⟨t1, t2, -, rfl⟩
    · exact ⟨[], by simp⟩
    · exact ⟨[], by simp⟩
    · exact ⟨_, State.finishSend_log _ t .ok⟩

theorem DispatchDid.log_grows {s u : State} (hd : DispatchDid s u) : ∃ l, u.log = s.log ++ l := by
  rcases hd with ⟨-, -, rfl⟩ | ⟨-, rfl⟩ | ⟨w, -, rfl⟩ | ⟨w, -, rfl⟩ | ⟨w, m, -, rfl⟩ | ⟨w, m, a, buf, -, rfl⟩ |
    ⟨w, m, a, it, rest, buf, -, ⟨e, buf', rfl⟩ | ⟨buf', rfl⟩⟩
  · exact ⟨[], by simp⟩
  · exact ⟨[], by simp⟩
  · exact ⟨[], by simp⟩
  · exact ⟨[], by simp⟩
  · exact ⟨[], by simp⟩
  · exact ⟨[], by simp⟩
  · exact ⟨[e], rfl⟩
  · exact ⟨[], by simp⟩

/-- A move only adds to the log (R60). -/
theorem Did.log_grows {i : Instr} {s u : State} (hd : Did s i u) : ∃ l, u.log = s.log ++ l := by
  cases i with
  | alloc d extra t => rcases hd with rfl | rfl <;> exact ⟨_, by simp; rfl⟩
  | register d t =>
    obtain ⟨-, rfl | ⟨h, D, hD, rfl⟩⟩ := hd
    · exact ⟨_, State.finish_log ..⟩
    · exact ⟨_, by rw [State.finish_log, (State.register_log_desc hD).1]⟩
  | unregister d t =>
    obtain ⟨-, rfl | ⟨h, rfl⟩⟩ := hd
    · exact ⟨_, State.finish_log ..⟩
    · exact ⟨_, by rw [State.finish_log, State.unregister_log]⟩
  | send d msg t => exact SendDid.log_grows hd
  | bringup t => obtain ⟨-, rfl | rfl⟩ := hd <;> exact ⟨_, by simp; rfl⟩
  | dispatch => exact DispatchDid.log_grows hd
  | pread w p c t => obtain ⟨-, v, rfl⟩ := hd; exact ⟨[.peerRead p c w v], by simp⟩
  | _ => exact ⟨[], (congrArg State.log hd.effect.eq_footprint).trans (List.append_nil _).symm⟩

theorem exec_log_grows {i : Instr} {s u : State} (h : exec i s = .next u) : ∃ l, u.log = s.log ++ l := by
  rcases exec_next h with rfl | ⟨r, rfl⟩ | hd
  · exact ⟨[], (List.append_nil _).symm⟩
  · exact ⟨[], (List.append_nil _).symm⟩
  · exact hd.log_grows

/-- A move removes no record (R44). -/
theorem Did.desc_length {i : Instr} {s u : State} (hd : Did s i u) : s.desc.length ≤ u.desc.length := by
  cases i with
  | alloc d extra t => rcases hd with rfl | rfl <;> simp [State.allocate]
  | configPort d x | configId d x | configHandshake d x | configHasReceive d x | configHasTxDrained d x =>
    obtain ⟨h, D, -, rfl⟩ := hd
    simp
  | register d t =>
    obtain ⟨-, rfl | ⟨h, D, hD, rfl⟩⟩ := hd
    · simp
    · simp [(State.register_log_desc hD).2]
  | _ => exact le_of_eq (congrArg (List.length ∘ State.desc) hd.effect.eq_footprint).symm

theorem exec_desc_length {i : Instr} {s u : State} (h : exec i s = .next u) : s.desc.length ≤ u.desc.length := by
  rcases exec_next h with rfl | ⟨r, rfl⟩ | hd
  · exact le_rfl
  · exact le_rfl
  · exact hd.desc_length

/-- The device state leaves UNINIT only (R452). -/
theorem exec_dev_of_ne_uninit {i : Instr} {s u : State} (h : exec i s = .next u) (hs : s.dev ≠ .uninit) :
    u.dev = s.dev := by
  cases i with
  | bringup t =>
    rcases exec_next h with rfl | ⟨r, rfl⟩ | ⟨hd, -⟩
    · rfl
    · rfl
    · exact absurd hd hs
  | _ => exact exec_dev h (by simp)

/-- A delivery in AP's domain sets STATUS bits and clears none (R361, R362). -/
theorem State.deliverIn_status_of_set {s : State} (p : Port) (c : Chan) (e : InEvent) {b : Nat}
    (hb : s.status.getLsbD b = true) : (s.deliverIn p c e).status.getLsbD b = true := by
  cases e with
  | post => simp [hb]
  | drain => rw [State.deliverIn_drain_status]; split <;> simp [hb]

/-- Only a write of STATUS and DISPATCH clear a STATUS bit (R35). -/
theorem exec_status_of_set {i : Instr} {s u : State} (h : exec i s = .next u) (hw : ∀ x, i ≠ .wrStatus x)
    (hd : i ≠ .dispatch) {b : Nat} (hb : s.status.getLsbD b = true) : u.status.getLsbD b = true := by
  cases i with
  | syncIn p c =>
    rcases exec_next h with rfl | ⟨r, rfl⟩ | ⟨e, rest, -, rfl⟩
    · exact hb
    · exact hb
    · exact State.deliverIn_status_of_set p c e hb
  | _ => rw [(exec_rx_status h hw hd (by simp)).2]; exact hb

/-- A step keeps the parameters and the number of Callers (R9). -/
theorem step_cfg_callers {s u : State} (h : step s = .next u) :
    u.cfg = s.cfg ∧ u.callers.length = s.callers.length := by
  rcases step_next h with rfl | ⟨r, rfl⟩ | ⟨i, hi⟩
  · simp
  · simp
  · rw [exec_cfg hi, (exec_agentsMoved hi).1]
    simp

/-- Settles O49: outside its footprint an operation changes only the issuing agent's stream and the refusal mark
(`exec_eq_footprint`, `exec_agentsMoved`); the log, the records, the device state and STATUS change one way only. -/
theorem onlyTheNamedOperationsChangeState : Obligations.OnlyTheNamedOperationsChangeState := by
  refine ⟨fun i s u h => ?ops, fun s u h hn => ?callers⟩
  case callers =>
    obtain ⟨hcfg, hlen⟩ := step_cfg_callers h
    rw [State.callersCounted, hcfg, hlen]
    exact hn
  case ops =>
    exact ⟨exec_cfg h, exec_log_grows h, exec_desc_length h, exec_dev_of_ne_uninit h, exec_dev h, exec_desc h,
      exec_names h,
      fun hr hu =>
        have ⟨hline, htable, hfree⟩ := exec_tables h hr hu
        ⟨hline, htable, hfree, exec_mask h hr hu⟩,
      exec_shm h, exec_tx h, exec_rx_status h, exec_pvTx h, exec_preq h, exec_inq h, exec_outq h, exec_dphase h,
      fun hw hd _ => exec_status_of_set h hw hd, exec_agentsMoved h, exec_refused h, exec_schedule h, exec_draws h⟩

end Sys2Proof.Machine
end

