-- ==== Sys2Proof/Proofs/StepInvariants.lean ====
section
/-! How an invariant of the operations becomes one of the steps; and with it O57, shared memory stays in canonical form
(R42, R101; log 5). -/

namespace Sys2Proof.Machine

/-- An invariant that neither the scheduling choice nor a refusal mark touches, and that every operation keeps, is kept
by every step (R30, R404). -/
theorem step_keeps {P : State → Prop} (hsched : ∀ s, P s → P s.scheduled) (hraise : ∀ s r, P s → P (s.raise r))
    (hexec : ∀ i s u, P s → exec i s = .next u → P u) {s u : State} (hs : P s) (h : step s = .next u) : P u := by
  rcases step_next h with rfl | ⟨r, rfl⟩ | ⟨i, hi⟩
  · exact hsched s hs
  · exact hraise _ r (hsched s hs)
  · exact hexec i _ u (hsched s hs) hi

/-! ### Shared memory in canonical form (R42, R101) -/

theorem memoryWf_congr {s u : State} (hcfg : u.cfg = s.cfg) (hm : u.shm = s.shm) (h : s.memoryWf) : u.memoryWf := by
  unfold State.memoryWf
  rw [hcfg, hm]
  exact h

/-- An access R106 admits lies inside the region (R101). -/
theorem shmOk_bounds {cfg : Params} {addr : Nat} (h : cfg.shmOk addr = true) :
    cfg.shmBase ≤ addr ∧ addr + 4 ≤ cfg.shmBase + regionBytes := by
  simp only [Params.shmOk, Bool.and_eq_true, decide_eq_true_eq] at h
  obtain ⟨⟨-, hlo⟩, hhi⟩ := h
  exact ⟨hlo, hhi⟩

/-- A word write inside the region keeps the canonical form and lists only its own four addresses anew (R101, R107). -/
theorem memoryWf_writeWord {s u : State} {addr : Nat} {v : Word} (hok : s.cfg.shmOk addr = true)
    (hcfg : u.cfg = s.cfg) (hm : u.shm = s.shm.writeWord s.cfg.byteOrder addr v) (h : s.memoryWf) :
    u.memoryWf := by
  obtain ⟨hsorted, hregion⟩ := h
  obtain ⟨hlo, hhi⟩ := shmOk_bounds hok
  rw [State.memoryWf, hcfg, hm]
  refine ⟨Memory.writeWord_wf _ _ _ _ hsorted, fun x hx => ?_⟩
  rcases Memory.mem_writeWord _ _ _ _ x hx with ⟨h1, h2⟩ | hx
  · exact ⟨hlo.trans h1, h2.trans_le hhi⟩
  · exact hregion x hx

/-- A step of SEND writes nothing to shared memory, or the next word of its message at an address R106 admits (R283). -/
theorem SendDid.shm_cases {s u : State} {msg : MsgExpr} {t : VarName} (hd : SendDid s msg t u) :
    u.shm = s.shm ∨
      ∃ addr v, s.cfg.shmOk addr = true ∧ u.shm = s.shm.writeWord s.cfg.byteOrder addr v := by
  rcases hd with ⟨code, -, rfl⟩ | ⟨p, c, e, -, -, rfl⟩ | ⟨k, x, l, -, -, -, ⟨ph, rfl⟩ | ⟨i, t1, -, hok, rfl⟩ |
    ⟨t1, t2, -, rfl⟩⟩
  · exact .inl (by simp)
  · exact .inl (by simp)
  · exact .inl (by simp)
  · exact .inr ⟨_, _, hok, State.setSend_shm ..⟩
  · exact .inl (by simp)

theorem exec_memoryWf {i : Instr} {s u : State} (h : s.memoryWf) (hx : exec i s = .next u) : u.memoryWf := by
  rcases exec_next hx with rfl | ⟨r, rfl⟩ | hd
  · exact h
  · exact h
  cases i with
  | send d msg t =>
    rcases SendDid.shm_cases hd with hm | ⟨addr, v, hok, hm⟩
    · exact memoryWf_congr (exec_cfg hx) hm h
    · exact memoryWf_writeWord hok (exec_cfg hx) hm h
  | pwrite w p c x =>
    obtain ⟨-, hok, rfl⟩ := hd
    exact memoryWf_writeWord hok (exec_cfg hx) (State.retire_shm _) h
  | _ => exact memoryWf_congr (exec_cfg hx) (exec_shm hx (by simp) (by simp)) h

/-- Settles O57: only SEND and PWRITE write shared memory, a word inside the region at a time. -/
theorem stepsKeepMemoryWellFormed : Obligations.StepsKeepMemoryWellFormed := fun _ _ =>
  step_keeps (fun s h => memoryWf_congr (State.scheduled_cfg s) (State.scheduled_shm s) h) (fun _ _ h => h)
    fun _ _ _ h hx => exec_memoryWf h hx

end Sys2Proof.Machine
end

