-- ==== Sys2Proof/Proofs/StatusBits.lean ====
section
/-! The invariants of the status bits: O52, `rx` mirrors the FULL bits (R64(a)); O54, MASK agrees with the tables
(R64(c)). -/

namespace Sys2Proof.Machine

/-! ### One status bit seen at the status bits (R12, R35) -/

section
variable {cfg : Params} (h : cfg.wf = true) (p q : Port) (j c : Chan)
include h

theorem getLsbD_bit_fullBit_fullBit :
    (bit (cfg.fullBit p j)).getLsbD (cfg.fullBit q c) = decide (q = p ∧ c = j) := by
  simp only [getLsbD_bit, Params.fullBit_inj h, Params.fullBit_lt h, decide_true, Bool.and_true]

theorem getLsbD_bit_emptyBit_emptyBit :
    (bit (cfg.emptyBit p j)).getLsbD (cfg.emptyBit q c) = decide (q = p ∧ c = j) := by
  simp only [getLsbD_bit, Params.emptyBit_inj h, Params.emptyBit_lt h, decide_true, Bool.and_true]

theorem getLsbD_bit_fullBit_emptyBit : (bit (cfg.fullBit p j)).getLsbD (cfg.emptyBit q c) = false := by
  rw [getLsbD_bit, decide_eq_false (Params.fullBit_ne_emptyBit h p q j c).symm, Bool.false_and]

theorem getLsbD_bit_emptyBit_fullBit : (bit (cfg.emptyBit p j)).getLsbD (cfg.fullBit q c) = false := by
  rw [getLsbD_bit, decide_eq_false (Params.fullBit_ne_emptyBit h q p c j), Bool.false_and]

end

/-! ### `rx` and the FULL bits (R64(a)) -/

theorem rxMirrorsFull_congr {s u : State} (hcfg : u.cfg = s.cfg) (hrx : u.rx = s.rx) (hst : u.status = s.status)
    (h : s.rxMirrorsFull) : u.rxMirrorsFull := by
  unfold State.rxMirrorsFull
  rw [hcfg, hrx, hst]
  exact h

/-- Clearing STATUS bits clears `rx` with the FULL bits (R207). -/
theorem rxMirrorsFull_clearStatus {s : State} (hwf : s.cfg.wf = true) (w : Word) (h : s.rxMirrorsFull) :
    (s.clearStatus w).rxMirrorsFull := fun p c => by
  simp [h p c, Params.fullBit_lt hwf p c]

theorem rxMirrorsFull_writeStatus {s : State} (hwf : s.cfg.wf = true) (w : Word) (h : s.rxMirrorsFull) :
    (s.writeStatus w).rxMirrorsFull :=
  rxMirrorsFull_clearStatus (by rw [State.afterKeep_cfg]; exact hwf) _
    (rxMirrorsFull_congr (State.afterKeep_cfg s) (State.afterKeep_rx s) (State.afterKeep_status s) h)

/-- A delivered POST sets `rx` with its FULL bit, a delivered DRAIN an EMPTY bit, which is no FULL bit (R361, R362). -/
theorem rxMirrorsFull_deliverIn {s : State} (hwf : s.cfg.wf = true) (p : Port) (c : Chan) (e : InEvent)
    (h : s.rxMirrorsFull) : (s.deliverIn p c e).rxMirrorsFull := fun q d => by
  rw [State.deliverIn_cfg]
  cases e with
  | post =>
    rw [State.deliverIn_post_rx, State.deliverIn_post_status, Chans.get_set, BitVec.getLsbD_or,
      getLsbD_bit_fullBit_fullBit hwf, h q d]
    by_cases hq : q = p ∧ d = c <;> simp [hq]
  | drain =>
    rw [State.deliverIn_drain_rx, State.deliverIn_drain_status, h q d]
    split
    · rw [BitVec.getLsbD_or, getLsbD_bit_emptyBit_fullBit hwf, Bool.or_false]
    · rfl

/-- A step of DISPATCH acknowledges its snapshot, or leaves `rx`, STATUS and the outbound queues alone
(R306 to R309). -/
theorem DispatchDid.acknowledges_or {s u : State} (hd : DispatchDid s u) :
    (∃ w, s.dphase = .snap w ∧ u = { s.mmioWrite .status w with dphase := .ack w }) ∨
      (u.rx = s.rx ∧ u.status = s.status ∧ u.outq = s.outq) := by
  rcases hd with ⟨-, -, rfl⟩ | ⟨-, rfl⟩ | hack | ⟨w, -, rfl⟩ | ⟨w, m, -, rfl⟩ | ⟨w, m, a, buf, -, rfl⟩ |
    ⟨w, m, a, it, rest, buf, -, ⟨e, buf', rfl⟩ | ⟨buf', rfl⟩⟩
  · exact .inr (by simp)
  · exact .inr (by simp)
  · exact .inl hack
  · exact .inr (by simp)
  · exact .inr (by simp)
  · exact .inr (by simp)
  · exact .inr (by simp)
  · exact .inr (by simp)

theorem exec_rxMirrorsFull {i : Instr} {s u : State} (hwf : s.cfg.wf = true) (h : s.rxMirrorsFull)
    (hx : exec i s = .next u) : u.rxMirrorsFull := by
  rcases exec_next hx with rfl | ⟨r, rfl⟩ | hd
  · exact h
  · exact h
  cases i with
  | wrStatus x =>
    subst hd
    exact rxMirrorsFull_congr (State.retire_cfg _) (State.retire_rx _) (State.retire_status _)
      (rxMirrorsFull_writeStatus hwf _ h)
  | dispatch =>
    rcases DispatchDid.acknowledges_or hd with ⟨w, -, rfl⟩ | ⟨hrx, hst, -⟩
    · exact rxMirrorsFull_writeStatus hwf w h
    · exact rxMirrorsFull_congr (exec_cfg hx) hrx hst h
  | syncIn p c =>
    obtain ⟨e, rest, -, rfl⟩ := hd
    exact rxMirrorsFull_deliverIn (s := { s with inq := s.inq.set p c rest }) hwf p c e h
  | _ =>
    obtain ⟨hrx, hst⟩ := exec_rx_status hx (by simp) (by simp) (by simp)
    exact rxMirrorsFull_congr (exec_cfg hx) hrx hst h

/-- Settles O52: only a write of STATUS, DISPATCH's acknowledgement and SYNC_IN change `rx` or STATUS, and each changes
them together. -/
theorem stepsKeepRxMirroringFull : Obligations.StepsKeepRxMirroringFull := fun s u hwf h =>
  step_keeps (P := fun s => s.cfg.wf = true ∧ s.rxMirrorsFull)
    (fun s ⟨hwf, h⟩ => ⟨by rw [State.scheduled_cfg]; exact hwf,
      rxMirrorsFull_congr (State.scheduled_cfg s) (State.scheduled_rx s) (State.scheduled_status s) h⟩)
    (fun _ _ h => h)
    (fun i s u ⟨hwf, h⟩ hx => ⟨by rw [exec_cfg hx]; exact hwf, exec_rxMirrorsFull hwf h hx⟩)
    ⟨hwf, h⟩

/-! ### MASK and the tables (R64(c)) -/

theorem maskFollowsTables_congr {s u : State} (hcfg : u.cfg = s.cfg) (hm : u.mask = s.mask) (ht : u.table = s.table)
    (h : s.maskFollowsTables) : u.maskFollowsTables := by
  unfold State.maskFollowsTables
  rw [hcfg, hm, ht]
  exact h

/-- Unmasking the bits of a new entry follows the entry (R244). -/
theorem maskFollowsTables_install {s u : State} {p : Port} {j : Chan} {e : Entry} (hwf : s.cfg.wf = true)
    (hfree : s.table.get p j = none) (hcfg : u.cfg = s.cfg)
    (hm : u.mask = s.mask ||| bit (s.cfg.fullBit p j) ||| (if e.hs then bit (s.cfg.emptyBit p j) else 0))
    (ht : u.table = s.table.set p j (some e)) (h : s.maskFollowsTables) : u.maskFollowsTables := fun q c => by
  have hnew : ∀ b, (if e.hs then bit (s.cfg.emptyBit p j) else 0).getLsbD b =
      (e.hs && (bit (s.cfg.emptyBit p j)).getLsbD b) := fun b => by cases e.hs <;> simp
  obtain ⟨hfull, hempty⟩ := h q c
  rw [hcfg, hm, ht, Chans.get_set]
  simp only [BitVec.getLsbD_or, hnew, getLsbD_bit_fullBit_fullBit hwf, getLsbD_bit_fullBit_emptyBit hwf,
    getLsbD_bit_emptyBit_fullBit hwf, getLsbD_bit_emptyBit_emptyBit hwf, hfull, hempty]
  by_cases hq : q = p ∧ c = j
  · obtain ⟨rfl, rfl⟩ := hq
    simp [hfree]
  · simp [hq]

/-- Masking the bits of an entry that is removed follows its removal (R247). -/
theorem maskFollowsTables_remove {s u : State} {p : Port} {j : Chan} (hwf : s.cfg.wf = true) (hcfg : u.cfg = s.cfg)
    (hm : u.mask = s.mask &&& ~~~(bit (s.cfg.fullBit p j) ||| bit (s.cfg.emptyBit p j)))
    (ht : u.table = s.table.set p j none) (h : s.maskFollowsTables) : u.maskFollowsTables := fun q c => by
  obtain ⟨hfull, hempty⟩ := h q c
  rw [hcfg, hm, ht, Chans.get_set]
  simp only [BitVec.getLsbD_and, BitVec.getLsbD_not, BitVec.getLsbD_or, getLsbD_bit_fullBit_fullBit hwf,
    getLsbD_bit_fullBit_emptyBit hwf, getLsbD_bit_emptyBit_fullBit hwf, getLsbD_bit_emptyBit_emptyBit hwf,
    Params.fullBit_lt hwf, Params.emptyBit_lt hwf, hfull, hempty]
  by_cases hq : q = p ∧ c = j <;> simp [hq]

/-- A result code changes no register, table, counter or record (R400). -/
theorem maskFollowsTables_finish {s : State} (op : ChmOp) (t : VarName) (code : ResultCode)
    (h : s.maskFollowsTables) : (s.finish op t code).maskFollowsTables :=
  maskFollowsTables_congr (State.finish_cfg ..) (State.finish_mask ..) (State.finish_table ..) h

theorem maskFollowsTables_register {s : State} {g : Handle} {D : Desc} (hwf : s.cfg.wf = true)
    (hD : s.desc[g]? = some D) (h : s.maskFollowsTables) : (s.register g D).1.maskFollowsTables := by
  rcases State.register_cases hD with he | ⟨p, -, he⟩ | ⟨p, j, e, -, -, he⟩ | ⟨p, j, -, -, -, hfree, he⟩ <;> rw [he]
  case inl => exact h
  case inr.inl => exact maskFollowsTables_congr rfl rfl rfl h
  case inr.inr.inl => exact maskFollowsTables_congr rfl rfl rfl h
  case inr.inr.inr => exact maskFollowsTables_install hwf hfree rfl rfl rfl h

theorem maskFollowsTables_unregister {s : State} (g : Handle) (hwf : s.cfg.wf = true) (h : s.maskFollowsTables) :
    (s.unregister g).1.maskFollowsTables := by
  rcases State.unregister_cases s g with ⟨-, he⟩ | ⟨p, j, e, -, -, he⟩ <;> rw [he]
  · exact h
  · exact maskFollowsTables_remove hwf rfl rfl rfl h

/-- Settles O54: REGISTER and UNREGISTER change MASK and a table together, and of the others only a raw write changes
either. -/
theorem operationsKeepMaskFollowingTables : Obligations.OperationsKeepMaskFollowingTables := by
  intro i s u hwf h hw hx
  rcases exec_next hx with rfl | ⟨r, rfl⟩ | hd
  · exact h
  · exact h
  cases i with
  | register d t =>
    obtain ⟨-, rfl | ⟨g, D, hD, rfl⟩⟩ := hd
    · exact maskFollowsTables_finish _ _ _ h
    · exact maskFollowsTables_finish _ _ _ (maskFollowsTables_register hwf hD h)
  | unregister d t =>
    obtain ⟨-, rfl | ⟨g, rfl⟩⟩ := hd
    · exact maskFollowsTables_finish _ _ _ h
    · exact maskFollowsTables_finish _ _ _ (maskFollowsTables_unregister g hwf h)
  | _ =>
    exact maskFollowsTables_congr (exec_cfg hx) (exec_mask hx (by simp) (by simp) hw)
      (exec_tables hx (by simp) (by simp)).2.1 h

end Sys2Proof.Machine
end

