-- ==== Sys2Proof/Proofs/RegistrationInvariant.lean ====
section
/-! O53: every step keeps the registration invariant (R37, R45, R46, R243, R246, R247; log 30). -/

namespace Sys2Proof.Machine

/-! ### What the invariant depends on -/

theorem registrationInv_congr {s u : State} (hl : u.lineEn = s.lineEn) (ht : u.table = s.table) (hf : u.free = s.free)
    (hd : u.desc = s.desc) (h : s.registrationInv) : u.registrationInv := by
  unfold State.registrationInv State.lineFollowsTables State.countersAgree State.handlesUnique State.entriesSound
    State.registeredCount
  rw [hl, ht, hf, hd]
  exact h

/-- The records may change as long as each entry's record keeps its port and its id, or its id becomes the rejected
sentinel (R243, R246(c)). -/
theorem registrationInv_desc {s : State} {l : List Desc} (h : s.registrationInv)
    (hl : ∀ p c e, s.table.get p c = some e → ∀ D, s.desc[e.d]? = some D →
      ∃ D', l[e.d]? = some D' ∧ D'.port = D.port ∧ (D'.id = D.id ∨ D'.id = idRejected)) :
    ({ s with desc := l } : State).registrationInv := by
  obtain ⟨hline, hcount, hunique, hsound⟩ := h
  refine ⟨hline, hcount, hunique, fun p c e he => ?_⟩
  obtain ⟨⟨D, hD, hport, hid⟩, hslots⟩ := hsound p c e he
  obtain ⟨D', hD', hport', hid'⟩ := hl p c e he D hD
  refine ⟨⟨D', hD', hport'.trans hport, ?_⟩, hslots⟩
  rcases hid' with hid' | hid'
  · rwa [hid']
  · exact .inr hid'

/-! ### The updates of the operations -/

/-- A fresh record leaves the others in place (R241). -/
theorem registrationInv_append {s : State} (D : Desc) (h : s.registrationInv) :
    ({ s with desc := s.desc ++ [D] } : State).registrationInv :=
  registrationInv_desc h fun _ _ _ _ E hE => by
    obtain ⟨hlt, -⟩ := List.getElem?_eq_some_iff.1 hE
    exact ⟨E, by rw [List.getElem?_append_left hlt]; exact hE, rfl, .inl rfl⟩

/-- The record of a handle without an entry may become any record (R242). -/
theorem registrationInv_config {s : State} {g : Handle} (D : Desc) (hg : s.entryOf g = none) (h : s.registrationInv) :
    ({ s with desc := s.desc.set g D } : State).registrationInv :=
  registrationInv_desc h fun p c e he E hE =>
    have hne : g ≠ e.d := (State.entryOf_eq_none.1 hg p c e he).symm
    ⟨E, by rw [List.getElem?_set_ne hne]; exact hE, rfl, .inl rfl⟩

/-- A rejected registration marks the record only (R246(c)). -/
theorem registrationInv_reject {s : State} {g : Handle} {D : Desc} (hD : s.desc[g]? = some D)
    (h : s.registrationInv) :
    ({ s with desc := s.desc.set g { D with id := idRejected } } : State).registrationInv :=
  registrationInv_desc h fun p c e _ E hE => by
    by_cases hg : g = e.d
    · subst hg
      obtain rfl : D = E := Option.some.inj (hD.symm.trans hE)
      obtain ⟨hlt, -⟩ := List.getElem?_eq_some_iff.1 hE
      exact ⟨_, List.getElem?_set_self hlt, rfl, .inr rfl⟩
    · exact ⟨E, by rw [List.getElem?_set_ne hg]; exact hE, rfl, .inl rfl⟩

theorem tableSize_of_firstFree_eq_none {s : State} {p : Port} (h : s.firstFree p = none) :
    tableSize s.table p = 8 := by
  unfold State.firstFree at h
  rw [List.find?_eq_none] at h
  refine List.countP_eq_length.2 fun c hc => ?_
  simpa [Option.isSome_iff_ne_none] using h c hc

/-- Where REGISTER finds no room a channel is registered already, so it does not open the line (R37, R243, R246). -/
theorem openLine_of_no_room {s : State} {p : Port} (h : s.registrationInv)
    (hp : s.free.get p = 0 ∨ s.firstFree p = none) : s.openLine = s := by
  obtain ⟨-, hcount, -, -⟩ := h
  have hfull : tableSize s.table p = 8 := by
    rcases hp with hp | hp
    · have := hcount p
      omega
    · exact tableSize_of_firstFree_eq_none hp
  refine State.openLine_of_registered ?_
  unfold State.registeredCount
  cases p <;> omega

/-- A handle whose record names the port p and an id that no entry of p holds, or none, has no entry (R45(b)). -/
theorem entry_d_ne_of_free {s : State} {g : Handle} {D : Desc} {p : Port} {j : Chan} (hs : s.entriesSound)
    (hD : s.desc[g]? = some D) (hport : D.port = p.toWord) (hid : D.id = j.val ∨ D.id = idUnassigned)
    (hfree : s.table.get p j = none) {q : Port} {c : Chan} {e : Entry} (he : s.table.get q c = some e) : e.d ≠ g := by
  rintro rfl
  obtain ⟨⟨D', hD', hport', hid'⟩, -⟩ := hs q c e he
  obtain rfl : D = D' := Option.some.inj (hD.symm.trans hD')
  obtain rfl : p = q := by
    have := Port.ofWord_toWord q
    rw [← hport', hport, Port.ofWord_toWord] at this
    exact Option.some.inj this
  have hne : c ≠ j := by
    rintro rfl
    rw [he] at hfree
    cases hfree
  rw [ne_eq, Fin.ext_iff] at hne
  simp only [idUnassigned, idRejected] at hid hid'
  omega

/-- A successful REGISTER (R243, R245). -/
theorem registrationInv_install {s : State} {g : Handle} {D : Desc} {p : Port} {j : Chan} (m : Word)
    (hD : s.desc[g]? = some D) (hport : D.port = p.toWord) (hid : D.id = j.val ∨ D.id = idUnassigned)
    (hroom : s.free.get p ≠ 0) (hfree : s.table.get p j = none) (h : s.registrationInv) :
    ({ s with
        lineEn := s.lineEn || decide (s.registeredCount = 0)
        desc := s.desc.set g { D with id := j.val }
        table := s.table.set p j (some ⟨g, D.handshake, D.hasTxDrained, rslot p j, wslot p j⟩)
        free := s.free.set p (s.free.get p - 1)
        mask := m } : State).registrationInv := by
  obtain ⟨hline, hcount, hunique, hsound⟩ := h
  have hnew {q c e} (he : s.table.get q c = some e) : e.d ≠ g := entry_d_ne_of_free hsound hD hport hid hfree he
  have hsize (q : Port) :
      tableSize (s.table.set p j (some ⟨g, D.handshake, D.hasTxDrained, rslot p j, wslot p j⟩)) q =
        tableSize s.table q + if q = p then 1 else 0 := by
    simpa [hfree] using tableSize_set s.table p q j (some ⟨g, D.handshake, D.hasTxDrained, rslot p j, wslot p j⟩)
  refine ⟨?line, fun q => ?count, fun q c e r d f he hf hef => ?unique, fun q c e he => ?sound⟩
  case line =>
    refine iff_of_true ?_ ?_
    · rw [Bool.or_eq_true, decide_eq_true_eq]
      rcases Nat.eq_zero_or_pos s.registeredCount with hz | hpos
      · exact .inr hz
      · exact .inl (hline.2 hpos)
    · simp only [State.registeredCount, hsize]
      cases p <;> simp
  case count =>
    have hq := hcount q
    rw [hsize, PerPort.get_set]
    split
    · next hqp => subst hqp; omega
    · exact hq
  case unique =>
    simp only [Chans.get_set] at he hf
    split at he
    · next hqc =>
      split at hf
      · next hrd => exact ⟨hqc.1.trans hrd.1.symm, hqc.2.trans hrd.2.symm⟩
      · cases he
        exact absurd hef.symm (hnew hf)
    · split at hf
      · cases hf
        exact absurd hef (hnew he)
      · exact hunique q c e r d f he hf hef
  case sound =>
    simp only [Chans.get_set] at he
    split at he
    · next hqc =>
      obtain ⟨rfl, rfl⟩ := hqc
      cases he
      obtain ⟨hlt, -⟩ := List.getElem?_eq_some_iff.1 hD
      exact ⟨⟨_, List.getElem?_set_self hlt, hport, .inl rfl⟩, rfl, rfl⟩
    · obtain ⟨⟨E, hE, hrest⟩, hslots⟩ := hsound q c e he
      exact ⟨⟨E, by rw [List.getElem?_set_ne (hnew he).symm]; exact hE, hrest⟩, hslots⟩

/-- A successful UNREGISTER (R247). -/
theorem registrationInv_remove {s : State} {p : Port} {j : Chan} {e : Entry} (m : Word)
    (he : s.table.get p j = some e) (h : s.registrationInv) :
    ({ s with
        mask := m
        table := s.table.set p j none
        free := s.free.set p (s.free.get p + 1)
        lineEn := s.lineEn && decide (s.registeredCount ≠ 1) } : State).registrationInv := by
  obtain ⟨hline, hcount, hunique, hsound⟩ := h
  have hsize (q : Port) :
      tableSize (s.table.set p j none) q + (if q = p then 1 else 0) = tableSize s.table q := by
    simpa [he] using tableSize_set s.table p q j none
  have hkept {q c f} (hf : (s.table.set p j none).get q c = some f) : s.table.get q c = some f := by
    rw [Chans.get_set] at hf
    split at hf
    · cases hf
    · exact hf
  refine ⟨?line, fun q => ?count, fun q c f r d g hf hg => hunique q c f r d g (hkept hf) (hkept hg),
    fun q c f hf => hsound q c f (hkept hf)⟩
  case line =>
    have hpos := State.registeredCount_pos he
    have hnp := hsize .np
    have hlp := hsize .lp
    simp only [State.lineFollowsTables, hline.2 hpos, Bool.true_and, decide_eq_true_eq]
    simp only [State.registeredCount] at hpos ⊢
    cases p <;> simp only [reduceCtorEq, if_true, if_false] at hnp hlp <;> omega
  case count =>
    have hq := hcount q
    have hs := hsize q
    dsimp only
    rw [PerPort.get_set]
    split
    · next hqp => subst hqp; rw [if_pos rfl] at hs; omega
    · next hqp => rw [if_neg hqp] at hs; omega

/-! ### The operations -/

theorem registrationInv_register {s : State} {g : Handle} {D : Desc} (hD : s.desc[g]? = some D)
    (h : s.registrationInv) : (s.register g D).1.registrationInv := by
  rcases State.register_cases hD with he | ⟨p, hp, he⟩ | ⟨p, j, e, -, -, he⟩ |
    ⟨p, j, hport, hid, hroom, hfree, he⟩ <;> rw [he]
  · exact h
  · rwa [openLine_of_no_room h hp]
  · exact registrationInv_reject hD h
  · exact registrationInv_install _ hD hport hid hroom hfree h

theorem registrationInv_unregister {s : State} (g : Handle) (h : s.registrationInv) :
    (s.unregister g).1.registrationInv := by
  rcases State.unregister_cases s g with ⟨-, he⟩ | ⟨p, j, e, he', -, he⟩ <;> rw [he]
  · exact h
  · exact registrationInv_remove _ he' h

theorem registrationInv_finish {s : State} (op : ChmOp) (t : VarName) (code : ResultCode) (h : s.registrationInv) :
    (s.finish op t code).registrationInv :=
  registrationInv_congr (State.finish_lineEn ..) (State.finish_table ..) (State.finish_free ..) (State.finish_desc ..) h

theorem exec_registrationInv {i : Instr} {s u : State} (h : s.registrationInv) (hx : exec i s = .next u) :
    u.registrationInv := by
  rcases exec_next hx with rfl | ⟨r, rfl⟩ | hd
  · exact h
  · exact h
  cases i with
  | alloc d extra t =>
    have hdraw : s.afterDraw.registrationInv :=
      registrationInv_congr (State.afterDraw_lineEn s) (State.afterDraw_table s) (State.afterDraw_free s)
        (State.afterDraw_desc s) h
    rcases hd with rfl | rfl
    · exact registrationInv_finish _ _ _ hdraw
    · refine registrationInv_finish _ _ _ ?_
      rw [State.allocate_eq]
      exact registrationInv_congr rfl rfl rfl rfl (registrationInv_append _ hdraw)
  | configPort d x | configId d x | configHandshake d x | configHasReceive d x | configHasTxDrained d x =>
    obtain ⟨g, D, hg, rfl⟩ := hd
    exact registrationInv_congr (State.retire_lineEn _) (State.retire_table _) (State.retire_free _)
      (State.retire_desc _) (registrationInv_config D hg h)
  | register d t =>
    obtain ⟨-, rfl | ⟨g, D, hD, rfl⟩⟩ := hd
    · exact registrationInv_finish _ _ _ h
    · exact registrationInv_finish _ _ _ (registrationInv_register hD h)
  | unregister d t =>
    obtain ⟨-, rfl | ⟨g, rfl⟩⟩ := hd
    · exact registrationInv_finish _ _ _ h
    · exact registrationInv_finish _ _ _ (registrationInv_unregister g h)
  | _ =>
    obtain ⟨hl, ht, hf⟩ := exec_tables hx (by simp) (by simp)
    exact registrationInv_congr hl ht hf (exec_desc hx (by simp) (by simp) (by simp)) h

/-- Settles O53: the line, the tables, the counters and the records change only in ALLOC, CONFIG, REGISTER and
UNREGISTER, and each keeps the invariant; the crux is that REGISTER's handle has no entry (`entry_d_ne_of_free`). -/
theorem stepsKeepRegistrationInvariant : Obligations.StepsKeepRegistrationInvariant := fun _ _ =>
  step_keeps
    (fun s h => registrationInv_congr (State.scheduled_lineEn s) (State.scheduled_table s) (State.scheduled_free s)
      (State.scheduled_desc s) h)
    (fun _ _ h => h) fun _ _ _ h hx => exec_registrationInv h hx

end Sys2Proof.Machine
end

