-- ==== Sys2Proof/Proofs/RawAccess.lean ====
section
/-! O4: a raw access at the AP register port reaches a register exactly when it is an aligned 32-bit access to one of
the five addresses (R106; log 8, log 32). -/

namespace Sys2Proof

theorem mem_allRegs (r : Reg) : r ∈ allRegs := by
  cases r <;> decide

/-- Legal parameters put the registers at word-aligned addresses (R38, R106). -/
theorem Params.regAddr_aligned {cfg : Params} (h : cfg.wf = true) (r : Reg) : cfg.regAddr r % 4 = 0 := by
  simp only [Params.wf, Params.offsetsOk, Bool.and_eq_true, List.all_eq_true, decide_eq_true_eq] at h
  obtain ⟨⟨⟨⟨⟨haligned, -⟩, -⟩, -⟩, -⟩, -⟩ := h
  exact haligned r (mem_allRegs r)

/-- Legal parameters put the registers at distinct addresses (log 32). -/
theorem Params.regAddr_inj {cfg : Params} (h : cfg.wf = true) {r q : Reg} (hrq : cfg.regAddr r = cfg.regAddr q) :
    r = q := by
  simp only [Params.wf, Params.offsetsOk, Bool.and_eq_true, List.all_eq_true, decide_eq_true_eq] at h
  obtain ⟨⟨⟨⟨⟨-, hnodup⟩, -⟩, -⟩, -⟩, -⟩ := h
  exact List.inj_on_of_nodup_map hnodup (mem_allRegs r) (mem_allRegs q) (Nat.add_left_cancel hrq)

/-- A 32-bit access to a register's address reaches it (R106). -/
theorem Params.regAt_regAddr {cfg : Params} (h : cfg.wf = true) (r : Reg) : cfg.regAt (cfg.regAddr r) 4 = some r := by
  have hself : (fun q => cfg.regAddr q == cfg.regAddr r) = fun q => decide (q = r) := by
    funext q
    rw [beq_eq_decide]
    exact decide_eq_decide.2 ⟨Params.regAddr_inj h, fun hq => by rw [hq]⟩
  rw [Params.regAt, if_pos ⟨rfl, Params.regAddr_aligned h r⟩, hself]
  cases r <;> decide

/-- An access of another size, or to another address, reaches no register (R106). -/
theorem Params.regAt_eq_none {cfg : Params} {addr size : Nat} (h : size ≠ 4 ∨ ∀ r, addr ≠ cfg.regAddr r) :
    cfg.regAt addr size = none := by
  unfold Params.regAt
  split
  · next hok =>
    have haddr : ∀ r, addr ≠ cfg.regAddr r := h.resolve_left (not_not_intro hok.1)
    rw [List.find?_eq_none]
    exact fun r _ hr => haddr r (beq_iff_eq.1 hr).symm
  · rfl

/-- Settles O4: `decodeBus` answers by `regAt`, which is `regAt_regAddr` at the five addresses and `regAt_eq_none`
elsewhere. -/
theorem rawAccessReachesOnlyTheFiveRegisters : Obligations.RawAccessReachesOnlyTheFiveRegisters := by
  refine fun cfg a hwf => ⟨fun r hsize haddr => ?reaches, fun hno => ?misses⟩
  case reaches => simp only [decodeBus, hsize, haddr, Params.regAt_regAddr hwf]
  case misses => simp only [decodeBus, Params.regAt_eq_none hno]

end Sys2Proof
end

