-- ==== Sys2Proof/Proofs/Scheduling.lean ====
section
/-! The scheduled agent's step: O5, it runs the decoded operation; O6, what an agent issues; O8, an agent without an
enabled step waits (R30, R32, R107; log 1, log 2). -/

namespace Sys2Proof.Machine

open Sys2Proof.Claims

/-! ### What an agent issues (R32, R63, R306, R360, R472) -/

/-- Settles O6: the cases of `State.fetch`. -/
theorem agentsIssueTheirNextOperation : Obligations.AgentsIssueTheirNextOperation := by
  refine fun s => ⟨fun k c hc => ?caller, fun p h => ?peer, fun h => ?dispatcher, fun p c h => ?inward,
    fun p c h => ?outward⟩
  case caller =>
    obtain ⟨hcur, hget⟩ := hc
    simp only [State.fetch, hcur, hget, Option.bind_some]
  all_goals simp only [State.fetch, h]

/-! ### The scheduling choice (log 1) -/

/-- Scheduling writes the current agent and uses up the choice (R30). -/
theorem State.scheduled_eq (s : State) :
    s.scheduled = { s with cur := s.nextAgent, sched := s.sched.tail, tick := s.scheduled.tick } := by
  unfold State.scheduled State.nextAgent
  cases s.sched <;> rfl

/-- The step of an unmarked state whose scheduled agent issues the operation i (R30, R107). -/
theorem step_of_decodeItem {s : State} {it : Item} {i : Instr} (hr : s.refused = none)
    (hf : s.scheduled.fetch = some it) (hd : decodeItem s.cfg it = .ok i) : step s = exec i s.scheduled := by
  rw [step, hr]
  simp only [hf, State.scheduled_cfg, hd]

/-- Settles O5. -/
theorem stepRunsTheDecodedOperation : Obligations.StepRunsTheDecodedOperation := fun s _ _ hr hf hd =>
  ⟨step_of_decodeItem hr hf hd, congrArg State.cur s.scheduled_eq, s.scheduled_eq⟩

/-! ### Waiting (log 2) -/

/-- Where a Caller operation may issue, its issuer is a Caller that exists (R147). -/
theorem State.mayIssue_caller {s : State} {i : Instr} (hi : i.issuer = .caller 0) (h : s.mayIssue i = true) :
    ∃ k c, IsCaller s k c := by
  unfold State.mayIssue Instr.mayIssue at h
  rw [hi] at h
  cases hc : s.cur with
  | caller k =>
    rw [hc] at h
    have hk : k < s.callers.length := by simpa using h
    exact ⟨k, s.callers[k], hc, List.getElem?_eq_getElem hk⟩
  | dispatcher | peer p | sync d p c =>
    rw [hc] at h
    simp at h

/-- Where an operation of one agent may issue, its issuer is that agent (R147). -/
theorem State.cur_of_mayIssue {s : State} {i : Instr} {a : Agent} (hi : i.issuer = a) (ha : ∀ k, a ≠ .caller k)
    (h : s.mayIssue i = true) : s.cur = a := by
  rw [State.mayIssue, Bool.and_eq_true] at h
  obtain ⟨hmay, -⟩ := h
  unfold Instr.mayIssue at hmay
  rw [hi] at hmay
  split at hmay
  · next k _ _ => exact absurd rfl (ha k)
  · exact (of_decide_eq_true hmay).symm

/-- REGISTER and UNREGISTER wait for the locks (R240). -/
theorem State.managed_waits {s : State} {k : Nat} {c : Caller} (op : ChmOp) (d : DescName) (t : VarName)
    (body : Handle → Desc → State × ResultCode) (hc : IsCaller s k c) (hb : s.dphase ≠ .idle) :
    s.managed op d t body = .next s := by
  obtain ⟨hcur, hget⟩ := hc
  rw [State.managed, State.asCaller_eq _ hcur hget, if_pos hb]

/-- S1 of SEND waits for the lock (R280). -/
theorem exec_send_waits {s : State} {k : Nat} {c : Caller} (d : DescName) (msg : MsgExpr) (t : VarName)
    (hc : IsCaller s k c) (hn : c.send = none) (hb : s.dphase ≠ .idle) : exec (.send d msg t) s = .next s := by
  obtain ⟨hcur, hget⟩ := hc
  refine (State.asCaller_eq _ hcur hget).trans ?_
  simp only [hn, State.sendLookup, if_pos hb]

/-- DISPATCH waits for `irq` (R306). -/
theorem exec_dispatch_waits {s : State} (hcur : s.cur = .dispatcher) (hidle : s.dphase = .idle)
    (hirq : s.irq = false) : exec .dispatch s = .next s := by
  refine (State.asAgent_eq _ hcur).trans ?_
  simp only [hidle, hirq, Bool.false_eq_true, if_false]

/-- An operation that its agent may issue and that is not enabled waits (R30). -/
theorem exec_waits {i : Instr} {s : State} (hm : s.mayIssue i = true) (he : s.enables i = false) :
    exec i s = .next s := by
  cases i with
  | register d t =>
    obtain ⟨k, c, hc⟩ := State.mayIssue_caller rfl hm
    exact State.managed_waits _ _ _ _ hc (of_decide_eq_false he)
  | unregister d t =>
    obtain ⟨k, c, hc⟩ := State.mayIssue_caller rfl hm
    exact State.managed_waits _ _ _ _ hc (of_decide_eq_false he)
  | send d msg t =>
    obtain ⟨k, c, hc⟩ := State.mayIssue_caller rfl hm
    have ⟨hcur, hget⟩ := hc
    simp only [State.enables, hcur, hget, Option.any_some, Bool.or_eq_false_iff, decide_eq_false_iff_not] at he
    obtain ⟨hn, hb⟩ := he
    exact exec_send_waits d msg t hc (by simpa using hn) hb
  | dispatch =>
    simp only [State.enables, Bool.or_eq_false_iff, decide_eq_false_iff_not, not_not] at he
    obtain ⟨hidle, hirq⟩ := he
    exact exec_dispatch_waits (State.cur_of_mayIssue rfl (by simp) hm) hidle hirq
  | pwrite _ p c _ | ppost p c | pread _ p c _ | pdrain p c =>
    simp only [State.enables, Bool.or_eq_false_iff, Bool.not_eq_false'] at he
    obtain ⟨htrusted, hguard⟩ := he
    exact State.peerMove_waits _ (State.cur_of_mayIssue rfl (by simp) hm) htrusted (by simp [hguard])
  | syncIn p c =>
    refine (State.asAgent_eq _ (State.cur_of_mayIssue (a := .sync .inward p c) rfl (by simp) hm)).trans ?_
    have hq : s.inq.get p c = [] := by simpa [State.enables] using he
    simp only [hq]
  | syncOut p c =>
    refine (State.asAgent_eq _ (State.cur_of_mayIssue (a := .sync .outward p c) rfl (by simp) hm)).trans ?_
    have hq : s.outq.get p c = [] := by simpa [State.enables] using he
    simp only [hq]
  | _ => cases he

/-- Whether the next agent has an enabled step is seen in the state in which it is scheduled (R30). -/
theorem State.canStep_nextAgent (s : State) : s.canStep s.nextAgent = s.scheduled.canStepNow := by
  rw [State.scheduled_eq]
  rfl

/-- Settles O8: the scheduled agent has nothing to issue, or its operation is one it may issue and not enabled, which
waits by `exec_waits`. -/
theorem agentWithoutEnabledStepWaits : Obligations.AgentWithoutEnabledStepWaits := by
  intro s hr hn
  rw [State.canStep_nextAgent, State.canStepNow, State.scheduled_refused, hr, Option.isNone_none, Bool.true_and] at hn
  split at hn
  · next hf => rw [step, hr]; simp only [hf]
  · next it hf =>
    split at hn
    · cases hn
    · next i hd =>
      rw [Bool.or_eq_false_iff, Bool.not_eq_false'] at hn
      obtain ⟨hm, he⟩ := hn
      rw [State.scheduled_cfg] at hd
      rw [step_of_decodeItem hr hf hd, exec_waits hm he]

end Sys2Proof.Machine
end

