-- ==== Sys2Proof/Proofs/Reset.lean ====
section
/-! O58, the values after reset; O59, every invariant holds there (R64, R65, R450, R454). -/

namespace Sys2Proof.Machine

/-- Every Caller is at the start of an empty program after reset (R65). -/
theorem State.resetWith_caller {cfg : Params} {x : Caller} (h : x ∈ (State.resetWith cfg).callers) :
    x = ⟨Stream.reset, none⟩ :=
  List.eq_of_mem_replicate h

/-- No channel is registered after reset (R65). -/
theorem State.resetWith_table (cfg : Params) (p : Port) (c : Chan) : (State.resetWith cfg).table.get p c = none :=
  Chans.get_fill none p c

theorem State.resetWith_tableSize (cfg : Params) (p : Port) : tableSize (State.resetWith cfg).table p = 0 := by
  simp [tableSize, State.resetWith_table]

/-- Settles O58: each field is read off `State.resetWith`. -/
theorem resetValues : Obligations.ResetValues := by
  intro cfg s
  have hfill : ∀ p c, s.tx.get p c = false ∧ s.rx.get p c = false ∧ s.pvTx.get p c = false ∧
      s.preq.get p c = false ∧ s.inq.get p c = [] ∧ s.outq.get p c = [] ∧ s.table.get p c = none := fun p c =>
    ⟨Chans.get_fill .., Chans.get_fill .., Chans.get_fill .., Chans.get_fill .., Chans.get_fill ..,
      Chans.get_fill .., Chans.get_fill ..⟩
  refine ⟨hfill, rfl, rfl, rfl, rfl, rfl, rfl, fun p => by cases p <;> rfl, rfl, fun _ => rfl, rfl, rfl, rfl,
    List.length_replicate, fun c hc => ?_⟩
  rw [State.resetWith_caller hc]
  exact ⟨rfl, rfl⟩

theorem registrationInv_resetWith (cfg : Params) : (State.resetWith cfg).registrationInv := by
  refine ⟨?line, fun p => ?count, fun p c e _ _ _ he => ?unique, fun p c e he => ?sound⟩
  case line =>
    rw [State.lineFollowsTables, State.registeredCount, State.resetWith_tableSize, State.resetWith_tableSize]
    exact iff_of_false Bool.false_ne_true (Nat.lt_irrefl 0)
  case count => rw [State.resetWith_tableSize]; cases p <;> rfl
  case unique => rw [State.resetWith_table] at he; cases he
  case sound => rw [State.resetWith_table] at he; cases he

theorem slotsSound_resetWith (cfg : Params) : (State.resetWith cfg).slotsSound := by
  refine ⟨fun p c e he => ?table, fun x hx l hl => ?callers, fun w m a work buf hd => ?dispatch⟩
  case table => rw [State.resetWith_table] at he; cases he
  case callers => rw [State.resetWith_caller hx] at hl; cases hl
  case dispatch => cases hd

/-- Settles O59: after reset every bit is 0, every queue, table and list of cells is empty, and no operation is in
progress. -/
theorem resetSatisfiesEveryInvariant : Obligations.ResetSatisfiesEveryInvariant := by
  intro cfg _ s
  refine ⟨fun p c => ?rx, registrationInv_resetWith cfg, fun p c => ?mask, fun p c => ?inbound, fun p c => ?outbound,
    ⟨List.Pairwise.nil, fun x hx => ?memory⟩, slotsSound_resetWith cfg, List.length_replicate⟩
  case rx => simp [s, State.resetWith]
  case mask => simp [s, State.resetWith]
  case inbound => simp [s, State.inboundTokens, State.resetWith]
  case outbound => simp [s, State.outboundTokens, State.resetWith]
  case memory => cases hx

end Sys2Proof.Machine
end

