-- ==== Sys2Proof/Proofs/Slots.lean ====
section
/-! O51, operations in progress stay on the slots of R102 (R281, R304); and with it O50, the slots no operation uses are
never written (R103). -/

namespace Sys2Proof.Machine

/-! ### The three parts of the invariant -/

/-- Every entry's cached slots are its channel's (R45, R102). -/
def State.entrySlotsSound (s : State) : Prop :=
  ∀ p c e, s.table.get p c = some e → e.rslot = rslot p c ∧ e.wslot = wslot p c

/-- The locals of a SEND name the slot and the TX bit of one channel of its port (R102, R281). -/
def SendLocals.sound (cfg : Params) (l : SendLocals) : Prop := ∃ c, l.ws = wslot l.p c ∧ l.b = cfg.dataBit l.p c

/-- Every SEND in progress has sound locals (R281). -/
def State.sendsSound (s : State) : Prop := ∀ x ∈ s.callers, ∀ l, x.send = some l → l.sound s.cfg

/-- Every `Recv` item of the work names its channel's read slot (R102, R304). -/
def State.workSound (s : State) : Prop :=
  ∀ w m a work buf, s.dphase = .run w m a work buf → ∀ p c rs, .recv p c rs ∈ work → rs = rslot p c

theorem State.slotsSound_iff (s : State) : s.slotsSound ↔ s.entrySlotsSound ∧ s.sendsSound ∧ s.workSound := .rfl

theorem slotsSound_congr {s u : State} (hcfg : u.cfg = s.cfg) (ht : u.table = s.table) (hc : u.callers = s.callers)
    (hd : u.dphase = s.dphase) (h : s.slotsSound) : u.slotsSound := by
  unfold State.slotsSound
  rw [hcfg, ht, hc, hd]
  exact h

/-- The scheduling choice touches no operation in progress (R30). -/
theorem slotsSound_scheduled {s : State} (h : s.slotsSound) : s.scheduled.slotsSound :=
  slotsSound_congr (State.scheduled_cfg s) (State.scheduled_table s) (State.scheduled_callers s)
    (State.scheduled_dphase s) h

/-! ### The cached slots -/

theorem entrySlotsSound_congr {s u : State} (ht : u.table = s.table) (h : s.entrySlotsSound) : u.entrySlotsSound := by
  unfold State.entrySlotsSound
  rw [ht]
  exact h

/-- A table whose changed place is empty or caches its own slots (R243, R247). -/
theorem entrySlotsSound_set {s u : State} {p : Port} {j : Chan} {o : Option Entry} (ht : u.table = s.table.set p j o)
    (ho : ∀ e, o = some e → e.rslot = rslot p j ∧ e.wslot = wslot p j) (h : s.entrySlotsSound) :
    u.entrySlotsSound := fun q c e he => by
  rw [ht, Chans.get_set] at he
  split at he
  · next hq =>
    obtain ⟨rfl, rfl⟩ := hq
    exact ho e he
  · exact h q c e he

theorem entrySlotsSound_register {s : State} {g : Handle} {D : Desc} (hD : s.desc[g]? = some D)
    (h : s.entrySlotsSound) : (s.register g D).1.entrySlotsSound := by
  rcases State.register_cases hD with he | ⟨p, -, he⟩ | ⟨p, j, e, -, -, he⟩ | ⟨p, j, -, -, -, -, he⟩ <;> rw [he]
  case inl => exact h
  case inr.inl => exact h
  case inr.inr.inl => exact h
  case inr.inr.inr =>
    refine entrySlotsSound_set rfl (fun e heq => ?_) h
    cases heq
    exact ⟨rfl, rfl⟩

theorem entrySlotsSound_unregister {s : State} (g : Handle) (h : s.entrySlotsSound) :
    (s.unregister g).1.entrySlotsSound := by
  rcases State.unregister_cases s g with ⟨-, he⟩ | ⟨p, j, e, -, -, he⟩ <;> rw [he]
  · exact h
  · exact entrySlotsSound_set rfl (fun _ heq => nomatch heq) h

/-- Only REGISTER adds an entry, with the slots of its channel (R243). -/
theorem exec_entrySlotsSound {i : Instr} {s u : State} (h : s.entrySlotsSound) (hx : exec i s = .next u) :
    u.entrySlotsSound := by
  rcases exec_next hx with rfl | ⟨r, rfl⟩ | hd
  · exact h
  · exact h
  cases i with
  | register d t =>
    obtain ⟨-, rfl | ⟨g, D, hD, rfl⟩⟩ := hd
    · exact entrySlotsSound_congr (State.finish_table ..) h
    · exact entrySlotsSound_congr (State.finish_table ..) (entrySlotsSound_register hD h)
  | unregister d t =>
    obtain ⟨-, rfl | ⟨g, rfl⟩⟩ := hd
    · exact entrySlotsSound_congr (State.finish_table ..) h
    · exact entrySlotsSound_congr (State.finish_table ..) (entrySlotsSound_unregister g h)
  | _ => exact entrySlotsSound_congr (exec_tables hx (by simp) (by simp)).2.1 h

/-! ### The locals of SEND -/

/-- A SEND's locals stay sound where no Caller's locals change. -/
theorem sendsSound_of_send_eq {s u : State} (hcfg : u.cfg = s.cfg)
    (hc : ∀ x ∈ u.callers, ∃ c ∈ s.callers, x.send = c.send) (h : s.sendsSound) : u.sendsSound := fun x hx l hl => by
  obtain ⟨c, hmem, heq⟩ := hc x hx
  rw [hcfg]
  exact h c hmem l (heq ▸ hl)

/-- No operation but SEND changes a SEND's locals (R63). -/
theorem AgentsMoved.send_eq {i : Instr} {s u : State} (hm : AgentsMoved i s u) (hi : ∀ d m t, i ≠ .send d m t) :
    ∀ x ∈ u.callers, ∃ c ∈ s.callers, x.send = c.send := fun x hx => by
  obtain ⟨hlen, hcallers, -⟩ := hm
  obtain ⟨k, hk, rfl⟩ := List.mem_iff_getElem.1 hx
  have hks : k < s.callers.length := hlen ▸ hk
  obtain ⟨c', hc', -, -, hsend⟩ := hcallers k s.callers[k] (List.getElem?_eq_getElem hks)
  rw [List.getElem?_eq_getElem hk, Option.some_inj] at hc'
  exact ⟨s.callers[k], List.getElem_mem hks, hc' ▸ hsend hi⟩

/-- A change of the issuing agent's stream leaves every SEND's locals (R32, R63). -/
theorem sendsSound_updStream {s : State} (f : Stream → Stream) (h : s.sendsSound) : (s.updStream f).sendsSound := by
  refine sendsSound_of_send_eq (State.updStream_cfg s f) (fun x hx => ?_) h
  obtain ⟨k, hk⟩ := List.mem_iff_getElem?.1 hx
  rw [State.updStream_callers_get] at hk
  split at hk
  · obtain ⟨c, hc, rfl⟩ := Option.map_eq_some_iff.1 hk
    exact ⟨c, List.mem_of_getElem? hc, rfl⟩
  · exact ⟨x, List.mem_of_getElem? hk, rfl⟩

theorem sendsSound_setSend {s : State} {y : Option SendLocals} (hy : ∀ l, y = some l → l.sound s.cfg)
    (h : s.sendsSound) : (s.setSend y).sendsSound := fun x hx l hl => by
  obtain ⟨k, hk⟩ := List.mem_iff_getElem?.1 hx
  rw [State.setSend_callers_get] at hk
  rw [State.setSend_cfg]
  split at hk
  · obtain ⟨c, -, rfl⟩ := Option.map_eq_some_iff.1 hk
    exact hy l hl
  · exact h x (List.mem_of_getElem? hk) l hl

/-- SEND returns with nothing in progress (R285, R400). -/
theorem sendsSound_finishSend {s : State} (t : VarName) (code : ResultCode) (h : s.sendsSound) :
    (s.finishSend t code).sendsSound := by
  rw [State.finishSend_eq]
  refine sendsSound_setSend (fun _ heq => nomatch heq) ?_
  exact sendsSound_updStream _ (sendsSound_updStream (s := s.emit (.result s.cur .send code)) _ h)

/-- S1 takes the locals from an entry, whose cached slot is its channel's; S2 to S8 change the phase only (R280, R281). -/
theorem SendDid.sendsSound {s u : State} {msg : MsgExpr} {t : VarName} (ht : s.entrySlotsSound) (h : s.sendsSound)
    (hd : SendDid s msg t u) : u.sendsSound := by
  rcases hd with ⟨code, -, rfl⟩ | ⟨p, c, e, -, he, rfl⟩ | ⟨k, x, l, -, hx, hl, hmove⟩
  · exact sendsSound_finishSend t code h
  · refine sendsSound_setSend (fun l heq => ?_) h
    cases heq
    exact ⟨c, (ht p c e he).2, rfl⟩
  · have hnext : ∀ (v : State) ph, v.cfg = s.cfg → v.sendsSound →
        (v.setSend (some { l with phase := ph })).sendsSound := fun v ph hcfg hv => by
      refine sendsSound_setSend (fun l' heq => ?_) hv
      cases heq
      rw [hcfg]
      exact h x (List.mem_of_getElem? hx) l hl
    rcases hmove with ⟨ph, rfl⟩ | ⟨i, t1, -, -, rfl⟩ | ⟨t1, t2, -, rfl⟩
    · exact hnext s ph rfl h
    · exact hnext _ _ rfl h
    · exact sendsSound_finishSend t .ok h

theorem exec_sendsSound {i : Instr} {s u : State} (ht : s.entrySlotsSound) (h : s.sendsSound)
    (hx : exec i s = .next u) : u.sendsSound := by
  cases i with
  | send d msg t =>
    rcases exec_next hx with rfl | ⟨r, rfl⟩ | hd
    · exact h
    · exact h
    · exact SendDid.sendsSound ht h hd
  | _ => exact sendsSound_of_send_eq (exec_cfg hx) ((exec_agentsMoved hx).send_eq (by simp)) h

/-! ### The work of DISPATCH -/

/-- The `Recv` item of a round of the loop is the entry's own (R304, step 5b). -/
theorem recv_mem_demuxEntry {cfg : Params} {p q : Port} {c d : Chan} {e : Entry} {w : Word} {rs : Slot}
    (h : .recv p c rs ∈ (demuxEntry cfg q d e w).1) : p = q ∧ c = d ∧ rs = e.rslot := by
  rcases List.mem_append.1 h with hdrain | hrecv
  · obtain ⟨-, hmem⟩ := List.mem_ite_nil_right.1 hdrain
    simp at hmem
  · obtain ⟨-, hmem⟩ := List.mem_ite_nil_right.1 hrecv
    simpa using hmem

/-- A `Recv` item of a scan has an entry of the scanned table (R304). -/
theorem recv_mem_demuxScan {cfg : Params} {p q : Port} {c : Chan} {t : Chans (Option Entry)} {order : List Chan}
    {w : Word} {rs : Slot} (h : .recv p c rs ∈ (demuxScan cfg q t order w).1) :
    p = q ∧ ∃ e, t.get p c = some e ∧ rs = e.rslot := by
  induction order generalizing w with
  | nil => cases h
  | cons d rest ih =>
    unfold demuxScan at h
    split at h
    · exact ih h
    · next e he =>
      rcases List.mem_append.1 h with h | h
      · obtain ⟨rfl, rfl, hrs⟩ := recv_mem_demuxEntry h
        exact ⟨rfl, e, he, hrs⟩
      · exact ih h

theorem recv_mem_demux {cfg : Params} {p q : Port} {c : Chan} {t : Chans (Option Entry)} {order : List Chan}
    {w : Word} {rs : Slot} (h : .recv p c rs ∈ demux cfg q w t order) : ∃ e, t.get p c = some e ∧ rs = e.rslot := by
  rcases List.mem_append.1 h with hscan | hstray
  · exact (recv_mem_demuxScan hscan).2
  · obtain ⟨-, hmem⟩ := List.mem_ite_nil_right.1 hstray
    simp at hmem

/-- Every `Recv` item of the work has a registered channel's cached slot (R303, R304). -/
theorem State.recv_mem_buildWork {s : State} {p : Port} {c : Chan} {a : Word} {oNP oLP : List Chan} {rs : Slot}
    (h : .recv p c rs ∈ s.buildWork a oNP oLP) : ∃ e, s.table.get p c = some e ∧ rs = e.rslot := by
  rcases List.mem_append.1 h with hNP | hLP
  · exact recv_mem_demux (List.mem_ite_nil_right.1 hNP).2
  · exact recv_mem_demux (List.mem_ite_nil_right.1 hLP).2

theorem workSound_congr {s u : State} (hd : u.dphase = s.dphase) (h : s.workSound) : u.workSound := by
  unfold State.workSound
  rw [hd]
  exact h

/-- Outside RUN there is no work (R62). -/
theorem workSound_of_not_run {s : State} (h : ∀ w m a work buf, s.dphase ≠ .run w m a work buf) : s.workSound :=
  fun w m a work buf hd => absurd hd (h w m a work buf)

/-- Work whose items are all among those of sound work (R308). -/
theorem workSound_of_subset {s u : State} {w m a w' m' a' : Word} {l l' : List WorkItem} {buf buf' : RecvBuf}
    (hs : s.dphase = .run w m a l buf) (hu : u.dphase = .run w' m' a' l' buf') (hl : l' ⊆ l) (h : s.workSound) :
    u.workSound := fun x y z work b hd p c rs hmem => by
  rw [hu] at hd
  cases hd
  exact h w m a l buf hs p c rs (hl hmem)

/-- The demultiplexer takes its slots from the entries, and a RUN step only removes items (R304, R308). -/
theorem DispatchDid.workSound {s u : State} (ht : s.entrySlotsSound) (h : s.workSound) (hd : DispatchDid s u) :
    u.workSound := by
  rcases hd with ⟨-, -, rfl⟩ | ⟨-, rfl⟩ | ⟨w, -, rfl⟩ | ⟨w, -, rfl⟩ | ⟨w, m, -, rfl⟩ | ⟨w, m, a, buf, -, rfl⟩ |
    ⟨w, m, a, it, rest, buf, hph, ⟨e, buf', rfl⟩ | ⟨buf', rfl⟩⟩
  · exact workSound_of_not_run (by simp)
  · exact workSound_of_not_run (by simp)
  · exact workSound_of_not_run (by simp)
  · exact workSound_of_not_run (by simp)
  · intro x y z work b hph p c rs hmem
    rw [State.startRun_eq] at hph
    cases hph
    obtain ⟨e, he, rfl⟩ := State.recv_mem_buildWork hmem
    exact (ht p c e he).1
  · exact workSound_of_not_run (by simp)
  · exact workSound_of_subset hph rfl (List.subset_cons_self it rest) h
  · exact workSound_of_subset hph rfl (List.Subset.refl _) h

theorem exec_workSound {i : Instr} {s u : State} (ht : s.entrySlotsSound) (h : s.workSound)
    (hx : exec i s = .next u) : u.workSound := by
  cases i with
  | dispatch =>
    rcases exec_next hx with rfl | ⟨r, rfl⟩ | hd
    · exact h
    · exact h
    · exact DispatchDid.workSound ht h hd
  | _ => exact workSound_congr (exec_dphase hx (by simp)) h

/-! ### Every step -/

theorem exec_slotsSound {i : Instr} {s u : State} (h : s.slotsSound) (hx : exec i s = .next u) : u.slotsSound := by
  obtain ⟨htable, hsends, hwork⟩ := s.slotsSound_iff.1 h
  exact u.slotsSound_iff.2
    ⟨exec_entrySlotsSound htable hx, exec_sendsSound htable hsends hx, exec_workSound htable hwork hx⟩

/-- Settles O51: the tables cache the slots of R102, and SEND's locals and the work take theirs from the tables. -/
theorem stepsKeepSlotsSound : Obligations.StepsKeepSlotsSound := fun _ _ =>
  step_keeps (fun _ h => slotsSound_scheduled h) (fun _ _ h => h) fun _ _ _ h hx => exec_slotsSound h hx

/-! ### The slots that are written (R103) -/

/-- The bytes of slot i (R101). -/
def InSlot (cfg : Params) (i : Slot) (a : Nat) : Prop :=
  cfg.shmBase + 16 * i.val ≤ a ∧ a < cfg.shmBase + 16 * i.val + 16

/-- A slot that R102 gives to a channel, in one of the two directions. -/
def UsedSlot (i : Slot) : Prop := ∃ p c, i = wslot p c ∨ i = rslot p c

/-- The slots of R102 are 8..15, 24..31, 32..39 and 40..47 (R103). -/
theorem UsedSlot.bounds {i : Slot} (h : UsedSlot i) : (8 ≤ i.val ∧ i.val < 16) ∨ 24 ≤ i.val := by
  obtain ⟨p, c, rfl | rfl⟩ := h <;> cases p <;> simp only [wslot, rslot] <;> omega

/-- A word write to one slot leaves the bytes of every other slot (R101, R107). -/
theorem byte_writeWord_of_slot_ne {cfg : Params} {i j : Slot} {a : Nat} (m : Memory) (o : ByteOrder) (k : WordIdx)
    (v : Word) (hne : i.val ≠ j.val) (ha : InSlot cfg j a) :
    (m.writeWord o (cfg.wordAddr i k) v).byte a = m.byte a := by
  obtain ⟨hlo, hhi⟩ := ha
  rw [Memory.byte_writeWord, if_neg]
  unfold Params.wordAddr
  omega

/-- A step of SEND writes nothing, or a word of the slot in its locals (R283). -/
theorem SendDid.shm_slot {s u : State} {msg : MsgExpr} {t : VarName} (hd : SendDid s msg t u) :
    u.shm = s.shm ∨ ∃ x ∈ s.callers, ∃ l, x.send = some l ∧
      ∃ k v, u.shm = s.shm.writeWord s.cfg.byteOrder (s.cfg.wordAddr l.ws k) v := by
  rcases hd with ⟨code, -, rfl⟩ | ⟨p, c, e, -, -, rfl⟩ | ⟨j, x, l, -, hx, hl, ⟨ph, rfl⟩ | ⟨k, t1, -, -, rfl⟩ |
    ⟨t1, t2, -, rfl⟩⟩
  · exact .inl (by simp)
  · exact .inl (by simp)
  · exact .inl (by simp)
  · exact .inr ⟨x, List.mem_of_getElem? hx, l, hl, k, l.msg.word k, State.setSend_shm ..⟩
  · exact .inl (by simp)

/-- An operation writes nothing to shared memory, or a word of a slot R102 gives (R283, R350). -/
theorem exec_shm_usedSlot {i : Instr} {s u : State} (h : s.slotsSound) (hx : exec i s = .next u) :
    u.shm = s.shm ∨ ∃ j, UsedSlot j ∧
      ∃ k v, u.shm = s.shm.writeWord s.cfg.byteOrder (s.cfg.wordAddr j k) v := by
  rcases exec_next hx with rfl | ⟨r, rfl⟩ | hd
  · exact .inl rfl
  · exact .inl rfl
  cases i with
  | send d msg t =>
    obtain ⟨-, hsends, -⟩ := s.slotsSound_iff.1 h
    rcases SendDid.shm_slot hd with hm | ⟨x, hmem, l, hl, hw⟩
    · exact .inl hm
    · obtain ⟨c, hws, -⟩ := hsends x hmem l hl
      exact .inr ⟨l.ws, ⟨l.p, c, .inl hws⟩, hw⟩
  | pwrite w p c x =>
    obtain ⟨-, -, rfl⟩ := hd
    exact .inr ⟨rslot p c, ⟨p, c, .inr rfl⟩, w, _, State.retire_shm _⟩
  | _ => exact .inl (exec_shm hx (by simp) (by simp))

/-- An operation leaves the bytes of a slot that R102 gives to no channel (R103). -/
theorem exec_byte_of_unused {i : Instr} {s u : State} {slot : Slot} {a : Nat} (h : s.slotsSound)
    (hx : exec i s = .next u) (hslot : ¬UsedSlot slot) (ha : InSlot s.cfg slot a) : u.shm.byte a = s.shm.byte a := by
  rcases exec_shm_usedSlot h hx with hm | ⟨j, hj, k, v, hm⟩
  · rw [hm]
  · have hne : j.val ≠ slot.val := fun heq => hslot (Fin.ext heq ▸ hj)
    rw [hm, byte_writeWord_of_slot_ne _ _ k v hne ha]

/-- Settles O50: a step writes only words of the slots of R102 (`exec_shm_usedSlot`), none of which is in 0..7 or
16..23. -/
theorem unusedSlotsAreNeverWritten : Obligations.UnusedSlotsAreNeverWritten := by
  intro s u slot a h hstep hslot hlo hhi
  have hunused : ¬UsedSlot slot := fun hused => by have := hused.bounds; omega
  rw [← State.scheduled_shm s]
  rcases step_next hstep with rfl | ⟨r, rfl⟩ | ⟨i, hx⟩
  · rfl
  · rfl
  · refine exec_byte_of_unused (slotsSound_scheduled h) hx hunused ?_
    rw [State.scheduled_cfg]
    exact ⟨hlo, hhi⟩

end Sys2Proof.Machine
end

