-- ==== Sys2Proof/Proofs/RegisterWrites.lean ====
section
/-! O18: a second write of the same value to a register has no effect, without the erratum (R108, R205 to R209). -/

namespace Sys2Proof.Machine

/-- Setting TX bits that are set changes nothing (R205). -/
theorem State.writeTx_of_set {s : State} {x : Word}
    (h : ∀ p c, x.getLsbD (s.cfg.dataBit p c) = true → s.tx.get p c = true) : s.writeTx x = s := by
  have htx : (s.writeTx x).tx = s.tx := Chans.ext_get fun p c => by
    rw [State.writeTx_tx_get, Bool.or_eq_left_iff_imp]
    exact h p c
  have hq : (s.writeTx x).outq = s.outq := Chans.ext_get fun p c => by
    rw [State.writeTx_outq_get, if_neg]
    simpa using h p c
  exact congrArg₂ (fun tx outq => { s with tx := tx, outq := outq }) htx hq

/-- Clearing TX bits that are clear changes nothing (R209). -/
theorem State.writeClr_of_clear {s : State} {x : Word}
    (h : ∀ p c, x.getLsbD (s.cfg.dataBit p c) = true → s.tx.get p c = false) : s.writeClr x = s := by
  have htx : (s.writeClr x).tx = s.tx := Chans.ext_get fun p c => by
    rw [State.writeClr_tx_get, Bool.and_eq_left_iff_imp, Bool.not_eq_true']
    exact fun hset => Bool.eq_false_iff.2 fun hx => absurd hset (by simp [h p c hx])
  have hq : (s.writeClr x).outq = s.outq := Chans.ext_get fun p c => by
    rw [State.writeClr_outq_get, if_neg]
    simpa using h p c
  exact congrArg₂ (fun tx outq => { s with tx := tx, outq := outq }) htx hq

/-- Clearing no STATUS bit changes nothing (R207). -/
theorem State.clearStatus_zero (s : State) : s.clearStatus 0 = s := by
  have hst : (s.clearStatus 0).status = s.status := BitVec.and_allOnes
  have hrx : (s.clearStatus 0).rx = s.rx := Chans.ext_get fun p c => by simp
  have hq : (s.clearStatus 0).outq = s.outq := Chans.ext_get fun p c => by simp
  calc s.clearStatus 0
      = { s with status := (s.clearStatus 0).status, rx := (s.clearStatus 0).rx, outq := (s.clearStatus 0).outq } := rfl
    _ = s := by rw [hst, hrx, hq]

/-- A write-1-to-clear write leaves no bit of its value set (R207). -/
theorem and_and_not_and_eq_zero (x y : Word) : x &&& (y &&& ~~~(x &&& y)) = 0 := by
  rw [← BitVec.and_assoc]
  exact BitVec.and_not_self _

/-- The second write of TX finds the bits written 1 set (R108, R205). -/
theorem State.writeTx_writeTx (s : State) (x : Word) : (s.writeTx x).writeTx x = s.writeTx x :=
  State.writeTx_of_set fun p c hx => by
    rw [State.writeTx_cfg] at hx
    rw [State.writeTx_tx_get, hx, Bool.or_true]

/-- The second write of CLR finds the bits written 1 clear (R108, R209). -/
theorem State.writeClr_writeClr (s : State) (x : Word) : (s.writeClr x).writeClr x = s.writeClr x :=
  State.writeClr_of_clear fun p c hx => by
    rw [State.writeClr_cfg] at hx
    rw [State.writeClr_tx_get, hx, Bool.not_true, Bool.and_false]

/-- Without the erratum the second write of STATUS finds no bit to clear (R108, R207, R212). -/
theorem State.writeStatus_writeStatus {s : State} (h : s.cfg.erratumResidual = false) (x : Word) :
    (s.writeStatus x).writeStatus x = s.writeStatus x := by
  have hcfg : (s.writeStatus x).cfg.erratumResidual = false := by rw [State.writeStatus_cfg]; exact h
  have hnone : x &&& (s.writeStatus x).status = 0 := by
    rw [State.writeStatus_of_no_erratum h, State.clearStatus_status, and_and_not_and_eq_zero]
  rw [State.writeStatus_of_no_erratum hcfg, hnone, State.clearStatus_zero]

/-- Settles O18: TX, STATUS and CLR have a lemma each; a write of RX is ignored, and MASK is plain. -/
theorem registerWritesAreIdempotent : Obligations.RegisterWritesAreIdempotent := by
  intro s r x h
  cases r with
  | tx => exact State.writeTx_writeTx s x
  | rx => rfl
  | status => exact State.writeStatus_writeStatus h x
  | mask => rfl
  | clr => exact State.writeClr_writeClr s x

end Sys2Proof.Machine
end

