-- ==== Sys2Proof/Proofs/Encoding.lean ====
section
/-! Decoding and encoding (R140 to R149): at most one row selects a word, and a row's words are the words of its
operations. O1, decoding and encoding agree. -/

namespace Sys2Proof

/-! ### No two rows overlap (R148) -/

/-- Two rows whose matches differ in a bit that both masks look at. -/
def Row.Apart (r q : Row) : Prop := r.mtch &&& q.mask ≠ q.mtch &&& r.mask

/-- Rows that are apart select no word in common. -/
theorem Row.Apart.not_selects {r q : Row} (h : r.Apart q) {w : Word} (hr : r.selects w = true) :
    q.selects w ≠ true := fun hq => h <| by
  rw [← beq_iff_eq.1 hr, ← beq_iff_eq.1 hq]
  calc w &&& r.mask &&& q.mask = w &&& (q.mask &&& r.mask) := by rw [BitVec.and_assoc, BitVec.and_comm r.mask]
    _ = w &&& q.mask &&& r.mask := (BitVec.and_assoc ..).symm

/-- Any two rows of the opcode map are apart (R148). -/
theorem opcodeMap_pairwise_apart : opcodeMap.Pairwise Row.Apart := by
  unfold Row.Apart
  decide

/-- A word selects at most one row (R148). -/
theorem row_unique {r q : Row} {w : Word} (hr : r ∈ opcodeMap) (hq : q ∈ opcodeMap) (hrw : r.selects w = true)
    (hqw : q.selects w = true) : r = q := by
  have : Std.Symm Row.Apart := ⟨fun _ _ h => Ne.symm h⟩
  by_contra hne
  exact (opcodeMap_pairwise_apart.forall hr hq hne).not_selects hrw hqw

/-! ### What decoding answers (R148, R149) -/

/-- Decoding is the row that the word selects. -/
theorem decode_eq_ok_iff {w : Word} {o : Operands} {i : Instr} :
    decode w o = .ok i ↔ ∃ r ∈ opcodeMap, r.selects w = true ∧ r.build w o = i := by
  unfold decode
  split
  · next q hq =>
    have hmem := List.mem_of_find?_eq_some hq
    have hsel : q.selects w = true := List.find?_some (p := fun r : Row => r.selects w) hq
    rw [Except.ok.injEq]
    refine ⟨fun h => ⟨q, hmem, hsel, h⟩, ?_⟩
    rintro ⟨r, hr, hrw, rfl⟩
    rw [row_unique hr hmem hrw hsel]
  · next hnone =>
    refine ⟨fun h => (by cases h), ?_⟩
    rintro ⟨r, hr, hrw, -⟩
    exact absurd hrw (List.find?_eq_none.1 hnone r hr)

/-- A word is illegal when it selects no row. -/
theorem decode_eq_error_iff {w : Word} {o : Operands} :
    decode w o = .error .illegalOp ↔ ¬∃ r ∈ opcodeMap, r.selects w = true := by
  unfold decode
  split
  · next q hq =>
    refine ⟨fun h => (by cases h), fun h => absurd ?_ h⟩
    exact ⟨q, List.mem_of_find?_eq_some hq, List.find?_some (p := fun r : Row => r.selects w) hq⟩
  · next hnone =>
    refine ⟨?_, fun _ => rfl⟩
    rintro - ⟨r, hr, hrw⟩
    exact List.find?_eq_none.1 hnone r hr hrw

/-! ### From an operation to its word and back -/

/-- Every operation's word selects a row that builds the operation (R141 to R146): the laws of the single operations. -/
theorem rowBuilds (i : Instr) : Laws.RowBuilds.Statement i := by
  cases i with
  | rdTx t => exact Laws.RowBuilds.rdTx t
  | rdRx t => exact Laws.RowBuilds.rdRx t
  | rdStatus t => exact Laws.RowBuilds.rdStatus t
  | rdMask t => exact Laws.RowBuilds.rdMask t
  | rdClr t => exact Laws.RowBuilds.rdClr t
  | wrTx x => exact Laws.RowBuilds.wrTx x
  | wrRx x => exact Laws.RowBuilds.wrRx x
  | wrStatus x => exact Laws.RowBuilds.wrStatus x
  | wrMask x => exact Laws.RowBuilds.wrMask x
  | wrClr x => exact Laws.RowBuilds.wrClr x
  | alloc d extra t => exact Laws.RowBuilds.alloc d extra t
  | configPort d x => exact Laws.RowBuilds.configPort d x
  | configId d x => exact Laws.RowBuilds.configId d x
  | configHandshake d x => exact Laws.RowBuilds.configHandshake d x
  | configHasReceive d x => exact Laws.RowBuilds.configHasReceive d x
  | configHasTxDrained d x => exact Laws.RowBuilds.configHasTxDrained d x
  | register d t => exact Laws.RowBuilds.register d t
  | unregister d t => exact Laws.RowBuilds.unregister d t
  | send d msg t => exact Laws.RowBuilds.send d msg t
  | bringup t => exact Laws.RowBuilds.bringup t
  | dispatch => exact Laws.RowBuilds.dispatch
  | pwrite w p c x => exact Laws.RowBuilds.pwrite w p c x
  | ppost p c => exact Laws.RowBuilds.ppost p c
  | pread w p c t => exact Laws.RowBuilds.pread w p c t
  | pdrain p c => exact Laws.RowBuilds.pdrain p c
  | syncIn p c => exact Laws.RowBuilds.syncIn p c
  | syncOut p c => exact Laws.RowBuilds.syncOut p c

/-- Encoding then decoding gives the operation back (R141 to R146). -/
theorem decode_encode (i : Instr) : decode (encodeWord i) (encodeOperands i) = .ok i :=
  decode_eq_ok_iff.2 (rowBuilds i)

/-! ### The fields of a word (R146) -/

/-- A mask of n ones above l zeros leaves a field of the word's number. -/
theorem and_fieldMask (w : Word) (l n : Nat) :
    w &&& BitVec.ofNat 32 (2 ^ l * (2 ^ n - 1)) = BitVec.ofNat 32 (2 ^ l * (w.toNat / 2 ^ l % 2 ^ n)) := by
  refine BitVec.eq_of_getLsbD_eq fun i hi => ?_
  simp only [BitVec.getLsbD_and, BitVec.getLsbD_ofNat, Nat.testBit_two_pow_mul, Nat.testBit_two_pow_sub_one,
    Nat.testBit_mod_two_pow, Nat.testBit_div_two_pow, BitVec.testBit_toNat, hi, decide_true, Bool.true_and]
  by_cases hl : l ≤ i
  · simp [hl, Bool.and_comm]
  · simp [hl]

theorem ofNat_fieldCh (w : Word) : BitVec.ofNat 32 (fieldCh w).val = w &&& 7 := by
  refine Eq.trans ?_ (and_fieldMask w 0 3).symm
  simp [fieldCh]

theorem ofNat_fieldW (w : Word) : BitVec.ofNat 32 (16 * (fieldW w).val) = w &&& 0x30 :=
  (and_fieldMask w 4 2).symm

/-- The `P` and `CH` fields of a word hold its bits 3:0 (R146). -/
theorem encodePC_fields (w : Word) : encodePC (fieldP w) (fieldCh w) = w &&& 0xF := by
  have hp : encodePC (fieldP w) (fieldCh w) = (w &&& 8) ||| BitVec.ofNat 32 (fieldCh w).val := by
    rw [show w &&& 8 = _ from BitVec.and_twoPow w 3, fieldP]
    cases w.getLsbD 3 <;> rfl
  calc encodePC (fieldP w) (fieldCh w) = (w &&& 8) ||| (w &&& 7) := by rw [hp, ofNat_fieldCh]
    _ = w &&& (8 ||| 7) := (BitVec.and_or_distrib_left ..).symm
    _ = w &&& 0xF := rfl

/-- The `W`, `P` and `CH` fields of a word hold its bits 5:0 (R146). -/
theorem encodeWPC_fields (w : Word) : encodeWPC (fieldW w) (fieldP w) (fieldCh w) = w &&& 0x3F := by
  calc encodeWPC (fieldW w) (fieldP w) (fieldCh w) = (w &&& 0x30) ||| (w &&& 0xF) := by
        rw [encodeWPC, ofNat_fieldW, encodePC_fields]
    _ = w &&& (0x30 ||| 0xF) := (BitVec.and_or_distrib_left ..).symm
    _ = w &&& 0x3F := rfl

/-! ### The rows of each format (R141 to R145) -/

/-- The rows of format BUS (R141). -/
def busRows : List Row := opcodeMap.take 10

/-- The rows of format CHM (R142). -/
def chmRows : List Row := (opcodeMap.drop 10).take 10

/-- The row of format DSP (R143). -/
def dspRows : List Row := (opcodeMap.drop 20).take 1

/-- The rows of format PEER (R144). -/
def peerRows : List Row := (opcodeMap.drop 21).take 4

/-- The rows of format SYNC (R145). -/
def syncRows : List Row := opcodeMap.drop 25

theorem opcodeMap_eq_append : opcodeMap = busRows ++ chmRows ++ dspRows ++ peerRows ++ syncRows := rfl

/-! ### A row's words are the words of its operations -/

/-- Whatever operation the row builds from a word that selects it has that word (R141 to R145). -/
def Row.Faithful (r : Row) : Prop := ∀ (w : Word) (o : Operands), r.selects w = true → encodeWord (r.build w o) = w

/-- A row that fixes the whole word is faithful if its operations have the word it fixes. -/
theorem Row.faithful_of_fixed {m : Word} {build : Word → Operands → Instr}
    (h : ∀ w o, encodeWord (build w o) = m) : Row.Faithful ⟨m, 0xFFFFFFFF, build⟩ := by
  intro w o hw
  have hm : w &&& BitVec.allOnes 32 = m := beq_iff_eq.1 hw
  rw [h, ← hm, BitVec.and_allOnes]

/-- A row with fields is faithful if its operations put the word's bits outside the mask beside the match. -/
theorem Row.faithful_of_fields {m mask : Word} {build : Word → Operands → Instr}
    (h : ∀ w o, encodeWord (build w o) = m ||| (w &&& ~~~mask)) : Row.Faithful ⟨m, mask, build⟩ := by
  intro w o hw
  have hm : w &&& mask = m := beq_iff_eq.1 hw
  rw [h, ← hm, ← BitVec.and_or_distrib_left, BitVec.or_not_self, BitVec.and_allOnes]

theorem Row.faithful_pc {m : Word} {build : Word → Operands → Instr}
    (h : ∀ w o, encodeWord (build w o) = m ||| encodePC (fieldP w) (fieldCh w)) :
    Row.Faithful ⟨m, 0xFFFFFFF0, build⟩ :=
  Row.faithful_of_fields fun w o => by rw [h, encodePC_fields]; rfl

theorem Row.faithful_wpc {m : Word} {build : Word → Operands → Instr}
    (h : ∀ w o, encodeWord (build w o) = m ||| encodeWPC (fieldW w) (fieldP w) (fieldCh w)) :
    Row.Faithful ⟨m, 0xFFFFFFC0, build⟩ :=
  Row.faithful_of_fields fun w o => by rw [h, encodeWPC_fields]; rfl

theorem busRows_faithful : ∀ r ∈ busRows, r.Faithful := by
  refine List.forall_iff_forall_mem.1 ⟨?rdTx, ?rdRx, ?rdStatus, ?rdMask, ?rdClr, ?wrTx, ?wrRx, ?wrStatus, ?wrMask,
    ?wrClr⟩
  all_goals exact Row.faithful_of_fixed fun _ _ => rfl

theorem chmRows_faithful : ∀ r ∈ chmRows, r.Faithful := by
  refine List.forall_iff_forall_mem.1 ⟨?alloc, ?port, ?id, ?handshake, ?hasReceive, ?hasTxDrained, ?register,
    ?unregister, ?send, ?bringup⟩
  all_goals exact Row.faithful_of_fixed fun _ _ => rfl

theorem dspRows_faithful : ∀ r ∈ dspRows, r.Faithful :=
  List.forall_iff_forall_mem.1 (Row.faithful_of_fixed fun _ _ => rfl)

theorem peerRows_faithful : ∀ r ∈ peerRows, r.Faithful := by
  refine List.forall_iff_forall_mem.1 ⟨?pwrite, ?ppost, ?pread, ?pdrain⟩
  case pwrite => exact Row.faithful_wpc fun _ _ => rfl
  case ppost => exact Row.faithful_pc fun _ _ => rfl
  case pread => exact Row.faithful_wpc fun _ _ => rfl
  case pdrain => exact Row.faithful_pc fun _ _ => rfl

theorem syncRows_faithful : ∀ r ∈ syncRows, r.Faithful := by
  refine List.forall_iff_forall_mem.1 ⟨?syncIn, ?syncOut⟩
  all_goals exact Row.faithful_pc fun _ _ => rfl

theorem opcodeMap_faithful : ∀ r ∈ opcodeMap, r.Faithful := by
  intro r hr
  rw [opcodeMap_eq_append] at hr
  simp only [List.mem_append] at hr
  rcases hr with (((hbus | hchm) | hdsp) | hpeer) | hsync
  · exact busRows_faithful r hbus
  · exact chmRows_faithful r hchm
  · exact dspRows_faithful r hdsp
  · exact peerRows_faithful r hpeer
  · exact syncRows_faithful r hsync

/-- Settles O1: an operation's word selects a row that builds it, and no other row (`decode_encode`); a word that
decodes selects a row, and every row is faithful. -/
theorem decodeAndEncodeAgree : Obligations.DecodeAndEncodeAgree := by
  refine ⟨fun _ i => decode_encode i, fun w o i h => ?_⟩
  obtain ⟨r, hr, hsel, rfl⟩ := decode_eq_ok_iff.1 h
  exact opcodeMap_faithful r hr w o hsel

end Sys2Proof
end

