-- ==== Sys2Proof/Proofs/IllegalWords.lean ====
section
/-! The words that select a row, class by class (R141 to R145). O2, the illegal words are those R149 lists; O3, words of
the decoding vectors. -/

namespace Sys2Proof

/-! ### Selecting a row, on the word's number -/

/-- A field under a mask is the match, on numbers. -/
theorem and_fieldMask_eq_iff (w m : Word) {l n : Nat} (h : l + n ≤ 32) :
    w &&& BitVec.ofNat 32 (2 ^ l * (2 ^ n - 1)) = m ↔ 2 ^ l * (w.toNat / 2 ^ l % 2 ^ n) = m.toNat := by
  have hlt : 2 ^ l * (w.toNat / 2 ^ l % 2 ^ n) < 2 ^ 32 := by
    calc 2 ^ l * (w.toNat / 2 ^ l % 2 ^ n) < 2 ^ l * 2 ^ n := by gcongr; exact Nat.mod_lt _ (by positivity)
      _ = 2 ^ (l + n) := (Nat.pow_add ..).symm
      _ ≤ 2 ^ 32 := Nat.pow_le_pow_right (by decide) h
  rw [and_fieldMask, ← BitVec.toNat_inj, BitVec.toNat_ofNat, Nat.mod_eq_of_lt hlt]

section
variable {m w : Word} {build : Word → Operands → Instr}

/-- A row without fields: the word is the match. -/
theorem Row.selects_fixed : Row.selects ⟨m, 0xFFFFFFFF, build⟩ w = true ↔ w.toNat = m.toNat := by
  have h := and_fieldMask_eq_iff w m (l := 0) (n := 32) (by decide)
  refine beq_iff_eq.trans (h.trans ?_)
  omega

/-- A row with the fields `P` and `CH`: the word's bits 31:4 are those of the match. -/
theorem Row.selects_pc : Row.selects ⟨m, 0xFFFFFFF0, build⟩ w = true ↔ 16 * (w.toNat / 16) = m.toNat := by
  have h := and_fieldMask_eq_iff w m (l := 4) (n := 28) (by decide)
  refine beq_iff_eq.trans (h.trans ?_)
  omega

/-- A row with the fields `W`, `P` and `CH`: the word's bits 31:6 are those of the match. -/
theorem Row.selects_wpc : Row.selects ⟨m, 0xFFFFFFC0, build⟩ w = true ↔ 64 * (w.toNat / 64) = m.toNat := by
  have h := and_fieldMask_eq_iff w m (l := 6) (n := 26) (by decide)
  refine beq_iff_eq.trans (h.trans ?_)
  omega

end

/-! ### The words of each format, as R149 excludes the others -/

section
variable (w : Word)

theorem exists_busRows_selects_iff : (∃ r ∈ busRows, r.selects w = true) ↔
    w.toNat / 2 ^ 28 = 0 ∧ ¬(5 ≤ w.toNat % 8 ∨ w.toNat / 8 % 2 ^ 24 ≠ 0) := by
  simp only [busRows, opcodeMap, List.take_succ_cons, List.take_zero, List.mem_cons, exists_eq_or_imp,
    List.not_mem_nil, or_false, exists_eq_left, Row.selects_fixed, BitVec.reduceToNat]
  omega

theorem exists_chmRows_selects_iff : (∃ r ∈ chmRows, r.selects w = true) ↔
    w.toNat / 2 ^ 28 = 1 ∧ ¬(6 ≤ w.toNat / 2 ^ 24 % 16 ∨ w.toNat / 16 % 2 ^ 20 ≠ 0 ∨
      (w.toNat / 2 ^ 24 % 16 ≠ 1 ∧ w.toNat % 16 ≠ 0) ∨ (w.toNat / 2 ^ 24 % 16 = 1 ∧ 5 ≤ w.toNat % 16)) := by
  simp only [chmRows, opcodeMap, List.drop_succ_cons, List.drop_zero, List.take_succ_cons, List.take_zero,
    List.mem_cons, exists_eq_or_imp, List.not_mem_nil, or_false, exists_eq_left, Row.selects_fixed,
    BitVec.reduceToNat]
  omega

theorem exists_dspRows_selects_iff : (∃ r ∈ dspRows, r.selects w = true) ↔
    w.toNat / 2 ^ 28 = 2 ∧ ¬w.toNat % 2 ^ 28 ≠ 0 := by
  simp only [dspRows, opcodeMap, List.drop_succ_cons, List.drop_zero, List.take_succ_cons, List.take_zero,
    List.mem_cons, List.not_mem_nil, or_false, exists_eq_left, Row.selects_fixed, BitVec.reduceToNat]
  omega

theorem exists_peerRows_selects_iff : (∃ r ∈ peerRows, r.selects w = true) ↔
    w.toNat / 2 ^ 28 = 3 ∧ ¬(4 ≤ w.toNat / 2 ^ 24 % 16 ∨ w.toNat / 64 % 2 ^ 18 ≠ 0 ∨
      ((w.toNat / 2 ^ 24 % 16 = 1 ∨ w.toNat / 2 ^ 24 % 16 = 3) ∧ w.toNat / 16 % 4 ≠ 0)) := by
  simp only [peerRows, opcodeMap, List.drop_succ_cons, List.drop_zero, List.take_succ_cons, List.take_zero,
    List.mem_cons, exists_eq_or_imp, List.not_mem_nil, or_false, exists_eq_left, Row.selects_pc, Row.selects_wpc,
    BitVec.reduceToNat]
  omega

theorem exists_syncRows_selects_iff : (∃ r ∈ syncRows, r.selects w = true) ↔
    w.toNat / 2 ^ 28 = 4 ∧ ¬(2 ≤ w.toNat / 2 ^ 24 % 16 ∨ w.toNat / 16 % 2 ^ 20 ≠ 0) := by
  simp only [syncRows, opcodeMap, List.drop_succ_cons, List.drop_zero, List.mem_cons, exists_eq_or_imp,
    List.not_mem_nil, or_false, exists_eq_left, Row.selects_pc, BitVec.reduceToNat]
  omega

/-- A word selects a row of the map when it selects a row of one of the formats. -/
theorem exists_row_selects_iff : (∃ r ∈ opcodeMap, r.selects w = true) ↔
    (∃ r ∈ busRows, r.selects w = true) ∨ (∃ r ∈ chmRows, r.selects w = true) ∨
      (∃ r ∈ dspRows, r.selects w = true) ∨ (∃ r ∈ peerRows, r.selects w = true) ∨
        ∃ r ∈ syncRows, r.selects w = true := by
  simp only [opcodeMap_eq_append, List.mem_append, or_and_right, exists_or, or_assoc]

end

/-- Settles O2: the classes 0 to 4 have a format each, whose words are what R149 leaves of the class; the other classes
have none. -/
theorem illegalWordsAreThoseListed : Obligations.IllegalWordsAreThoseListed := by
  intro w o
  rw [decode_eq_error_iff, exists_row_selects_iff, exists_busRows_selects_iff, exists_chmRows_selects_iff,
    exists_dspRows_selects_iff, exists_peerRows_selects_iff, exists_syncRows_selects_iff]
  generalize w.toNat / 2 ^ 28 = cls
  rcases Nat.lt_or_ge cls 5 with hcls | hcls
  · interval_cases cls <;>
      simp only [Nat.reduceEqDiff, Nat.reduceLeDiff, OfNat.ofNat_ne_zero, OfNat.zero_ne_ofNat, one_ne_zero,
        zero_ne_one, true_and, false_and, false_or, or_false, not_not]
  · have hne : ∀ c < 5, cls ≠ c := fun c hc => by omega
    simp [hne, hcls]

/-- Settles O3: each legal word selects the row that the decoder finds, and the two illegal words are of R149's list. -/
theorem vectorWordsDecode : Obligations.VectorWordsDecode := by
  refine fun o => ⟨?rdStatus, ?wrClr, ?hasTxDrained, ?dispatch, ?pwrite, ?pread, ?pdrain, ?syncOut, ?busReg5,
    ?ppostW1⟩
  case busReg5 => exact (illegalWordsAreThoseListed _ o).2 (by decide)
  case ppostW1 => exact (illegalWordsAreThoseListed _ o).2 (by decide)
  all_goals rfl

end Sys2Proof
end

