-- ==== Sys2Proof/Proofs/WrongIssuer.lean ====
section
/-! O9: the issuer check of R147 comes first in every operation (R401), and another issuer is WrongAgent. -/

namespace Sys2Proof.Machine

open Sys2Proof.Claims

/-- Where no Caller is the issuer, an operation of the Callers is WrongAgent. -/
theorem State.asCaller_wrong {s : State} (body : Caller → Out) (h : ∀ k c, ¬IsCaller s k c) :
    s.asCaller body = .next (s.raise .wrongAgent) := by
  unfold State.asCaller
  split
  · next k hk =>
    split
    · next c hc => exact absurd ⟨hk, hc⟩ (h k c)
    · rfl
  all_goals rfl

/-- Another agent than the one that may issue is WrongAgent. -/
theorem State.asAgent_wrong {s : State} {a : Agent} (body : Out) (h : s.cur ≠ a) :
    s.asAgent a body = .next (s.raise .wrongAgent) := if_neg h

/-- Every operation is a body behind the issuer check of its class (R147, R401). -/
theorem exec_checks_issuer (i : Instr) (s : State) :
    (i.issuer = .caller 0 ∧ ∃ body, exec i s = s.asCaller body) ∨
      (∀ k, i.issuer ≠ .caller k) ∧ ∃ body, exec i s = s.asAgent i.issuer body := by
  cases i with
  | dispatch | pwrite _ _ _ _ | ppost _ _ | pread _ _ _ _ | pdrain _ _ | syncIn _ _ | syncOut _ _ =>
    exact .inr ⟨fun _ => Agent.noConfusion, _, rfl⟩
  | _ => exact .inl ⟨rfl, _, rfl⟩

/-- No existing Caller is a wrong issuer of an operation of the Callers (R147; log 24). -/
theorem not_isCaller_of_wrongIssuer {s : State} {i : Instr} (h : WrongIssuer s i) (hi : i.issuer = .caller 0) (k : Nat)
    (c : Caller) : ¬IsCaller s k c := by
  rintro ⟨hcur, hget⟩
  rcases h with hmay | ⟨j, hj, hnone⟩
  · simp [Instr.mayIssue, hi, hcur] at hmay
  · cases hcur.symm.trans hj
    cases hget.symm.trans hnone

/-- The one agent that may issue is no wrong issuer (R147). -/
theorem cur_ne_of_wrongIssuer {s : State} {i : Instr} (h : WrongIssuer s i) (hi : ∀ k, i.issuer ≠ .caller k) :
    s.cur ≠ i.issuer := by
  intro hcur
  rcases h with hmay | ⟨j, hj, -⟩
  · unfold Instr.mayIssue at hmay
    rw [hcur] at hmay
    split at hmay
    · cases hmay
    · exact of_decide_eq_false hmay rfl
  · exact hi j (hcur.symm.trans hj)

/-- Settles O9: the issuer check is the first thing an operation does (`exec_checks_issuer`), and it fails. -/
theorem wrongIssuerIsRefused : Obligations.WrongIssuerIsRefused := by
  intro i s h
  rcases exec_checks_issuer i s with ⟨hi, body, he⟩ | ⟨hi, body, he⟩
  · exact he.trans (State.asCaller_wrong body (not_isCaller_of_wrongIssuer h hi))
  · exact he.trans (State.asAgent_wrong body (cur_ne_of_wrongIssuer h hi))

end Sys2Proof.Machine
end

