-- ==== Sys2Proof/Proofs/RegisterAccess.lean ====
section
/-! What a Caller's register access does (40_register_access.md): O11 to O17, the reads and the writes of TX, RX, STATUS,
MASK and CLR, and the erratum of a write of STATUS. -/

namespace Sys2Proof.Machine

open Sys2Proof.Claims

/-! ### One bus access of a Caller (R200) -/

section
variable {s : State} {k : Nat} {c : Caller} (h : IsCaller s k c)
include h

/-- A read binds the register's view and returns (R200). -/
theorem exec_rdInstr (r : Reg) (t : VarName) :
    exec (rdInstr r t) s = .next { s with callers := bound s k c t (s.mmioRead r) } := by
  obtain ⟨hcur, hget⟩ := h
  have hexec : exec (rdInstr r t) s = s.busRead r t := by cases r <;> rfl
  rw [hexec, State.busRead, State.asCaller_eq _ hcur hget, State.bind_retire_caller t _ hcur hget]
  rfl

/-- A write takes the operand's value and returns (R200). -/
theorem exec_wrInstr (r : Reg) (x : Expr) :
    exec (wrInstr r x) s = .next { s.mmioWrite r (s.eval x) with callers := returned s k c } := by
  obtain ⟨hcur, hget⟩ := h
  have hexec : exec (wrInstr r x) s = s.busWrite r x := by cases r <;> rfl
  rw [hexec, State.busWrite, State.asCaller_eq _ hcur hget,
    State.retire_caller (s := s.mmioWrite r (s.eval x)) (k := k) (c := c) (by rw [State.mmioWrite_cur, hcur])
      (by rw [State.mmioWrite_callers, hget]),
    State.mmioWrite_callers]
  rfl

end

/-! ### The reads (R201 to R204, R210) -/

/-- The read of TX and RX shows the bits at their places, and 0 elsewhere (R38, R201, R202). -/
theorem showsData_packData {cfg : Params} (hwf : cfg.wf = true) (f : Chans Bool) :
    ShowsData cfg f (packData cfg f) := by
  refine ⟨getLsbD_packData_dataBit hwf f, fun i hi => Bool.eq_false_iff.2 fun hset => ?_⟩
  obtain ⟨-, p, c, hbit, -⟩ := (getLsbD_packData cfg f i).1 hset
  exact hi p c hbit

/-- Settles O11: every read is `exec_rdInstr` of its register. -/
theorem registerReadsBindTheirView : Obligations.RegisterReadsBindTheirView := by
  refine ⟨fun o => ⟨rfl, rfl, rfl, rfl, rfl⟩, fun s k c t h hwf => ?_⟩
  exact ⟨⟨_, exec_rdInstr h .tx t, showsData_packData hwf s.tx⟩, ⟨_, exec_rdInstr h .rx t, showsData_packData hwf s.rx⟩,
    exec_rdInstr h .status t, exec_rdInstr h .mask t, exec_rdInstr h .clr t⟩

/-! ### The writes of TX, RX, MASK and CLR (R205, R206, R208, R209) -/

/-- Settles O12: a bit written 1 is set, and only one that was 0 sends its TXSET. -/
theorem writeTxSetsAndPosts : Obligations.WriteTxSetsAndPosts := by
  refine ⟨fun o => rfl, fun s k c x h => ⟨_, exec_wrInstr h .tx x, rfl, fun p d => ⟨?set, ?post, ?quiet⟩⟩⟩
  case set => exact State.writeTx_tx_get s _ p d
  case post =>
    intro hx htx
    exact (State.writeTx_outq_get s _ p d).trans (if_pos (by rw [hx, htx]; rfl))
  case quiet =>
    intro hold
    refine (State.writeTx_outq_get s _ p d).trans (if_neg ?_)
    rcases hold with hx | htx
    · simp [hx]
    · simp [htx]

/-- Settles O13: the write of RX is no change of the block (`exec_wrInstr`). -/
theorem writeRxIsIgnored : Obligations.WriteRxIsIgnored :=
  ⟨fun _ => rfl, fun _ _ _ x h => exec_wrInstr h .rx x⟩

/-- The line is asserted when it is enabled and an actionable bit stands (R300, R301). -/
theorem State.irq_iff (s : State) : s.irq = true ↔ s.lineEn = true ∧ s.status &&& s.mask ≠ 0 := by
  simp [State.irq, State.act]

/-- Settles O16: the write replaces MASK, and `irq` is a function of the state after it (`State.irq_iff`). -/
theorem writeMaskIsPlain : Obligations.WriteMaskIsPlain :=
  ⟨fun _ => rfl, fun _ _ _ x h => ⟨_, exec_wrInstr h .mask x, rfl, State.irq_iff _⟩⟩

/-- Settles O17: a standing bit written 1 is cleared and sends its TXCLR. -/
theorem writeClrWithdraws : Obligations.WriteClrWithdraws := by
  refine ⟨fun o => rfl, fun s k c x h => ⟨_, exec_wrInstr h .clr x, rfl, fun p d => ⟨?withdraw, ?quiet⟩⟩⟩
  case withdraw =>
    intro hx htx
    refine ⟨(State.writeClr_tx_get s _ p d).trans ?_, (State.writeClr_outq_get s _ p d).trans (if_pos ?_)⟩
    · simp [hx]
    · simp [hx, htx]
  case quiet =>
    intro hold
    rcases hold with hx | htx
    · exact ⟨(State.writeClr_tx_get s _ p d).trans (by simp [hx]),
        (State.writeClr_outq_get s _ p d).trans (by simp [hx])⟩
    · exact ⟨(State.writeClr_tx_get s _ p d).trans (by simp [htx]),
        (State.writeClr_outq_get s _ p d).trans (by simp [htx])⟩

/-! ### The write of STATUS and the erratum (R207, R212) -/

/-- Clearing the set bits of w but those of `keep` acknowledges the cleared FULL bits, and those only (R207, R212). -/
theorem clearsAllBut_clearStatus (s : State) (w keep : Word) :
    ClearsAllBut s (s.clearStatus (w &&& s.status &&& ~~~keep)) w keep := by
  refine ⟨fun i => ?status, fun p c => ⟨?cleared, ?kept⟩⟩
  case status =>
    rw [State.clearStatus_status]
    by_cases hi : i < 32
    · simp only [BitVec.getLsbD_and, BitVec.getLsbD_not, hi, decide_true, Bool.true_and]
      cases s.status.getLsbD i <;> cases w.getLsbD i <;> simp
    · simp [BitVec.getLsbD_of_ge _ _ (Nat.le_of_not_lt hi)]
  case cleared =>
    intro hs hw hk
    have hlt : s.cfg.fullBit p c < 32 := BitVec.lt_of_getLsbD hs
    have hbit : (w &&& s.status &&& ~~~keep).getLsbD (s.cfg.fullBit p c) = true := by
      simp only [BitVec.getLsbD_and, BitVec.getLsbD_not, hs, hw, hk, hlt, decide_true, Bool.not_false, Bool.and_self]
    exact ⟨by rw [State.clearStatus_rx_get, hbit]; simp, by rw [State.clearStatus_outq_get, if_pos hbit]⟩
  case kept =>
    intro hold
    have hbit : (w &&& s.status &&& ~~~keep).getLsbD (s.cfg.fullBit p c) = false := by
      rcases hold with hs | hw | hk
      · simp [hs]
      · simp [hw]
      · simp [hk]
    exact ⟨by rw [State.clearStatus_rx_get, hbit]; simp, by rw [State.clearStatus_outq_get, hbit]; rfl⟩

/-- Without the erratum a write of STATUS keeps no bit it should clear (R207). -/
theorem clearsAllBut_writeStatus {s : State} (he : s.cfg.erratumResidual = false) (w : Word) :
    ClearsAllBut s (s.writeStatus w) w 0 := by
  have hnone : w &&& s.status = w &&& s.status &&& ~~~(0 : Word) := BitVec.and_allOnes.symm
  rw [State.writeStatus_of_no_erratum he, hnone]
  exact clearsAllBut_clearStatus s w 0

/-- With the erratum the next draw is the word of the bits that stay set (R212; log 21). -/
theorem State.writeStatus_of_keep {s : State} (he : s.cfg.erratumResidual = true) (keep w : Word) :
    { s with tape := keep.toNat :: s.tape }.writeStatus w = s.clearStatus (w &&& s.status &&& ~~~keep) := by
  have hmask : { s with tape := keep.toNat :: s.tape }.keepMask = keep := by
    simp [State.keepMask, he, State.drawWord, State.draw]
  have hafter : { s with tape := keep.toNat :: s.tape }.afterKeep = s := by
    simp [State.afterKeep, he, State.afterDraw]
  rw [State.writeStatus, hmask, hafter]

/-- The Dispatcher's step from SNAP is a write of its snapshot to STATUS (R307). -/
theorem exec_dispatch_acknowledges {s : State} {w : Word} (hcur : s.cur = .dispatcher) (hphase : s.dphase = .snap w) :
    exec .dispatch s = .next { s.writeStatus w with dphase := .ack w } := by
  have hexec : exec .dispatch s = execDispatch s := rfl
  rw [hexec, execDispatch, State.asAgent_eq _ hcur, hphase]
  rfl

/-- Settles O14: the bits cleared are those written 1, and nothing is kept (`clearsAllBut_writeStatus`). -/
theorem writeStatusClearsAndAcknowledges : Obligations.WriteStatusClearsAndAcknowledges := by
  intro s k c x h _ he
  refine ⟨_, exec_wrInstr h .status x, ?frame, fun p d => ?_⟩
  case frame =>
    rw [State.mmioWrite, State.writeStatus_of_no_erratum he, ← and_not_and_self]
    rfl
  obtain ⟨hcleared, hkept⟩ := (clearsAllBut_writeStatus he (s.eval x)).2 p d
  constructor
  · intro hset
    rw [BitVec.getLsbD_and, Bool.and_eq_true] at hset
    exact hcleared hset.2 hset.1 BitVec.getLsbD_zero
  · intro hclear
    rw [BitVec.getLsbD_and, Bool.and_eq_false_iff] at hclear
    exact hkept (hclear.elim (fun hw => .inr (.inl hw)) .inl)

/-- Settles O15: the draw `keep` keeps exactly the bits of `keep` (`State.writeStatus_of_keep`), on a write of STATUS and
on DISPATCH's acknowledgement. -/
theorem erratumKeepsAnyChoiceOfBits : Obligations.ErratumKeepsAnyChoiceOfBits := by
  refine fun s k c x keep w => ⟨fun h he => ?write, fun hcur hph he => ?acknowledge, fun h he => ?noErratum⟩
  case write =>
    have heval : { s with tape := keep.toNat :: s.tape }.eval x = s.eval x :=
      State.eval_congr (s := { s with tape := keep.toNat :: s.tape }) (t := s) rfl rfl rfl x
    have hexec := exec_wrInstr (s := { s with tape := keep.toNat :: s.tape }) h .status x
    rw [State.mmioWrite, heval, State.writeStatus_of_keep he] at hexec
    exact ⟨_, hexec, rfl, clearsAllBut_clearStatus s (s.eval x) keep⟩
  case acknowledge =>
    have hexec := exec_dispatch_acknowledges (s := { s with tape := keep.toNat :: s.tape }) hcur hph
    rw [State.writeStatus_of_keep he] at hexec
    exact ⟨_, hexec, rfl, clearsAllBut_clearStatus s w keep⟩
  case noErratum => exact ⟨_, exec_wrInstr h .status x, clearsAllBut_writeStatus he (s.eval x)⟩

end Sys2Proof.Machine
end

