-- ==== Sys2Proof/Proofs/OutboundHandshake.lean ====
section
/-! O56: the outbound handshake of trusted peers, a TX bit's one token, is kept by every operation but a withdrawal
through CLR (R205, R353, R362, R363). -/

namespace Sys2Proof.Machine

/-! ### What the handshake depends on -/

theorem outboundHandshake_congr {s u : State} (htx : u.tx = s.tx) (hpv : u.pvTx = s.pvTx) (hin : u.inq = s.inq)
    (hout : u.outq = s.outq) (h : s.outboundHandshake) : u.outboundHandshake := by
  unfold State.outboundHandshake State.outboundTokens
  rw [htx, hpv, hin, hout]
  exact h

/-- Where an operation touches one channel only, the others keep their handshake. -/
theorem outboundHandshake_of_channel {s u : State} {p : Port} {c : Chan} (h : s.outboundHandshake)
    (hother : ∀ q d, ¬(q = p ∧ d = c) → u.tx.get q d = s.tx.get q d ∧ u.pvTx.get q d = s.pvTx.get q d ∧
      u.inq.get q d = s.inq.get q d ∧ u.outq.get q d = s.outq.get q d)
    (hhere : u.outboundTokens p c = (u.tx.get p c).toNat ∧ .txclr ∉ u.outq.get p c) : u.outboundHandshake :=
  fun q d => by
    by_cases hq : q = p ∧ d = c
    · obtain ⟨rfl, rfl⟩ := hq
      exact hhere
    · obtain ⟨htx, hpv, hin, hout⟩ := hother q d hq
      rw [State.outboundTokens, htx, hpv, hin, hout]
      exact h q d

/-! ### The writes of the registers -/

/-- A new TX bit comes with its TXSET; a bit that is set stays as it is (R205). -/
theorem outboundHandshake_writeTx {s : State} (x : Word) (h : s.outboundHandshake) :
    (s.writeTx x).outboundHandshake := fun p c => by
  obtain ⟨htok, hclr⟩ := h p c
  rw [State.outboundTokens] at htok ⊢
  rw [State.writeTx_tx_get, State.writeTx_outq_get, State.writeTx_pvTx, State.writeTx_inq]
  cases htx : s.tx.get p c with
  | true => simpa [htx, hclr] using htok
  | false =>
    cases x.getLsbD (s.cfg.dataBit p c) with
    | false => simpa [htx, hclr] using htok
    | true =>
      simp only [htx, Bool.toNat_false] at htok
      simp [hclr]
      omega

/-- An acknowledgement sends only RXACKs (R207, R212). -/
theorem outboundHandshake_writeStatus {s : State} (x : Word) (h : s.outboundHandshake) :
    (s.writeStatus x).outboundHandshake := by
  have hkeep : s.afterKeep.outboundHandshake :=
    outboundHandshake_congr (State.afterKeep_tx s) (State.afterKeep_pvTx s) (State.afterKeep_inq s)
      (State.afterKeep_outq s) h
  intro p c
  obtain ⟨htok, hclr⟩ := hkeep p c
  rw [State.writeStatus, State.outboundTokens, State.clearStatus_outq_get]
  split
  · exact ⟨by simpa [State.outboundTokens] using htok, by simpa using hclr⟩
  · exact ⟨htok, hclr⟩

/-! ### The peers and the synchronizers -/

/-- A post of the peer is no token of the outbound handshake (R351). -/
theorem outboundHandshake_ppost {s : State} (p : Port) (c : Chan) (h : s.outboundHandshake) :
    ({ s with preq := s.preq.set p c true }.enqueueIn p c .post).outboundHandshake := by
  refine outboundHandshake_of_channel (p := p) (c := c) h (fun q d hq => ?_) ?_
  · simp [Chans.get_set, hq]
  · simpa [State.outboundTokens] using h p c

/-- A drain turns the request the peer sees into a DRAIN in flight (R353). -/
theorem outboundHandshake_pdrain {s : State} {p : Port} {c : Chan} (hpv : s.pvTx.get p c = true)
    (h : s.outboundHandshake) :
    ({ s with pvTx := s.pvTx.set p c false }.enqueueIn p c .drain).outboundHandshake := by
  refine outboundHandshake_of_channel (p := p) (c := c) h (fun q d hq => ?_) ?_
  · simp [Chans.get_set, hq]
  · obtain ⟨htok, hclr⟩ := h p c
    simp [State.outboundTokens, hpv, hclr] at htok ⊢
    omega

/-- A delivered DRAIN ends the handshake: it was the one token of a TX bit, which it clears (R362). -/
theorem outboundHandshake_deliverIn {s : State} {p : Port} {c : Chan} {e : InEvent} {rest : List InEvent}
    (hq : s.inq.get p c = e :: rest) (h : s.outboundHandshake) :
    ({ s with inq := s.inq.set p c rest }.deliverIn p c e).outboundHandshake := by
  obtain ⟨htok, hclr⟩ := h p c
  rw [State.outboundTokens, hq] at htok
  cases e with
  | post =>
    refine outboundHandshake_of_channel (p := p) (c := c) h (fun q d hq => ?_) ?_
    · simp [Chans.get_set, hq]
    · simpa [State.outboundTokens, hclr] using htok
  | drain =>
    have htx : s.tx.get p c = true := by
      cases htx : s.tx.get p c
      · simp [htx] at htok
      · rfl
    refine outboundHandshake_of_channel (p := p) (c := c) h (fun q d hq => ?_) ?_
    · simp [State.deliverIn_drain_tx, htx, Chans.get_set, hq]
    · have hnone : (s.outq.get p c).count .txset + (s.pvTx.get p c).toNat + rest.count .drain = 0 := by
        simp only [htx, Bool.toNat_true, List.count_cons_self] at htok
        omega
      simpa [State.outboundTokens, State.deliverIn_drain_tx, htx, hclr] using hnone

/-- A delivered TXSET becomes the request the peer sees, and an RXACK is no token; there is no TXCLR (R363, R364). -/
theorem outboundHandshake_deliverOut {s : State} {p : Port} {c : Chan} {e : OutEvent} {rest : List OutEvent}
    (hq : s.outq.get p c = e :: rest) (h : s.outboundHandshake) :
    ({ s with outq := s.outq.set p c rest }.deliverOut p c e).outboundHandshake := by
  obtain ⟨htok, hclr⟩ := h p c
  rw [hq] at hclr
  rw [State.outboundTokens, hq] at htok
  cases e with
  | txset =>
    have hpv : s.pvTx.get p c = false := by
      cases hpv : s.pvTx.get p c
      · rfl
      · have := Bool.toNat_le (s.tx.get p c)
        simp [hpv] at htok
        omega
    refine outboundHandshake_of_channel (p := p) (c := c) h (fun q d hq => ?_) ?_
    · simp [State.deliverOut, Chans.get_set, hq]
    · simp [State.outboundTokens, State.deliverOut, hpv] at htok hclr ⊢
      exact ⟨by omega, hclr⟩
  | rxack =>
    refine outboundHandshake_of_channel (p := p) (c := c) h (fun q d hq => ?_) ?_
    · simp [State.deliverOut, Chans.get_set, hq]
    · simpa [State.outboundTokens, State.deliverOut] using And.intro htok hclr
  | txclr => exact absurd List.mem_cons_self hclr

/-! ### The operations -/

/-- A step of SEND leaves TX and the queues alone, or is the write of TX of S8 (R280 to R285). -/
theorem SendDid.writesTx_or {s u : State} {msg : MsgExpr} {t : VarName} (hd : SendDid s msg t u) :
    (∃ x, u = (s.writeTx x).finishSend t .ok) ∨ (u.tx = s.tx ∧ u.outq = s.outq) := by
  rcases hd with ⟨code, -, rfl⟩ | ⟨p, c, e, -, -, rfl⟩ | ⟨k, x, l, -, -, -, ⟨ph, rfl⟩ | ⟨i, t1, -, -, rfl⟩ |
    ⟨t1, t2, -, rfl⟩⟩
  · exact .inr (by simp)
  · exact .inr (by simp)
  · exact .inr (by simp)
  · exact .inr (by simp)
  · exact .inl ⟨_, rfl⟩

theorem outboundHandshake_retire {s : State} (h : s.outboundHandshake) : s.retire.outboundHandshake :=
  outboundHandshake_congr (State.retire_tx s) (State.retire_pvTx s) (State.retire_inq s) (State.retire_outq s) h

/-- Settles O56: each operation that touches a token of a channel creates it with the TX bit, moves it on, or ends it with
the bit; the others touch none. -/
theorem operationsKeepOutboundHandshake : Obligations.OperationsKeepOutboundHandshake := by
  intro i s u htrust h hclr hx
  rcases exec_next hx with rfl | ⟨r, rfl⟩ | hd
  · exact h
  · exact h
  cases i with
  | wrTx x => subst hd; exact outboundHandshake_retire (outboundHandshake_writeTx _ h)
  | wrStatus x => subst hd; exact outboundHandshake_retire (outboundHandshake_writeStatus _ h)
  | wrClr x => exact absurd rfl (hclr x)
  | send d msg t =>
    rcases SendDid.writesTx_or hd with ⟨x, rfl⟩ | ⟨htx, hout⟩
    · exact outboundHandshake_congr (State.finishSend_tx ..) (State.finishSend_pvTx ..) (State.finishSend_inq ..)
        (State.finishSend_outq ..) (outboundHandshake_writeTx x h)
    · exact outboundHandshake_congr htx (exec_pvTx hx (by simp) (by simp)) (exec_inq hx (by simp) (by simp) (by simp))
        hout h
  | dispatch =>
    rcases DispatchDid.acknowledges_or hd with ⟨w, -, rfl⟩ | ⟨-, -, hout⟩
    · exact outboundHandshake_writeStatus w h
    · exact outboundHandshake_congr (exec_tx hx (by simp) (by simp) (by simp) (by simp))
        (exec_pvTx hx (by simp) (by simp)) (exec_inq hx (by simp) (by simp) (by simp)) hout h
  | ppost p c => obtain ⟨-, rfl⟩ := hd; exact outboundHandshake_retire (outboundHandshake_ppost p c h)
  | pdrain p c =>
    obtain ⟨hpv, rfl⟩ := hd
    exact outboundHandshake_retire (outboundHandshake_pdrain (hpv htrust) h)
  | syncIn p c => obtain ⟨e, rest, hq, rfl⟩ := hd; exact outboundHandshake_deliverIn hq h
  | syncOut p c => obtain ⟨e, rest, hq, rfl⟩ := hd; exact outboundHandshake_deliverOut hq h
  | _ =>
    exact outboundHandshake_congr (exec_tx hx (by simp) hclr (by simp) (by simp)) (exec_pvTx hx (by simp) (by simp))
      (exec_inq hx (by simp) (by simp) (by simp)) (exec_outq hx (by simp) (by simp) (by simp) (by simp)) h

end Sys2Proof.Machine
end

