-- ==== Sys2Proof/Proofs/Descriptors.lean ====
section
/-! ALLOC and CONFIG of a Caller (R241, R242): O19, O20, O21; and O35, the draws of ALLOC, BRINGUP and DISPATCH reach
every choice (R241, R304, R452; log 4, log 18). -/

namespace Sys2Proof.Machine

open Sys2Proof.Claims

/-! ### The issuer check and the return of a Caller's operation (R32, R147, R400) -/

section
variable {s v : State} {k : Nat} {c : Caller} (h : IsCaller s k c)
include h

theorem asCaller_of_isCaller (body : Caller → Out) : s.asCaller body = body c := by
  obtain ⟨hk, hget⟩ := h
  exact State.asCaller_eq body hk hget

/-- The return after a change that leaves the Callers. -/
theorem retire_eq_returned (hcur : v.cur = s.cur) (hcallers : v.callers = s.callers) :
    v.retire = { v with callers := returned s k c } := by
  obtain ⟨hk, hget⟩ := h
  rw [State.retire_caller (hcur.trans hk) ((congrArg (·[k]?) hcallers).trans hget), hcallers]
  rfl

/-- The end with a result code after a change that leaves the Callers. -/
theorem finish_eq_bound (op : ChmOp) (t : VarName) (code : ResultCode) (hcur : v.cur = s.cur)
    (hcallers : v.callers = s.callers) :
    v.finish op t code =
      { v with log := v.log ++ [.result (.caller k) op code], callers := bound s k c t code.toWord } := by
  obtain ⟨hk, hget⟩ := h
  rw [State.finish_caller op t code (hcur.trans hk) ((congrArg (·[k]?) hcallers).trans hget), hcallers]
  rfl

end

/-! ### ALLOC (R241) -/

/-- The record a successful ALLOC adds: its `port` and its three flags are the next four draws (R241). -/
def State.freshDesc (s : State) (extra : Nat) : Desc where
  port := s.drawWord
  id := idUnassigned
  handshake := s.afterDraw.drawBool
  hasReceive := s.afterDraw.afterDraw.drawBool
  hasTxDrained := s.afterDraw.afterDraw.afterDraw.drawBool
  extra := extra

/-- What a draw and a successful allocation do together (R241). -/
theorem State.afterDraw_allocate_eq (s : State) (d : DescName) (extra : Nat) :
    s.afterDraw.allocate d extra =
      { s with
        desc := s.desc ++ [s.afterDraw.freshDesc extra]
        names := Assoc.put s.names d s.desc.length
        tape := (s.afterDraw.allocate d extra).tape
        drawn := (s.afterDraw.allocate d extra).drawn } := by
  rw [State.allocate_eq]
  simp [State.freshDesc]

section
variable {s : State} {k : Nat} {c : Caller} (h : IsCaller s k c) (d : DescName) (extra : Nat) (t : VarName)
include h

/-- ALLOC whose first draw says so fails: it logs and binds its code only. -/
theorem exec_alloc_fails (hdraw : s.drawBool = true) :
    exec (.alloc d extra t) s = .next { s with
      log := s.log ++ [.result (.caller k) .alloc .allocFailed]
      callers := bound s k c t 7
      tape := s.afterDraw.tape
      drawn := s.afterDraw.drawn } := by
  refine (asCaller_of_isCaller h _).trans (congrArg Host.Outcome.next ?_)
  rw [if_pos hdraw, finish_eq_bound h _ _ _ s.afterDraw_cur s.afterDraw_callers, State.afterDraw_eq]
  rfl

/-- ALLOC succeeds otherwise: the fresh record comes last, and the name stands for its position (log 10, log 11). -/
theorem exec_alloc_succeeds (hdraw : s.drawBool = false) :
    exec (.alloc d extra t) s = .next { s with
      desc := s.desc ++ [s.afterDraw.freshDesc extra]
      names := Assoc.put s.names d s.desc.length
      log := s.log ++ [.result (.caller k) .alloc .ok]
      callers := bound s k c t 0
      tape := (s.afterDraw.allocate d extra).tape
      drawn := (s.afterDraw.allocate d extra).drawn } := by
  have hcur : (s.afterDraw.allocate d extra).cur = s.cur := by rw [State.allocate_cur, State.afterDraw_cur]
  have hcallers : (s.afterDraw.allocate d extra).callers = s.callers := by
    rw [State.allocate_callers, State.afterDraw_callers]
  refine (asCaller_of_isCaller h _).trans (congrArg Host.Outcome.next ?_)
  rw [hdraw, if_neg Bool.false_ne_true, finish_eq_bound h _ _ _ hcur hcallers, State.afterDraw_allocate_eq]
  rfl

end

/-- Settles O19: the first draw decides (`exec_alloc_fails`, `exec_alloc_succeeds`), and no record stands yet at the
position the fresh one takes. -/
theorem allocBindsAFreshDescriptorOrFails : Obligations.AllocBindsAFreshDescriptorOrFails := by
  intro s k c d extra t h
  cases hdraw : s.drawBool with
  | true => exact ⟨_, exec_alloc_fails h d extra t hdraw, fun _ => rfl, Bool.noConfusion⟩
  | false =>
    exact ⟨_, exec_alloc_succeeds h d extra t hdraw, Bool.noConfusion,
      fun _ => ⟨s.afterDraw.freshDesc extra, rfl, rfl, List.getElem?_eq_none le_rfl, rfl⟩⟩

/-! ### CONFIG (R242, R401) -/

section
variable {s : State} {k : Nat} {c : Caller} (h : IsCaller s k c) {d : DescName} {g : Handle} {D : Desc}
  (f : Desc → Option Desc)
include h

/-- CONFIG of a handle ALLOC never bound. -/
theorem config_badHandle (hl : s.lookupDesc d = none) : s.config d f = .next (s.raise .badHandle) := by
  refine (asCaller_of_isCaller h _).trans ?_
  simp only [hl]

/-- CONFIG of a descriptor with a table entry. -/
theorem config_whileRegistered {p : Port} {j : Chan} {e : Entry} (hl : s.lookupDesc d = some (g, D))
    (he : s.table.get p j = some e) (hd : e.d = g) : s.config d f = .next (s.raise .configWhileRegistered) := by
  have hentry : (s.entryOf g).isSome = true :=
    Option.isSome_iff_ne_none.2 fun hn => State.entryOf_eq_none.1 hn p j e he hd
  refine (asCaller_of_isCaller h _).trans ?_
  simp only [hl, if_pos hentry]

variable (hl : s.lookupDesc d = some (g, D)) (hfree : ∀ p j e, s.table.get p j = some e → e.d ≠ g)
include hl hfree

/-- CONFIG of an unregistered descriptor with a value that does not fit the field. -/
theorem config_badOperand (hf : f D = none) : s.config d f = .next (s.raise .badOperand) := by
  refine (asCaller_of_isCaller h _).trans ?_
  simp only [hl, State.entryOf_eq_none.2 hfree, Option.isSome_none, Bool.false_eq_true, if_false, hf]

/-- CONFIG of an unregistered descriptor writes its record. -/
theorem config_writes {D' : Desc} (hf : f D = some D') :
    s.config d f = .next { s with desc := s.desc.set g D', callers := returned s k c } := by
  refine (asCaller_of_isCaller h _).trans ?_
  simp only [hl, State.entryOf_eq_none.2 hfree, Option.isSome_none, Bool.false_eq_true, if_false, hf]
  exact congrArg Host.Outcome.next (retire_eq_returned h rfl rfl)

end

theorem flagOf_ite (b : Bool) : flagOf (if b then 1 else 0) = some b := by
  cases b <;> rfl

/-- A 1-bit field takes no value above 1 (R242). -/
theorem flagOf_eq_none {v : Word} (hv : 1 < v.toNat) : flagOf v = none := by
  have h0 : v ≠ 0 := by rintro rfl; exact absurd hv (by decide)
  have h1 : v ≠ 1 := by rintro rfl; exact absurd hv (by decide)
  rw [flagOf, if_neg h0, if_neg h1]

/-- Settles O20: each of the five is `State.config` with its field's change (`config_writes`), and a 1-bit field takes 0
and 1 (`flagOf_ite`). -/
theorem configWritesOneField : Obligations.ConfigWritesOneField := by
  refine fun s k c d x g D h hl hfree =>
    ⟨config_writes h (fun D => some { D with port := s.eval x }) hl hfree rfl,
      config_writes h (fun D => some { D with id := (s.eval x).toNat }) hl hfree rfl, fun b hb => ?_⟩
  have hflag : flagOf (s.eval x) = some b := by rw [hb, flagOf_ite]
  refine ⟨config_writes h _ hl hfree ?_, config_writes h _ hl hfree ?_, config_writes h _ hl hfree ?_⟩
  all_goals rw [hflag]; rfl

/-- The five CONFIG operations are one, each with its field's change; a value above 1 fits `port` and `id` only
(R242). -/
theorem exec_config_eq {s : State} {d : DescName} {x : Expr} {i : Instr}
    (hi : i ∈ [Instr.configPort d x, .configId d x, .configHandshake d x, .configHasReceive d x,
      .configHasTxDrained d x]) :
    ∃ f, exec i s = s.config d f ∧
      (1 < (s.eval x).toNat → i ≠ .configPort d x → i ≠ .configId d x → ∀ D, f D = none) := by
  simp only [List.mem_cons, List.not_mem_nil, or_false] at hi
  rcases hi with rfl | rfl | rfl | rfl | rfl
  case inl => exact ⟨fun D => some { D with port := s.eval x }, rfl, fun _ hne => absurd rfl hne⟩
  case inr.inl => exact ⟨fun D => some { D with id := (s.eval x).toNat }, rfl, fun _ _ hne => absurd rfl hne⟩
  all_goals exact ⟨_, rfl, fun hv _ _ D => by rw [flagOf_eq_none hv]; rfl⟩

/-- Settles O21: the three refusals of `State.config`. -/
theorem configRefusesInOrder : Obligations.ConfigRefusesInOrder := by
  intro s k c d x h i hi
  obtain ⟨f, hexec, hnone⟩ := exec_config_eq (s := s) hi
  rw [hexec]
  exact ⟨config_badHandle h f, fun g D p j e hl he hd => config_whileRegistered h f hl he hd,
    fun g D hl hfree hv hport hid => config_badOperand h f hl hfree (hnone hv hport hid D)⟩

/-! ### The draws (R241, R304, R452) -/

/-- Draws for every fresh record (R241). -/
theorem freshDesc_of_tape (s : State) (extra : Nat) (v : Word) (hs rc td : Bool) (rest : List Nat) :
    { s with tape := v.toNat :: hs.toNat :: rc.toNat :: td.toNat :: rest }.freshDesc extra =
      ⟨v, 8, hs, rc, td, extra⟩ := by
  have flag : ∀ b : Bool, (b.toNat % 2 == 1) = b := by decide
  simp [State.freshDesc, State.drawWord, State.drawBool, State.draw, State.afterDraw, flag, idUnassigned]

/-- BRINGUP's draw decides between OK and FAILED (R452). -/
theorem exec_bringup_dev {s : State} {k : Nat} {c : Caller} (h : IsCaller s k c) (t : VarName)
    (hdev : s.dev = .uninit) :
    ∃ u, exec (.bringup t) s = .next u ∧ u.dev = if s.drawBool then .failed else .ok := by
  refine ⟨_, (asCaller_of_isCaller h _).trans (if_neg (not_not.2 hdev)), ?_⟩
  split
  · exact State.finish_dev ..
  · exact State.finish_dev ..

/-- From MASKRD the Dispatcher builds its work in two drawn orders (R304, R307). -/
theorem exec_dispatch_startsRun {s : State} {w m : Word} (hcur : s.cur = .dispatcher) (hph : s.dphase = .maskrd w m) :
    exec .dispatch s = .next (s.startRun w m) := by
  refine (State.asAgent_eq _ hcur).trans ?_
  simp only [hph]

/-- Settles O35: a draw of 0 is success and of 1 is failure, `freshDesc_of_tape` gives the draws of a record, and
`permOf_surjective` those of an order. -/
theorem drawsReachEveryChoice : Obligations.DrawsReachEveryChoice := by
  refine ⟨fun s k c d extra t v hs rc td h => ⟨?fresh, ?failed, fun hdev => ⟨?up, ?down⟩⟩,
    fun s w m oNP oLP hcur hph hNP hLP => ?orders⟩
  case fresh =>
    refine ⟨[0, v.toNat, hs.toNat, rc.toNat, td.toNat], _,
      exec_alloc_succeeds (s := { s with tape := [0, v.toNat, hs.toNat, rc.toNat, td.toNat] }) h d extra t rfl, ?_⟩
    exact congrArg (fun D => s.desc ++ [D]) (freshDesc_of_tape s extra v hs rc td [])
  case failed => exact ⟨[1], _, exec_alloc_fails (s := { s with tape := [1] }) h d extra t rfl, rfl, rfl⟩
  case up => exact ⟨[0], exec_bringup_dev (s := { s with tape := [0] }) h t hdev⟩
  case down => exact ⟨[1], exec_bringup_dev (s := { s with tape := [1] }) h t hdev⟩
  case orders =>
    obtain ⟨keyNP, rfl⟩ := permOf_surjective _ _ hNP
    obtain ⟨keyLP, rfl⟩ := permOf_surjective _ _ hLP
    refine ⟨[keyNP, keyLP], _, exec_dispatch_startsRun (s := { s with tape := [keyNP, keyLP] }) hcur hph, ?_⟩
    rw [State.startRun_eq]
    rfl

end Sys2Proof.Machine
end

