-- ==== Sys2Proof/Proofs/Registering.lean ====
section
/-! REGISTER and UNREGISTER of a Caller (R240, R243 to R248): O22, O23, O24, O25; and O42, a DISPATCH in progress keeps
the tables (R305, R306). -/

namespace Sys2Proof.Machine

open Sys2Proof.Claims

/-! ### The conditions of R240 -/

/-- Under the conditions the handle's record exists. -/
theorem desc_of_manageable {s : State} {d : DescName} {g : Handle} {D : Desc} (hm : Manageable s d g D) :
    s.desc[g]? = some D := by
  obtain ⟨-, -, hl⟩ := hm
  exact (State.lookupDesc_eq_some.1 hl).2

section
variable {s : State} {k : Nat} {c : Caller} (h : IsCaller s k c) (op : ChmOp) {d : DescName} (t : VarName)
  (body : Handle → Desc → State × ResultCode)
include h

/-- Before BRINGUP both operations are refused (R240). -/
theorem managed_notBroughtUp (hidle : s.dphase = .idle) (hdev : s.dev = .uninit) :
    s.managed op d t body = .next (s.raise .notBroughtUp) := by
  refine (asCaller_of_isCaller h _).trans ?_
  simp only [hidle, hdev, ne_eq, not_true_eq_false, if_false]

/-- After a failed BRINGUP both return HardwareBringupFailed (R240). -/
theorem managed_bringupFailed (hidle : s.dphase = .idle) (hdev : s.dev = .failed) :
    s.managed op d t body = .next { s with
      log := s.log ++ [.result (.caller k) op .hardwareBringupFailed], callers := bound s k c t 6 } := by
  have hexec : s.managed op d t body = .next (s.finish op t .hardwareBringupFailed) := by
    refine (asCaller_of_isCaller h _).trans ?_
    simp only [hidle, hdev, ne_eq, not_true_eq_false, if_false]
  exact hexec.trans (congrArg Host.Outcome.next (finish_eq_bound h op t .hardwareBringupFailed rfl rfl))

/-- A handle ALLOC never bound is refused (R240). -/
theorem managed_badHandle (hidle : s.dphase = .idle) (hdev : s.dev = .ok) (hl : s.lookupDesc d = none) :
    s.managed op d t body = .next (s.raise .badHandle) := by
  refine (asCaller_of_isCaller h _).trans ?_
  simp only [hidle, hdev, hl, ne_eq, not_true_eq_false, if_false]

/-- Under the conditions the body runs, and the operation ends with its code (R240, R400). -/
theorem managed_runs {g : Handle} {D : Desc} {v : State} {code : ResultCode} (hm : Manageable s d g D)
    (hbody : body g D = (v, code)) (hcur : v.cur = s.cur) (hcallers : v.callers = s.callers) :
    s.managed op d t body = .next { v with
      log := v.log ++ [.result (.caller k) op code], callers := bound s k c t code.toWord } := by
  obtain ⟨hidle, hdev, hl⟩ := hm
  refine (asCaller_of_isCaller h _).trans ?_
  simp only [hidle, hdev, hl, hbody, ne_eq, not_true_eq_false, if_false]
  exact congrArg Host.Outcome.next (finish_eq_bound h op t code hcur hcallers)

end

/-- Settles O24: REGISTER and UNREGISTER are `State.managed`, whose conditions come before their bodies. -/
theorem registrationNeedsLocksDeviceAndHandle : Obligations.RegistrationNeedsLocksDeviceAndHandle := by
  refine fun s k c d t h => ⟨fun hbusy => ?waits, fun hidle hdev => ?notUp, fun hidle hdev => ?failed,
    fun hidle hdev hl => ?badHandle⟩
  case waits => exact ⟨State.managed_waits _ d t _ h hbusy, State.managed_waits _ d t _ h hbusy⟩
  case notUp => exact ⟨managed_notBroughtUp h _ t _ hidle hdev, managed_notBroughtUp h _ t _ hidle hdev⟩
  case failed => exact ⟨managed_bringupFailed h _ t _ hidle hdev, managed_bringupFailed h _ t _ hidle hdev⟩
  case badHandle => exact ⟨managed_badHandle h _ t _ hidle hdev hl, managed_badHandle h _ t _ hidle hdev hl⟩

/-! ### REGISTER's body, case by case (R243 to R246) -/

section
variable {s : State} {g : Handle} {D : Desc}

/-- No receive callback, an unknown port or an id above "unassigned" (R243). -/
theorem register_invalidArgument
    (hbad : D.hasReceive = false ∨ (∀ p, D.port ≠ Port.toWord p) ∨ 8 < D.id) :
    s.register g D = (s, .invalidArgument) := by
  unfold State.register
  split
  · rfl
  · next hrecv =>
    split
    · rfl
    · next p hp =>
      have hport := Port.ofWord_eq_some.1 hp
      rcases hbad with hr | hp' | hid
      · simp [hr] at hrecv
      · exact absurd hport (hp' p)
      · exact if_pos hid

variable {p : Port} (hrecv : D.hasReceive = true) (hport : D.port = p.toWord)
include hrecv hport

/-- No free channel on the port (R243). -/
theorem register_resourceExhausted (hid : D.id ≤ 8) (hfull : s.free.get p = 0) :
    s.register g D = (s.openLine, .resourceExhausted) := by
  have hid' : ¬D.id > idUnassigned := Nat.not_lt.2 hid
  have hfull' : s.openLine.free.get p = 0 := hfull
  simp only [State.register, hrecv, hport, Port.ofWord_toWord, if_neg hid', if_pos hfull', Bool.not_true,
    Bool.false_eq_true, if_false]

variable {j : Chan} (hroom : s.free.get p ≠ 0)
include hroom

/-- An explicit id is taken or free (R243). -/
theorem register_explicit (hid : D.id = j.val) :
    s.register g D =
      if (s.openLine.table.get p j).isSome then (s.openLine.setDescId g idRejected, .alreadyAssigned)
      else (s.openLine.install g D p j, .ok) := by
  have hroom' : ¬s.openLine.free.get p = 0 := hroom
  have hlt : D.id < 8 := hid ▸ j.isLt
  have hid' : ¬D.id > idUnassigned := Nat.not_lt.2 hlt.le
  obtain rfl : ⟨D.id, hlt⟩ = j := Fin.ext hid
  simp only [State.register, hrecv, hport, Port.ofWord_toWord, if_neg hid', if_neg hroom', dif_pos hlt, Bool.not_true,
    Bool.false_eq_true, if_false]

/-- "Unassigned" takes the lowest free id (R245). -/
theorem register_firstFree (hid : D.id = 8) (hfirst : s.firstFree p = some j) :
    s.register g D = (s.openLine.install g D p j, .ok) := by
  have hroom' : ¬s.openLine.free.get p = 0 := hroom
  have hlt : ¬D.id < 8 := by omega
  have hid' : ¬D.id > idUnassigned := Nat.not_lt.2 hid.le
  have hfirst' : s.openLine.firstFree p = some j := hfirst
  simp only [State.register, hrecv, hport, Port.ofWord_toWord, if_neg hid', if_neg hroom', dif_neg hlt, Bool.not_true,
    Bool.false_eq_true, if_false, hfirst']

end

/-- Settles O22: an explicit id is free by premise (`register_explicit`), and for "unassigned" the id is the lowest free
one (`State.firstFree_eq_some`, `register_firstFree`); both install the entry of `State.install_eq`. -/
theorem registerInstallsTheEntry : Obligations.RegisterInstallsTheEntry := by
  intro s k c d t g D p j h hm hrecv hport hroom hfree hid
  have hD : s.openLine.desc[g]? = some D := desc_of_manageable hm
  have hbody : s.register g D = (s.openLine.install g D p j, .ok) := by
    rcases hid with hid | ⟨hid, hlow⟩
    · rw [register_explicit hrecv hport hroom hid, State.openLine_table, hfree]
      rfl
    · exact register_firstFree hrecv hport hroom hid (State.firstFree_eq_some hfree hlow)
  rw [State.install_eq p j hD, State.openLine_eq] at hbody
  exact managed_runs h .register t _ hm hbody rfl rfl

/-- Settles O23: each rejection is a case of REGISTER's body; where the table is full or the id taken a channel is
registered, so opening the line changes nothing (`State.openLine_of_registered`). -/
theorem registerRejectsInOrder : Obligations.RegisterRejectsInOrder := by
  refine fun s k c d t g D h hm hcount => ⟨fun hbad => ?invalid, fun p hrecv hport hid hfull => ?exhausted,
    fun p j e hrecv hport hroom hid he => ?assigned⟩
  case invalid => exact managed_runs h .register t _ hm (register_invalidArgument hbad) rfl rfl
  case exhausted =>
    have hpos : 0 < s.registeredCount := by
      have hsize := hcount p
      unfold State.registeredCount
      cases p <;> omega
    have hbody := register_resourceExhausted (s := s) (g := g) hrecv hport hid hfull
    rw [State.openLine_of_registered hpos] at hbody
    exact managed_runs h .register t _ hm hbody rfl rfl
  case assigned =>
    have hbody : s.register g D = ({ s with desc := s.desc.set g { D with id := 9 } }, .alreadyAssigned) := by
      rw [register_explicit hrecv hport hroom hid, State.openLine_table, he, Option.isSome_some, if_pos rfl,
        State.openLine_of_registered (State.registeredCount_pos he), State.setDescId,
        modify_eq_set _ _ _ _ (desc_of_manageable hm)]
      rfl
    exact managed_runs h .register t _ hm hbody rfl rfl

/-- Settles O25: handles are unique, so the entry `State.unregister_cases` removes is the one given. -/
theorem unregisterRemovesTheEntry : Obligations.UnregisterRemovesTheEntry := by
  refine fun s k c d t g D h hm => ⟨fun p j e hunique he hd => ?removed, fun hnone => ?none⟩
  all_goals rcases State.unregister_cases s g with ⟨hn, hbody⟩ | ⟨q, i, f, hf, hfd, hbody⟩
  case removed.inl => exact absurd hd (State.entryOf_eq_none.1 hn p j e he)
  case removed.inr =>
    obtain ⟨rfl, rfl⟩ := hunique p j e q i f he hf (hd.trans hfd.symm)
    exact managed_runs h .unregister t (fun g _ => s.unregister g) hm hbody rfl rfl
  case none.inl => exact managed_runs h .unregister t (fun g _ => s.unregister g) hm hbody rfl rfl
  case none.inr => exact absurd hfd (hnone q i f hf)

/-! ### While a DISPATCH holds the locks (R240, R305) -/

/-- Settles O42: REGISTER and UNREGISTER move only in IDLE, and no other operation writes a table, a counter, the line
enable or, but for a raw write, MASK (`exec_tables`, `exec_mask`). -/
theorem tablesAreStableDuringDispatch : Obligations.TablesAreStableDuringDispatch := by
  intro i s u hbusy hx
  cases i with
  | register d t | unregister d t =>
    rcases exec_next hx with rfl | ⟨r, rfl⟩ | ⟨hidle, -⟩
    · exact ⟨rfl, rfl, rfl, fun _ => rfl⟩
    · exact ⟨rfl, rfl, rfl, fun _ => rfl⟩
    · exact absurd hidle hbusy
  | _ =>
    obtain ⟨hline, htable, hfree⟩ := exec_tables hx (by simp) (by simp)
    exact ⟨htable, hfree, hline, exec_mask hx (by simp) (by simp)⟩

end Sys2Proof.Machine
end

