-- ==== Sys2Proof/Proofs/Sending.lean ====
section
/-! The steps of a Caller's SEND, one lemma an outcome (R280 to R285): O27, O28, O29, O30, O31. -/

namespace Sys2Proof.Machine

open Sys2Proof.Claims

/-! ### What the steps of SEND write -/

/-- SEND's return after a change that leaves the Callers (R285, R400). -/
theorem finishSend_eq_boundSend {s v : State} {k : Nat} {c : Caller} (h : IsCaller s k c) (t : VarName)
    (code : ResultCode) (hcur : v.cur = s.cur) (hcallers : v.callers = s.callers) :
    v.finishSend t code =
      { v with log := v.log ++ [.result (.caller k) .send code], callers := boundSend s k c t code.toWord } := by
  obtain ⟨hk, hget⟩ := h
  rw [State.finishSend_caller t code (hcur.trans hk) ((congrArg (·[k]?) hcallers).trans hget), hcallers]
  rfl

/-- SEND's locals after a change that leaves the Callers (R281). -/
theorem setSend_eq_inSend {s v : State} {k : Nat} {c : Caller} (h : IsCaller s k c) (l : SendLocals)
    (hcur : v.cur = s.cur) (hcallers : v.callers = s.callers) :
    v.setSend (some l) = { v with callers := inSend s k c l } := by
  obtain ⟨hk, hget⟩ := h
  rw [State.setSend_caller (some l) (hcur.trans hk) ((congrArg (·[k]?) hcallers).trans hget), hcallers]
  rfl

/-- The phase once n words are copied: the copy of the next one, or S7 after the four (R283, R284). -/
def copyPhase (n : Nat) (t : Word) : SendPhase := if h : n < 4 then .copy ⟨n, h⟩ t else .s7 t

theorem sendAfterCopy_eq_copyPhase (i : WordIdx) (t : Word) : sendAfterCopy i t = copyPhase (i.val + 1) t := by
  fin_cases i <;> rfl

/-- With the bit of (p, j) added, a word keeps the other bits of the data fields (R12, R285). -/
theorem getLsbD_or_bit_dataBit {cfg : Params} (hwf : cfg.wf = true) (w : Word) (p q : Port) (j i : Chan) :
    (w ||| bit (cfg.dataBit p j)).getLsbD (cfg.dataBit q i) =
      (w.getLsbD (cfg.dataBit q i) || decide (q = p ∧ i = j)) := by
  simp only [BitVec.getLsbD_or, getLsbD_bit, Params.dataBit_inj hwf, Params.dataBit_lt hwf q i, decide_true,
    Bool.and_true]

/-! ### S1, the lookup (R280) -/

/-- The channel of port p whose entry holds the handle (R280). -/
def State.chanOf (s : State) (p : Port) (g : Handle) : Option Chan :=
  allChans.find? fun j => (s.table.get p j).any fun e => e.d == g

theorem State.chanOf_eq_none {s : State} {p : Port} {g : Handle}
    (h : ∀ j e, s.table.get p j = some e → e.d ≠ g) : s.chanOf p g = none := by
  refine List.find?_eq_none.2 fun j _ hj => ?_
  obtain ⟨e, he, hd⟩ := (Option.any_eq_true _ _).1 hj
  exact h j e he (beq_iff_eq.1 hd)

/-- With handles unique the lookup finds the one entry of the handle (R45, R280). -/
theorem State.chanOf_eq_some {s : State} {p : Port} {j : Chan} {e : Entry} (hu : s.handlesUnique)
    (he : s.table.get p j = some e) : s.chanOf p e.d = some j := by
  cases hs : s.chanOf p e.d with
  | none => exact absurd (by simp [he]) (List.find?_eq_none.1 hs j (mem_allChans j))
  | some i =>
    have hholds := List.find?_some hs
    obtain ⟨f, hf, hfd⟩ := (Option.any_eq_true _ _).1 hholds
    obtain ⟨-, rfl⟩ := hu p j e p i f he hf (beq_iff_eq.1 hfd).symm
    rfl

section
variable {s : State} {k : Nat} {c : Caller} (h : IsCaller s k c) (hn : c.send = none) (d : DescName) (m : MsgExpr)
  (t : VarName)
include h hn

/-- SEND of a Caller with nothing in progress is its lookup (R280). -/
theorem exec_send_starts : exec (.send d m t) s = s.sendLookup d m t := by
  refine (asCaller_of_isCaller h _).trans ?_
  simp only [hn]

theorem exec_send_notBroughtUp (hidle : s.dphase = .idle) (hdev : s.dev = .uninit) :
    exec (.send d m t) s = .next (s.raise .notBroughtUp) := by
  rw [exec_send_starts h hn]
  simp only [State.sendLookup, hidle, hdev, ne_eq, not_true_eq_false, if_false]

theorem exec_send_bringupFailed (hidle : s.dphase = .idle) (hdev : s.dev = .failed) :
    exec (.send d m t) s = .next (s.finishSend t .hardwareBringupFailed) := by
  rw [exec_send_starts h hn]
  simp only [State.sendLookup, hidle, hdev, ne_eq, not_true_eq_false, if_false]

theorem exec_send_badHandle (hidle : s.dphase = .idle) (hdev : s.dev = .ok) (hl : s.lookupDesc d = none) :
    exec (.send d m t) s = .next (s.raise .badHandle) := by
  rw [exec_send_starts h hn]
  simp only [State.sendLookup, hidle, hdev, hl, ne_eq, not_true_eq_false, if_false]

variable {d} {g : Handle} {D : Desc} (hm : Manageable s d g D)
include hm

theorem exec_send_invalidArgument (hport : Port.ofWord D.port = none) :
    exec (.send d m t) s = .next (s.finishSend t .invalidArgument) := by
  obtain ⟨hidle, hdev, hl⟩ := hm
  rw [exec_send_starts h hn]
  simp only [State.sendLookup, hidle, hdev, hl, hport, ne_eq, not_true_eq_false, if_false]

variable {p : Port} (hport : D.port = p.toWord)
include hport

theorem exec_send_notRegistered (hchan : s.chanOf p g = none) :
    exec (.send d m t) s = .next (s.finishSend t .notRegistered) := by
  obtain ⟨hidle, hdev, hl⟩ := hm
  unfold State.chanOf at hchan
  rw [exec_send_starts h hn]
  simp only [State.sendLookup, hidle, hdev, hl, hport, Port.ofWord_toWord, hchan, ne_eq, not_true_eq_false, if_false]

/-- S1 fixes the locals from the entry it finds (R281). -/
theorem exec_send_lookup {j : Chan} {e : Entry} (hchan : s.chanOf p g = some j) (he : s.table.get p j = some e) :
    exec (.send d m t) s = .next { s with
      callers := inSend s k c ⟨.s2, p, s.cfg.dataBit p j, e.wslot, s.evalMsg m⟩ } := by
  obtain ⟨hidle, hdev, hl⟩ := hm
  unfold State.chanOf at hchan
  rw [← setSend_eq_inSend (v := s) h _ rfl rfl, exec_send_starts h hn]
  simp only [State.sendLookup, hidle, hdev, hl, hport, Port.ofWord_toWord, hchan, he, ne_eq, not_true_eq_false,
    if_false]

end

/-- Settles O27: handles are unique, so the lookup finds the entry given (`State.chanOf_eq_some`). -/
theorem sendLookupFixesTheLocals : Obligations.SendLookupFixesTheLocals := by
  rintro s k c d m t _ D p j e h hn hm hport hunique he rfl
  exact exec_send_lookup h hn m t hm hport (State.chanOf_eq_some hunique he) he

/-- Settles O28: one lemma an outcome of the lookup. -/
theorem sendLookupFailsInOrder : Obligations.SendLookupFailsInOrder := by
  refine fun s k c d m t h hn => ⟨exec_send_waits d m t h hn, exec_send_notBroughtUp h hn d m t,
    fun hidle hdev => ?failed, exec_send_badHandle h hn d m t, fun g D hm hbad => ?invalid,
    fun g D p hm hport hnone => ?none⟩
  case failed =>
    rw [exec_send_bringupFailed h hn d m t hidle hdev, finishSend_eq_boundSend h t _ rfl rfl]
    rfl
  case invalid =>
    have hport : Port.ofWord D.port = none :=
      Option.eq_none_iff_forall_ne_some.2 fun p hp => hbad p (Port.ofWord_eq_some.1 hp)
    rw [exec_send_invalidArgument h hn m t hm hport, finishSend_eq_boundSend h t _ rfl rfl]
    rfl
  case none =>
    rw [exec_send_notRegistered h hn m t hm hport (State.chanOf_eq_none hnone), finishSend_eq_boundSend h t _ rfl rfl]
    rfl

/-! ### S2 to S8 (R282 to R285) -/

section
variable {s : State} {k : Nat} {c : Caller} (h : IsCaller s k c) {l : SendLocals} (hl : c.send = some l) (d : DescName)
  (m : MsgExpr) (t : VarName)
include h hl

/-- S2 finds the channel's TX bit set (R282). -/
theorem exec_send_busy (hph : l.phase = .s2) (hbit : (s.mmioRead .tx).getLsbD l.b = true) :
    exec (.send d m t) s = .next { s with
      log := s.log ++ [.result (.caller k) .send .channelBusy], callers := boundSend s k c t 5 } := by
  rw [exec_send_inProgress d m t h hl]
  simp only [State.sendStep, hph, hbit, if_true]
  exact congrArg Host.Outcome.next (finishSend_eq_boundSend h t .channelBusy rfl rfl)

/-- S2 finds the channel's TX bit clear (R282). -/
theorem exec_send_free (hph : l.phase = .s2) (hbit : (s.mmioRead .tx).getLsbD l.b = false) :
    exec (.send d m t) s = .next { s with
      callers := inSend s k c { l with phase := copyPhase 0 (s.mmioRead .tx) } } := by
  rw [exec_send_inProgress d m t h hl]
  simp only [State.sendStep, hph, hbit, Bool.false_eq_true, if_false]
  exact congrArg Host.Outcome.next (setSend_eq_inSend h _ rfl rfl)

/-- S3 to S6 write one word of the message to the slot (R283). -/
theorem exec_send_copy {i : WordIdx} {t1 : Word} (hph : l.phase = .copy i t1) (halign : s.cfg.shmBase % 4 = 0) :
    exec (.send d m t) s = .next { s with
      shm := s.shm.writeWord s.cfg.byteOrder (s.cfg.wordAddr l.ws i) (l.msg.word i)
      callers := inSend s k c { l with phase := copyPhase (i.val + 1) t1 } } := by
  rw [exec_send_inProgress d m t h hl, ← sendAfterCopy_eq_copyPhase]
  simp only [State.sendStep, hph, State.memWrite_slot halign]
  exact congrArg Host.Outcome.next (setSend_eq_inSend h _ rfl rfl)

/-- S7 reads TX (R284). -/
theorem exec_send_reread {t1 : Word} (hph : l.phase = .s7 t1) :
    exec (.send d m t) s = .next { s with
      callers := inSend s k c { l with phase := .s8 t1 (s.mmioRead .tx) } } := by
  rw [exec_send_inProgress d m t h hl]
  simp only [State.sendStep, hph]
  exact congrArg Host.Outcome.next (setSend_eq_inSend h _ rfl rfl)

/-- S8 writes the word of S7 with the channel's bit to TX, and SEND returns OK (R285). -/
theorem exec_send_post {t1 t2 : Word} (hph : l.phase = .s8 t1 t2) :
    exec (.send d m t) s = .next { s.writeTx (t2 ||| bit l.b) with
      log := s.log ++ [.result (.caller k) .send .ok], callers := boundSend s k c t 0 } := by
  rw [exec_send_inProgress d m t h hl]
  simp only [State.sendStep, hph]
  exact congrArg Host.Outcome.next (finishSend_eq_boundSend h t .ok rfl rfl)

end

/-- Settles O29: S2 tests the channel's own bit of the TX word (`getLsbD_packData_dataBit`). -/
theorem sendBusyTest : Obligations.SendBusyTest := by
  intro s k c d m t l j h hl hph hwf hb
  have hbit : (s.mmioRead .tx).getLsbD l.b = s.tx.get l.p j := by
    rw [hb]
    exact getLsbD_packData_dataBit hwf s.tx l.p j
  exact ⟨fun hset => exec_send_busy h hl d m t hph (hbit.trans hset),
    fun hclear => ⟨_, showsData_packData hwf s.tx, exec_send_free h hl d m t hph (hbit.trans hclear)⟩⟩

/-- Settles O30: the word read back is the word written, and a byte outside it is left (`Memory.byte_writeWord`). -/
theorem sendCopiesOneWord : Obligations.SendCopiesOneWord := by
  intro s k c d m t l i t1 h hl hph halign
  refine ⟨_, exec_send_copy h hl d m t hph halign, rfl, ?read, fun a ha => ?frame⟩
  case read =>
    refine (State.memRead_slot (by exact halign) l.ws i).trans (congrArg some ?_)
    exact Memory.readWord_writeWord_same _ _ _ _
  case frame => exact (Memory.byte_writeWord _ _ _ _ _).trans (if_neg ha)

/-- Settles O31: S7's word shows TX, and S8's sets the bits of S7's word and the channel's, each that was 0 with its
TXSET (R205). -/
theorem sendPostsTheFreshWord : Obligations.SendPostsTheFreshWord := by
  refine fun s k c d m t l h hl hwf => ⟨fun t1 hph => ?s7, fun t1 t2 j hph hb => ?s8⟩
  case s7 => exact ⟨_, showsData_packData hwf s.tx, exec_send_reread h hl d m t hph⟩
  case s8 =>
    refine ⟨_, exec_send_post h hl d m t hph, rfl, fun q i => ?_⟩
    have hx : (t2 ||| bit l.b).getLsbD (s.cfg.dataBit q i) =
        (t2.getLsbD (s.cfg.dataBit q i) || decide (q = l.p ∧ i = j)) := by
      rw [hb]
      exact getLsbD_or_bit_dataBit hwf t2 l.p q j i
    have htx : (s.writeTx (t2 ||| bit l.b)).tx.get q i =
        (s.tx.get q i || t2.getLsbD (s.cfg.dataBit q i) || decide (q = l.p ∧ i = j)) := by
      rw [State.writeTx_tx_get, hx, Bool.or_assoc]
    refine ⟨htx, (State.writeTx_outq_get s _ q i).trans (if_congr ?_ rfl rfl)⟩
    dsimp only
    rw [State.writeTx_tx_get]
    cases s.tx.get q i <;> simp

end Sys2Proof.Machine
end

