-- ==== Sys2Proof/Proofs/SendAlone.lean ====
section
/-! O32: the eight steps of a SEND with no other agent's between (R280 to R285). The copy is an induction over the
words copied so far. -/

namespace Sys2Proof.Machine

open Sys2Proof.Claims

/-! ### Steps in a row -/

theorem execN_succ {i : Instr} {s u : State} (n : Nat) (h : exec i s = .next u) :
    execN i (n + 1) s = execN i n u := by
  simp only [execN, h]

/-- The first steps of an operation, then the rest. -/
theorem execN_add {i : Instr} {n r : Nat} {s u : State} (h : execN i n s = .next u) :
    execN i (n + r) s = execN i r u := by
  induction n generalizing s with
  | zero =>
    cases h
    rw [Nat.zero_add]
  | succ n ih =>
    rw [Nat.succ_add]
    cases hx : exec i s with
    | next v =>
      rw [execN_succ _ hx] at h ⊢
      exact ih h
    | fault f => simp [execN, hx] at h
    | refused q => simp [execN, hx] at h

/-! ### The message in the slot (R101, R104, R283) -/

/-- The first n words of the message stand in slot i of the memory m', which is m outside the slot. -/
def WordsCopied (cfg : Params) (i : Slot) (msg : Msg) (n : Nat) (m m' : Memory) : Prop :=
  (∀ w : WordIdx, w.val < n → m'.readWord cfg.byteOrder (cfg.wordAddr i w) = msg.word w) ∧
    ∀ a, ¬InSlot cfg i a → m'.byte a = m.byte a

theorem wordsCopied_zero (cfg : Params) (i : Slot) (msg : Msg) (m : Memory) : WordsCopied cfg i msg 0 m m :=
  ⟨fun _ hw => absurd hw (Nat.not_lt_zero _), fun _ _ => rfl⟩

/-- The copy of the next word leaves the words before it and the bytes outside the slot. -/
theorem WordsCopied.writeWord {cfg : Params} {i : Slot} {msg : Msg} {w : WordIdx} {m m' : Memory}
    (h : WordsCopied cfg i msg w.val m m') :
    WordsCopied cfg i msg (w.val + 1) m (m'.writeWord cfg.byteOrder (cfg.wordAddr i w) (msg.word w)) := by
  obtain ⟨hwords, hframe⟩ := h
  refine ⟨fun v hv => ?words, fun a ha => ?frame⟩
  case words =>
    rcases Nat.lt_succ_iff_lt_or_eq.1 hv with hlt | heq
    · have happart : cfg.wordAddr i v + 4 ≤ cfg.wordAddr i w := by unfold Params.wordAddr; omega
      rw [Memory.readWord_writeWord_other _ _ _ _ _ (.inl happart), hwords v hlt]
    · obtain rfl := Fin.ext heq
      exact Memory.readWord_writeWord_same _ _ _ _
  case frame =>
    have hout : ¬(cfg.wordAddr i w ≤ a ∧ a < cfg.wordAddr i w + 4) := by
      unfold InSlot at ha
      unfold Params.wordAddr
      omega
    rw [Memory.byte_writeWord, if_neg hout, hframe a ha]

/-! ### A SEND in progress -/

/-- The state in the midst of Caller k's SEND, which started in s: its phase and the memory have changed so far. -/
def State.midSend (s : State) (k : Nat) (c : Caller) (l : SendLocals) (ph : SendPhase) (m : Memory) : State :=
  { s with shm := m, callers := inSend s k c { l with phase := ph } }

section
variable {s : State} {k : Nat} {c : Caller} (h : IsCaller s k c) (l : SendLocals) (d : DescName) (x : MsgExpr)
  (t : VarName) (m : Memory)

include h in
theorem isCaller_midSend (ph : SendPhase) :
    IsCaller (s.midSend k c l ph m) k { c with send := some { l with phase := ph } } := by
  obtain ⟨hcur, hget⟩ := h
  exact ⟨hcur, List.getElem?_set_self (List.getElem?_eq_some_iff.1 hget).1⟩

theorem inSend_midSend (ph : SendPhase) (l' : SendLocals) :
    inSend (s.midSend k c l ph m) k { c with send := some { l with phase := ph } } l' = inSend s k c l' :=
  List.set_set ..

theorem boundSend_midSend (ph : SendPhase) (v : Word) :
    boundSend (s.midSend k c l ph m) k { c with send := some { l with phase := ph } } t v = boundSend s k c t v :=
  List.set_set ..

include h

/-- S2 on a free channel (R282). -/
theorem exec_midSend_free (hfree : (s.mmioRead .tx).getLsbD l.b = false) :
    exec (.send d x t) (s.midSend k c l .s2 m) = .next (s.midSend k c l (copyPhase 0 (s.mmioRead .tx)) m) := by
  rw [exec_send_free (isCaller_midSend h l m _) rfl d x t rfl hfree, inSend_midSend]
  rfl

/-- The first n copy steps, by induction on n (R283). -/
theorem execN_midSend_copy (halign : s.cfg.shmBase % 4 = 0) (t1 : Word) (n : Nat) (hn : n ≤ 4) :
    ∃ m', execN (.send d x t) n (s.midSend k c l (copyPhase 0 t1) m) =
        .next (s.midSend k c l (copyPhase n t1) m') ∧
      WordsCopied s.cfg l.ws l.msg n m m' := by
  induction n with
  | zero => exact ⟨m, rfl, wordsCopied_zero _ _ _ m⟩
  | succ n ih =>
    obtain ⟨m', hrun, hcopied⟩ := ih (Nat.le_of_succ_le hn)
    have hcopy := exec_send_copy (isCaller_midSend h l m' (copyPhase n t1)) rfl d x t (i := ⟨n, hn⟩) (dif_pos hn)
      halign
    rw [inSend_midSend] at hcopy
    exact ⟨_, (execN_add hrun).trans (execN_succ 0 hcopy), WordsCopied.writeWord (w := ⟨n, hn⟩) hcopied⟩

/-- S7 (R284). -/
theorem exec_midSend_reread (t1 : Word) :
    exec (.send d x t) (s.midSend k c l (.s7 t1) m) = .next (s.midSend k c l (.s8 t1 (s.mmioRead .tx)) m) := by
  rw [exec_send_reread (isCaller_midSend h l m _) rfl d x t rfl, inSend_midSend]
  rfl

/-- S8 (R285). -/
theorem exec_midSend_post (t1 t2 : Word) :
    exec (.send d x t) (s.midSend k c l (.s8 t1 t2) m) = .next { s.writeTx (t2 ||| bit l.b) with
      shm := m, log := s.log ++ [.result (.caller k) .send .ok], callers := boundSend s k c t 0 } := by
  rw [exec_send_post (isCaller_midSend h l m _) rfl d x t rfl, boundSend_midSend]
  rfl

/-- S2 to S8 on a free channel copy the message and post on the TX word as it is (R282 to R285). -/
theorem execN_midSend (halign : s.cfg.shmBase % 4 = 0) (hfree : (s.mmioRead .tx).getLsbD l.b = false) :
    ∃ m', execN (.send d x t) 7 (s.midSend k c l .s2 m) = .next { s.writeTx (s.mmioRead .tx ||| bit l.b) with
        shm := m', log := s.log ++ [.result (.caller k) .send .ok], callers := boundSend s k c t 0 } ∧
      WordsCopied s.cfg l.ws l.msg 4 m m' := by
  obtain ⟨m', hcopy, hcopied⟩ := execN_midSend_copy h l d x t m halign (s.mmioRead .tx) 4 le_rfl
  refine ⟨m', ?_, hcopied⟩
  calc execN (.send d x t) 7 (s.midSend k c l .s2 m)
      = execN (.send d x t) 6 (s.midSend k c l (copyPhase 0 (s.mmioRead .tx)) m) :=
        execN_succ 6 (exec_midSend_free h l d x t m hfree)
    _ = execN (.send d x t) 2 (s.midSend k c l (.s7 (s.mmioRead .tx)) m') := execN_add (r := 2) hcopy
    _ = execN (.send d x t) 1 (s.midSend k c l (.s8 (s.mmioRead .tx) (s.mmioRead .tx)) m') :=
        execN_succ 1 (exec_midSend_reread h l d x t m' _)
    _ = _ := execN_succ 0 (exec_midSend_post h l d x t m' _ _)

end

/-- The post of a free channel on a fresh TX word sets the channel's bit alone and sends one TXSET (R205, R285). -/
theorem State.writeTx_fresh_or_bit {s : State} (hwf : s.cfg.wf = true) {p : Port} {j : Chan}
    (hfree : s.tx.get p j = false) :
    s.writeTx (s.mmioRead .tx ||| bit (s.cfg.dataBit p j)) =
      { s with tx := s.tx.set p j true, outq := s.outq.set p j (s.outq.get p j ++ [.txset]) } := by
  have hx : ∀ q i, (s.mmioRead .tx ||| bit (s.cfg.dataBit p j)).getLsbD (s.cfg.dataBit q i) =
      (s.tx.get q i || decide (q = p ∧ i = j)) := fun q i => by
    rw [getLsbD_or_bit_dataBit hwf]
    exact congrArg (· || _) (getLsbD_packData_dataBit hwf s.tx q i)
  have htx : (s.writeTx (s.mmioRead .tx ||| bit (s.cfg.dataBit p j))).tx = s.tx.set p j true :=
    Chans.ext_get fun q i => by
      rw [State.writeTx_tx_get, hx, Chans.get_set]
      by_cases hqi : q = p ∧ i = j <;> simp [hqi]
  have hq : (s.writeTx (s.mmioRead .tx ||| bit (s.cfg.dataBit p j))).outq =
      s.outq.set p j (s.outq.get p j ++ [.txset]) :=
    Chans.ext_get fun q i => by
      rw [State.writeTx_outq_get, hx, Chans.get_set]
      by_cases hqi : q = p ∧ i = j
      · obtain ⟨rfl, rfl⟩ := hqi
        simp [hfree]
      · simp [hqi]
  exact congrArg₂ (fun tx outq => { s with tx := tx, outq := outq }) htx hq

/-- Settles O32: S1, then S2 to S8 (`execN_midSend`); the entry's cached slot is the one R102 gives, by the registration
invariant. -/
theorem sendAloneDeliversTheMessage : Obligations.SendAloneDeliversTheMessage := by
  rintro s k c d x t _ D p j e h hn hm hport ⟨-, -, hunique, hsound⟩ he rfl hwf hfree
  obtain ⟨-, -, -, halign, -⟩ := Params.wf_bounds hwf
  obtain ⟨-, -, hslot⟩ := hsound p j e he
  have hlookup := exec_send_lookup h hn x t hm hport (State.chanOf_eq_some hunique he) he
  have hbit : (s.mmioRead .tx).getLsbD (s.cfg.dataBit p j) = false :=
    (getLsbD_packData_dataBit hwf s.tx p j).trans hfree
  obtain ⟨m', hrun, hwords, hframe⟩ :=
    execN_midSend h ⟨.s2, p, s.cfg.dataBit p j, e.wslot, s.evalMsg x⟩ d x t s.shm halign hbit
  rw [State.writeTx_fresh_or_bit hwf hfree] at hrun
  rw [hslot] at hwords hframe
  refine ⟨_, (execN_succ 7 hlookup).trans hrun, rfl, fun i => ?_, hframe⟩
  exact (State.memRead_slot (by exact halign) (wslot p j) i).trans (congrArg some (hwords i i.isLt))

end Sys2Proof.Machine
end

