-- ==== Sys2Proof/Proofs/DispatchSteps.lean ====
section
/-! The single steps of DISPATCH, one lemma a phase (R306 to R309), and what they settle: O33, entry and return; O34,
the steps that build the work; O39, the RUN step. -/

namespace Sys2Proof.Machine

open Sys2Proof.Claims

/-! ### The locks (R47) -/

theorem State.maskLock_of_idle {s : State} (h : s.dphase = .idle) : s.maskLock = none := if_pos h

theorem State.portLock_of_idle {s : State} (h : s.dphase = .idle) (p : Port) : s.portLock p = none := if_pos h

/-! ### The phases before RUN (R306, R307) -/

section
variable {s : State} (hcur : s.cur = .dispatcher)
include hcur

theorem exec_dispatch_enters (hph : s.dphase = .idle) (hirq : s.irq = true) :
    exec .dispatch s = .next { s with dphase := .acq } := by
  refine (State.asAgent_eq _ hcur).trans ?_
  simp only [hph, hirq, if_true]
  rfl

theorem exec_dispatch_snapshots (hph : s.dphase = .acq) :
    exec .dispatch s = .next { s with dphase := .snap s.status } := by
  refine (State.asAgent_eq _ hcur).trans ?_
  simp only [hph]
  rfl

/-- Without the erratum the acknowledgement clears the bits of the snapshot that stand (R207, R307). -/
theorem exec_dispatch_acknowledges_of_no_erratum {w : Word} (hph : s.dphase = .snap w)
    (he : s.cfg.erratumResidual = false) :
    exec .dispatch s = .next { s.clearStatus (w &&& s.status) with dphase := .ack w } := by
  rw [exec_dispatch_acknowledges hcur hph, State.writeStatus_of_no_erratum he]

theorem exec_dispatch_readsMask {w : Word} (hph : s.dphase = .ack w) :
    exec .dispatch s = .next { s with dphase := .maskrd w s.mask } := by
  refine (State.asAgent_eq _ hcur).trans ?_
  simp only [hph]
  rfl

/-! ### The RUN steps (R308, R309) -/

theorem exec_dispatch_returns {w m a : Word} {buf : RecvBuf} (hph : s.dphase = .run w m a [] buf) :
    exec .dispatch s = .next { s with dphase := .idle } := by
  refine (State.asAgent_eq _ hcur).trans ?_
  simp only [hph]
  rfl

variable {w m a : Word} {p : Port} {c : Chan} {rest : List WorkItem} {buf : RecvBuf}

theorem exec_dispatch_drain (hph : s.dphase = .run w m a (.drain p c :: rest) buf) :
    exec .dispatch s = .next { s with log := s.log ++ [.txDrained p c], dphase := .run w m a rest buf } := by
  refine (State.asAgent_eq _ hcur).trans ?_
  simp only [hph]
  rfl

theorem exec_dispatch_stray {v : Word} (hph : s.dphase = .run w m a (.stray p v :: rest) buf) :
    exec .dispatch s = .next { s with log := s.log ++ [.stray p v], dphase := .run w m a rest buf } := by
  refine (State.asAgent_eq _ hcur).trans ?_
  simp only [hph]
  rfl

end

/-- The state after a RUN step on a `Recv` item has read the word v into `buf` (R308). -/
def State.afterWord (s : State) (w m a : Word) (p : Port) (c : Chan) (rs : Slot) (rest : List WorkItem) (v : Word) :
    RecvBuf → State
  | .k0 => { s with dphase := .run w m a (.recv p c rs :: rest) (.k1 v) }
  | .k1 w0 => { s with dphase := .run w m a (.recv p c rs :: rest) (.k2 w0 v) }
  | .k2 w0 w1 => { s with dphase := .run w m a (.recv p c rs :: rest) (.k3 w0 w1 v) }
  | .k3 w0 w1 w2 => { s with log := s.log ++ [.receive p c ⟨w0, w1, w2, v⟩], dphase := .run w m a rest .k0 }

/-- A legal `Recv` step reads word k of the slot (R308). -/
theorem exec_dispatch_readsWord {s : State} (hcur : s.cur = .dispatcher) (halign : s.cfg.shmBase % 4 = 0)
    {w m a : Word} {p : Port} {c : Chan} {rs : Slot} {rest : List WorkItem} {buf : RecvBuf}
    (hph : s.dphase = .run w m a (.recv p c rs :: rest) buf) :
    exec .dispatch s = .next (s.afterWord w m a p c rs rest
      (s.shm.readWord s.cfg.byteOrder (s.cfg.wordAddr rs buf.k)) buf) := by
  rw [exec_dispatch_recv hcur hph, State.runRecv, State.memRead_slot halign]
  cases buf <;> rfl

/-! ### The obligations -/

/-- Settles O33: in IDLE `irq` decides (`State.irq_iff`), and the locks follow the phase. -/
theorem dispatchEntryAndReturn : Obligations.DispatchEntryAndReturn := by
  refine fun s hcur => ⟨fun hidle => ⟨fun hirq => ?enters, fun hirq => ?waits⟩, fun w m a buf hph => ?returns⟩
  case enters =>
    exact ⟨_, exec_dispatch_enters hcur hidle (s.irq_iff.2 hirq), rfl, State.maskLock_of_idle hidle, rfl,
      fun p => ⟨State.portLock_of_idle hidle p, rfl⟩⟩
  case waits => exact exec_dispatch_waits hcur hidle (Bool.eq_false_iff.2 (mt s.irq_iff.1 hirq))
  case returns => exact ⟨_, exec_dispatch_returns hcur hph, rfl, rfl, fun _ => rfl⟩

/-- Settles O34: one lemma a phase. The orders of the demultiplex step are draws, each a permutation (`permOf_perm`). -/
theorem dispatchSnapshotsAndAcknowledges : Obligations.DispatchSnapshotsAndAcknowledges := by
  refine fun s hcur => ⟨exec_dispatch_snapshots hcur, fun w hph he => ?acknowledges,
    fun w => exec_dispatch_readsMask hcur, fun w m hph => ?startsRun⟩
  case acknowledges =>
    refine ⟨_, exec_dispatch_acknowledges_of_no_erratum hcur hph he, ?frame, fun p c => ⟨fun hbit => ?cleared,
      fun hbit => ?kept⟩⟩
    case frame =>
      rw [← and_not_and_self]
      rfl
    case cleared =>
      exact ⟨(s.clearStatus_rx_get _ p c).trans (by rw [hbit, Bool.not_true, Bool.and_false]),
        (s.clearStatus_outq_get _ p c).trans (if_pos hbit)⟩
    case kept =>
      exact ⟨(s.clearStatus_rx_get _ p c).trans (by rw [hbit, Bool.not_false, Bool.and_true]),
        (s.clearStatus_outq_get _ p c).trans (by rw [hbit]; rfl)⟩
  case startsRun =>
    refine ⟨_, s.drawOrder, s.afterDraw.drawOrder, exec_dispatch_startsRun hcur hph, permOf_perm _ _,
      permOf_perm _ _, ?_⟩
    rw [State.startRun_eq]
    rfl

/-- Settles O39: a `Recv` step is `exec_dispatch_readsWord`, in each state of `buf`. -/
theorem runStepServesTheHead : Obligations.RunStepServesTheHead := by
  refine fun s w m a rest buf hcur => ⟨fun p c => exec_dispatch_drain hcur, fun p v => exec_dispatch_stray hcur,
    fun p c rs hph halign => ?_⟩
  rw [exec_dispatch_readsWord hcur halign hph]
  cases buf <;> rfl

end Sys2Proof.Machine
end

