-- ==== Sys2Proof/Proofs/Demultiplexer.lean ====
section
/-! What the demultiplexer yields (R304), channel by channel (`entryItems`), and what that settles: O37, the source's
loop is one pass; O36, the counts of the items; O38, their order. -/

namespace Sys2Proof.Machine

open Sys2Proof.Claims

/-! ### At most one item -/

section
variable {α : Type} {P : Prop} [Decidable P]

theorem count_ite_singleton_of_ne [DecidableEq α] {a b : α} (h : b ≠ a) : (if P then [a] else []).count b = 0 :=
  List.count_eq_zero.2 fun hmem => h (List.mem_singleton.1 (List.mem_ite_nil_right.1 hmem).2)

theorem pairwise_ite_singleton (R : α → α → Prop) (a : α) : (if P then [a] else []).Pairwise R := by
  split
  · exact List.pairwise_singleton _ _
  · exact .nil

end

/-! ### The items of one channel -/

/-- The items of channel c for the word w: of an entry its Drain, then its Recv; without an entry none (R304). -/
def entryItems (cfg : Params) (p : Port) (t : Chans (Option Entry)) (w : Word) (c : Chan) : List WorkItem :=
  match t.get p c with
  | none => []
  | some e =>
    (if w.getLsbD (cfg.emptyBit p c) && e.hs && e.txd then [.drain p c] else []) ++
      (if w.getLsbD (cfg.fullBit p c) then [.recv p c e.rslot] else [])

section
variable {cfg : Params} {p : Port} {t : Chans (Option Entry)} {w : Word} {c : Chan}

theorem entryItems_of_none (h : t.get p c = none) : entryItems cfg p t w c = [] := by
  simp only [entryItems, h]

theorem entryItems_of_some {e : Entry} (h : t.get p c = some e) :
    entryItems cfg p t w c =
      (if w.getLsbD (cfg.emptyBit p c) && e.hs && e.txd then [.drain p c] else []) ++
        (if w.getLsbD (cfg.fullBit p c) then [.recv p c e.rslot] else []) := by
  simp only [entryItems, h]

/-- The items of a channel are its own, and none is a Stray. -/
theorem mem_entryItems {x : WorkItem} (h : x ∈ entryItems cfg p t w c) : x = .drain p c ∨ ∃ rs, x = .recv p c rs := by
  cases ht : t.get p c with
  | none => simp [entryItems_of_none ht] at h
  | some e =>
    rw [entryItems_of_some ht, List.mem_append, List.mem_ite_nil_right, List.mem_ite_nil_right] at h
    rcases h with ⟨-, h⟩ | ⟨-, h⟩
    · exact .inl (List.mem_singleton.1 h)
    · exact .inr ⟨_, List.mem_singleton.1 h⟩

/-- Only the channel's two bits of the word matter. -/
theorem entryItems_congr {v : Word} (hempty : v.getLsbD (cfg.emptyBit p c) = w.getLsbD (cfg.emptyBit p c))
    (hfull : v.getLsbD (cfg.fullBit p c) = w.getLsbD (cfg.fullBit p c)) :
    entryItems cfg p t v c = entryItems cfg p t w c := by
  rw [entryItems, entryItems, hempty, hfull]

/-- A channel has no items if an entry finds its FULL bit clear, and in handshake mode its EMPTY bit too. -/
theorem entryItems_eq_nil (h : ∀ e, t.get p c = some e →
    w.getLsbD (cfg.fullBit p c) = false ∧ (e.hs = true → w.getLsbD (cfg.emptyBit p c) = false)) :
    entryItems cfg p t w c = [] := by
  cases ht : t.get p c with
  | none => exact entryItems_of_none ht
  | some e =>
    obtain ⟨hfull, hempty⟩ := h e ht
    rw [entryItems_of_some ht, hfull]
    cases hhs : e.hs with
    | false => simp
    | true => simp [hempty hhs]

theorem count_recv_entryItems (q : Port) (d : Chan) (rs : Slot) :
    (entryItems cfg p t w c).count (.recv q d rs) =
      if (q = p ∧ d = c) ∧ w.getLsbD (cfg.fullBit p c) = true ∧ (t.get p c).any (fun e => e.rslot == rs) = true then 1
      else 0 := by
  cases ht : t.get p c with
  | none => simp [entryItems_of_none ht]
  | some e =>
    rw [entryItems_of_some ht, List.count_append, count_ite_singleton_of_ne (by simp), Nat.zero_add]
    cases w.getLsbD (cfg.fullBit p c) with
    | false => simp
    | true => simp [List.count_singleton, @eq_comm _ q, @eq_comm _ d, and_assoc]

theorem count_drain_entryItems (q : Port) (d : Chan) :
    (entryItems cfg p t w c).count (.drain q d) =
      if (q = p ∧ d = c) ∧ w.getLsbD (cfg.emptyBit p c) = true ∧ (t.get p c).any (fun e => e.hs && e.txd) = true then 1
      else 0 := by
  cases ht : t.get p c with
  | none => simp [entryItems_of_none ht]
  | some e =>
    rw [entryItems_of_some ht, List.count_append, count_ite_singleton_of_ne (a := WorkItem.recv p c e.rslot) (by simp),
      Nat.add_zero, Bool.and_assoc]
    cases w.getLsbD (cfg.emptyBit p c) with
    | false => simp
    | true =>
      cases h : (e.hs && e.txd) <;> simp [List.count_singleton, @eq_comm _ q, @eq_comm _ d, h]

end

/-! ### Orders of the channels -/

theorem nodup_of_perm_allChans {order : List Chan} (h : order.Perm allChans) : order.Nodup :=
  h.nodup_iff.2 allChans_nodup

theorem mem_of_perm_allChans {order : List Chan} (h : order.Perm allChans) (c : Chan) : c ∈ order :=
  h.mem_iff.2 (mem_allChans c)

/-! ### One scan of a table (R304) -/

section
variable {cfg : Params} (hwf : cfg.wf = true) (p : Port) (t : Chans (Option Entry)) {order : List Chan}
include hwf

theorem demuxScan_entryItems (w : Word) (hnodup : order.Nodup) :
    (demuxScan cfg p t order w).1 = order.flatMap (entryItems cfg p t w) :=
  demuxScan_items hwf p t order w hnodup

/-- A scan leaves no bit that an entry owns. -/
theorem entryItems_demuxScan_rest (w : Word) {c : Chan} (hc : c ∈ order) :
    entryItems cfg p t (demuxScan cfg p t order w).2 c = [] := by
  refine entryItems_eq_nil fun e he => ?_
  have hfree : ∀ i, (demuxScan cfg p t order w).2.getLsbD i = true →
      i ≠ cfg.fullBit p c ∧ (i = cfg.emptyBit p c → e.hs = false) :=
    fun i hbit => ((demuxScan_rest hwf p t order w i).1 hbit).2 c hc e he
  exact ⟨Bool.eq_false_iff.2 fun hbit => (hfree _ hbit).1 rfl,
    fun hhs => Bool.eq_false_iff.2 fun hbit => Bool.eq_false_iff.1 ((hfree _ hbit).2 rfl) hhs⟩

/-- A second scan of the table takes no bit (R305). -/
theorem demuxScan_demuxScan (w : Word) (hnodup : order.Nodup) :
    demuxScan cfg p t order (demuxScan cfg p t order w).2 = ([], (demuxScan cfg p t order w).2) := by
  refine Prod.ext ?items (BitVec.eq_of_getLsbD_eq fun i _ => Bool.eq_iff_iff.2 ?rest)
  case items =>
    rw [demuxScan_entryItems hwf p t _ hnodup, List.flatMap_eq_nil_iff]
    exact fun c hc => entryItems_demuxScan_rest hwf p t w hc
  case rest =>
    rw [demuxScan_rest hwf]
    exact and_iff_left_of_imp fun hbit => ((demuxScan_rest hwf p t order w i).1 hbit).2

/-- A scan of the word 0 finds nothing (R304). -/
theorem demuxScan_zero (hnodup : order.Nodup) : demuxScan cfg p t order 0 = ([], 0) := by
  refine Prod.ext ?items (BitVec.eq_of_getLsbD_eq fun i _ => Bool.eq_iff_iff.2 ?rest)
  case items =>
    rw [demuxScan_entryItems hwf p t _ hnodup, List.flatMap_eq_nil_iff]
    exact fun c _ => entryItems_eq_nil fun e _ => ⟨BitVec.getLsbD_zero, fun _ => BitVec.getLsbD_zero⟩
  case rest =>
    rw [demuxScan_rest hwf]
    exact and_iff_left_of_imp fun hbit => absurd hbit (by simp)

/-! ### The demultiplexer's items (R304) -/

/-- The bits of port p are those of its origin mask, so a channel's items are those for the whole word. -/
theorem entryItems_and_origin (w : Word) (c : Chan) :
    entryItems cfg p t (w &&& cfg.origin p) c = entryItems cfg p t w c := by
  refine entryItems_congr ?_ ?_
  · rw [BitVec.getLsbD_and, (Params.getLsbD_origin hwf p _).2 ⟨c, .inl rfl⟩, Bool.and_true]
  · rw [BitVec.getLsbD_and, (Params.getLsbD_origin hwf p _).2 ⟨c, .inr rfl⟩, Bool.and_true]

/-- The items of a port: those of each channel in the given order, then a Stray of the bits no entry took (R304). -/
theorem demux_eq (w : Word) (hnodup : order.Nodup) :
    demux cfg p w t order = order.flatMap (entryItems cfg p t w) ++
      strayItem p (demuxScan cfg p t order (w &&& cfg.origin p)).2 := by
  rw [demux, demuxScan_entryItems hwf p t _ hnodup]
  congr 1
  exact List.flatMap_congr fun c _ => entryItems_and_origin hwf p t w c

/-- A port without a set bit has no items (R303, R304). -/
theorem demux_eq_nil {w : Word} (hnodup : order.Nodup) (hw : w &&& cfg.origin p = 0) : demux cfg p w t order = [] := by
  rw [demux, hw, demuxScan_zero hwf p t hnodup]
  rfl

end

/-! ### The source's loop (R305) -/

/-- The loop stops after a scan that took no bit. -/
theorem demuxLoop_of_no_item {cfg : Params} {p : Port} {t : Chans (Option Entry)} {order : List Chan} {w : Word}
    (fuel : Nat) (h : demuxScan cfg p t order w = ([], w)) : demuxLoop cfg p t order fuel w = ([], w) := by
  cases fuel with
  | zero => rfl
  | succ fuel => simp [demuxLoop, h]

/-- Settles O37: the second scan of the loop finds no bit to take (`demuxScan_demuxScan`), and neither does the first
for the word 0. -/
theorem demuxLoopIsOnePass : Obligations.DemuxLoopIsOnePass := by
  intro cfg p w t order fuel hwf hperm
  have hnodup : order.Nodup := nodup_of_perm_allChans hperm
  by_cases hw : w = 0
  · subst hw
    have hzero := demuxScan_zero hwf p t hnodup
    rw [demuxLoop_of_no_item _ hzero, hzero]
  · have hsecond := demuxLoop_of_no_item fuel (demuxScan_demuxScan hwf p t w hnodup)
    rw [demuxLoop, if_neg hw]
    dsimp only
    rw [hsecond]
    split
    · rfl
    · exact Prod.ext (List.append_nil _) rfl

/-! ### The counts (R304, R312) -/

section
variable {cfg : Params} (hwf : cfg.wf = true) {p : Port} {t : Chans (Option Entry)} {order : List Chan} {w : Word}

theorem count_strayItem (q : Port) (v : Word) :
    (strayItem p w).count (.stray q v) = if q = p ∧ v = w ∧ w ≠ 0 then 1 else 0 := by
  unfold strayItem
  split
  · next hw =>
    have hsame : (WorkItem.stray p w == .stray q v) = true ↔ q = p ∧ v = w ∧ w ≠ 0 := by
      rw [beq_iff_eq, WorkItem.stray.injEq]
      exact ⟨fun ⟨hp, hv⟩ => ⟨hp.symm, hv.symm, hw⟩, fun ⟨hp, hv, _⟩ => ⟨hp.symm, hv.symm⟩⟩
    exact List.count_singleton.trans (if_congr hsame rfl rfl)
  · next hw => exact (if_neg fun ⟨_, _, hne⟩ => hw hne).symm

include hwf

/-- A Drain or Recv item is one of its own channel's, which the scan visits once. -/
theorem count_demux (hperm : order.Perm allChans) {x : WorkItem} (c : Chan) (hstray : ∀ v, x ≠ .stray p v)
    (hother : ∀ d, d ≠ c → (entryItems cfg p t w d).count x = 0) :
    (demux cfg p w t order).count x = (entryItems cfg p t w c).count x := by
  have hnodup : order.Nodup := nodup_of_perm_allChans hperm
  have honce : order.count c = 1 := List.count_eq_one_of_mem hnodup (mem_of_perm_allChans hperm c)
  have hnone : ∀ v, (strayItem p v).count x = 0 := fun v => count_ite_singleton_of_ne (hstray v)
  rw [demux_eq hwf p t w hnodup, List.count_append, hnone, Nat.add_zero, List.count_flatMap,
    List.sum_map_eq_nsmul_single c (List.count x ∘ entryItems cfg p t w) fun d hd _ => hother d hd, honce, one_nsmul]
  rfl

theorem count_recv_demux (hperm : order.Perm allChans) (q : Port) (c : Chan) (rs : Slot) :
    (demux cfg p w t order).count (.recv q c rs) =
      if q = p ∧ w.getLsbD (cfg.fullBit p c) = true ∧ (t.get p c).any (fun e => e.rslot == rs) = true then 1
      else 0 := by
  rw [count_demux hwf hperm c (fun _ => by simp) (fun d hd => by simp [count_recv_entryItems, hd.symm]),
    count_recv_entryItems]
  simp

theorem count_drain_demux (hperm : order.Perm allChans) (q : Port) (c : Chan) :
    (demux cfg p w t order).count (.drain q c) =
      if q = p ∧ w.getLsbD (cfg.emptyBit p c) = true ∧ (t.get p c).any (fun e => e.hs && e.txd) = true then 1
      else 0 := by
  rw [count_demux hwf hperm c (fun _ => by simp) (fun d hd => by simp [count_drain_entryItems, hd.symm]),
    count_drain_entryItems]
  simp

/-- The bits a scan of all channels leaves of a port are those no entry owns. -/
theorem getLsbD_demuxScan_rest_iff_unowned (hall : ∀ c, c ∈ order) (i : Nat) :
    (demuxScan cfg p t order (w &&& cfg.origin p)).2.getLsbD i = true ↔ Unowned cfg t p w i := by
  rw [demuxScan_rest hwf, BitVec.getLsbD_and, Bool.and_eq_true, and_assoc, Unowned]
  refine and_congr_right fun _ => and_congr_right fun _ => forall_congr' fun c => ?_
  cases ht : t.get p c with
  | none => simp [ownsFull, ownsEmpty, ht]
  | some e => simp [ownsFull, ownsEmpty, ht, hall c]

theorem count_stray_demux (hperm : order.Perm allChans) (q : Port) (v : Word) :
    (demux cfg p w t order).count (.stray q v) =
      (strayItem p (demuxScan cfg p t order (w &&& cfg.origin p)).2).count (.stray q v) := by
  have hnone : (order.flatMap (entryItems cfg p t w)).count (.stray q v) = 0 := by
    refine List.count_eq_zero.2 fun hmem => ?_
    obtain ⟨c, -, hitem⟩ := List.mem_flatMap.1 hmem
    rcases mem_entryItems hitem with h | ⟨rs, h⟩ <;> cases h
  rw [demux_eq hwf p t w (nodup_of_perm_allChans hperm), List.count_append, hnone, Nat.zero_add]

end

/-- Settles O36: a Recv or Drain is counted in its channel's items, and the Stray is the word of the bits the scan
leaves. -/
theorem demuxServesEveryOwnedBitOnce : Obligations.DemuxServesEveryOwnedBitOnce := by
  intro cfg p w t order hwf hperm
  refine ⟨fun q c rs => count_recv_demux hwf hperm q c rs, fun q c => count_drain_demux hwf hperm q c, fun q v => ?_⟩
  have hall : ∀ c, c ∈ order := mem_of_perm_allChans hperm
  have hbits : v = (demuxScan cfg p t order (w &&& cfg.origin p)).2 ↔
      ∀ i, v.getLsbD i = true ↔ Unowned cfg t p w i := by
    simp only [← getLsbD_demuxScan_rest_iff_unowned hwf hall]
    exact ⟨fun h i => by rw [h], fun h => BitVec.eq_of_getLsbD_eq fun i _ => Bool.eq_iff_iff.2 (h i)⟩
  have hstray : q = p ∧ v = (demuxScan cfg p t order (w &&& cfg.origin p)).2 ∧
      (demuxScan cfg p t order (w &&& cfg.origin p)).2 ≠ 0 ↔
        q = p ∧ v ≠ 0 ∧ ∀ i, v.getLsbD i = true ↔ Unowned cfg t p w i := by
    rw [← hbits]
    exact and_congr_right fun _ => ⟨fun ⟨hv, hne⟩ => ⟨hv ▸ hne, hv⟩, fun ⟨hne, hv⟩ => ⟨hv, hv ▸ hne⟩⟩
  rw [count_stray_demux hwf hperm, count_strayItem]
  exact ⟨fun h => if_pos (hstray.2 h), fun h => if_neg (mt hstray.1 h)⟩

/-! ### The order of the items (R303, R310) -/

/-- Every item of a port is the port's own (R304). -/
theorem mem_demux {cfg : Params} (hwf : cfg.wf = true) {p : Port} {t : Chans (Option Entry)} {order : List Chan}
    (hnodup : order.Nodup) {w : Word} {x : WorkItem} (h : x ∈ demux cfg p w t order) :
    ∃ c rs v, x = .drain p c ∨ x = .recv p c rs ∨ x = .stray p v := by
  rw [demux_eq hwf p t w hnodup, List.mem_append, List.mem_flatMap] at h
  rcases h with ⟨c, -, hitem⟩ | hstray
  · rcases mem_entryItems hitem with rfl | ⟨rs, rfl⟩
    · exact ⟨c, 0, 0, .inl rfl⟩
    · exact ⟨c, rs, 0, .inr (.inl rfl)⟩
  · obtain ⟨-, hmem⟩ := List.mem_ite_nil_right.1 hstray
    exact ⟨0, 0, _, .inr (.inr (List.mem_singleton.1 hmem))⟩

/-- The order of two items of a work list: y is not the Drain that belongs before the Recv x (R310). -/
def InOrder (x y : WorkItem) : Prop := ∀ p c rs, x = .recv p c rs → y ≠ .drain p c

section
variable {cfg : Params} (hwf : cfg.wf = true) {p : Port} {t : Chans (Option Entry)} {order : List Chan} {w : Word}

theorem entryItems_inOrder (c : Chan) : (entryItems cfg p t w c).Pairwise InOrder := by
  cases ht : t.get p c with
  | none => rw [entryItems_of_none ht]; exact .nil
  | some e =>
    rw [entryItems_of_some ht]
    refine List.pairwise_append.2 ⟨pairwise_ite_singleton _ _, pairwise_ite_singleton _ _, ?_⟩
    rintro x hx - - q d rs rfl
    cases List.mem_singleton.1 (List.mem_ite_nil_right.1 hx).2

theorem entryItems_inOrder_of_ne {c d : Chan} (hne : c ≠ d) {x y : WorkItem} (hx : x ∈ entryItems cfg p t w c)
    (hy : y ∈ entryItems cfg p t w d) : InOrder x y := by
  rintro q i rs rfl rfl
  rcases mem_entryItems hx with h | ⟨_, h⟩
  · cases h
  · cases h
    rcases mem_entryItems hy with h | ⟨_, h⟩ <;> cases h
    exact hne rfl

include hwf

theorem demux_inOrder (hnodup : order.Nodup) : (demux cfg p w t order).Pairwise InOrder := by
  rw [demux_eq hwf p t w hnodup]
  refine List.pairwise_append.2 ⟨List.pairwise_flatMap.2 ⟨fun c _ => entryItems_inOrder c, ?_⟩,
    pairwise_ite_singleton _ _, ?_⟩
  · exact hnodup.imp fun hne _ hx _ hy => entryItems_inOrder_of_ne hne hx hy
  · rintro x - y hy q c rs - rfl
    cases List.mem_singleton.1 (List.mem_ite_nil_right.1 hy).2

end

/-- The work of one DISPATCH: the items of NP, then those of LP; a port without an actionable bit has none (R303). -/
theorem State.buildWork_eq {s : State} (hwf : s.cfg.wf = true) (a : Word) {oNP oLP : List Chan}
    (hNP : oNP.Nodup) (hLP : oLP.Nodup) :
    s.buildWork a oNP oLP = demux s.cfg .np a s.table oNP ++ demux s.cfg .lp a s.table oLP := by
  unfold State.buildWork
  congr 1
  · exact ite_eq_left_iff.2 fun h => (demux_eq_nil hwf .np s.table hNP (not_not.1 h)).symm
  · exact ite_eq_left_iff.2 fun h => (demux_eq_nil hwf .lp s.table hLP (not_not.1 h)).symm

/-- An item of NP and one of LP are never the two of one entry. -/
theorem State.buildWork_inOrder {s : State} (hwf : s.cfg.wf = true) (a : Word) {oNP oLP : List Chan}
    (hNP : oNP.Nodup) (hLP : oLP.Nodup) : (s.buildWork a oNP oLP).Pairwise InOrder := by
  rw [State.buildWork_eq hwf a hNP hLP]
  refine List.pairwise_append.2 ⟨demux_inOrder hwf hNP, demux_inOrder hwf hLP, ?_⟩
  rintro x hx y hy p c rs rfl rfl
  rcases mem_demux hwf hNP hx with ⟨_, _, _, h | h | h⟩ <;> cases h
  rcases mem_demux hwf hLP hy with ⟨_, _, _, h | h | h⟩ <;> cases h

/-- Settles O38: `State.buildWork_eq` splits the work by ports, and `State.buildWork_inOrder` orders a Drain and its
Recv. -/
theorem workOrderIsNpFirstAndDrainFirst : Obligations.WorkOrderIsNpFirstAndDrainFirst := by
  intro s a oNP oLP hwf hNP hLP
  have hnNP : oNP.Nodup := nodup_of_perm_allChans hNP
  have hnLP : oLP.Nodup := nodup_of_perm_allChans hLP
  refine ⟨⟨_, _, State.buildWork_eq hwf a hnNP hnLP, fun x => mem_demux hwf hnNP, fun x => mem_demux hwf hnLP⟩, ?_⟩
  intro l1 l2 p c rs hwork hmem
  have hord := State.buildWork_inOrder (s := s) hwf a hnNP hnLP
  rw [hwork] at hord
  obtain ⟨-, htail, -⟩ := List.pairwise_append.1 hord
  exact List.rel_of_pairwise_cons htail hmem p c rs rfl rfl

end Sys2Proof.Machine
end

