-- ==== Sys2Proof/Proofs/DispatchAlone.lean ====
section
/-! One DISPATCH with no other agent's step between: O40, the Dispatcher serves its whole work, by induction on the work
list; O41, from IDLE to IDLE it serves exactly the owned actionable bits. -/

namespace Sys2Proof.Machine

open Sys2Proof.Claims

/-! ### The whole work (R308, R309) -/

theorem workSteps_cons (x : WorkItem) (rest : List WorkItem) :
    workSteps (x :: rest) = workSteps [x] + workSteps rest := by
  cases x <;> rfl

/-- The steps of the head of the work emit its event and leave `buf` empty (R308). -/
theorem execN_dispatch_head {s : State} (hcur : s.cur = .dispatcher) (halign : s.cfg.shmBase % 4 = 0)
    {w m a : Word} {x : WorkItem} {rest : List WorkItem} (hph : s.dphase = .run w m a (x :: rest) .k0) :
    execN .dispatch (workSteps [x]) s =
      .next { s with log := s.log ++ [eventOf s.cfg s.shm x], dphase := .run w m a rest .k0 } := by
  cases x with
  | drain p c => exact execN_succ 0 (exec_dispatch_drain hcur hph)
  | stray p v => exact execN_succ 0 (exec_dispatch_stray hcur hph)
  | recv p c rs =>
    have readsNext (buf : RecvBuf) := exec_dispatch_readsWord
      (s := { s with dphase := .run w m a (.recv p c rs :: rest) buf }) hcur halign rfl
    exact (execN_succ 3 (exec_dispatch_readsWord hcur halign hph)).trans <| (execN_succ 2 (readsNext (.k1 _))).trans <|
      (execN_succ 1 (readsNext (.k2 _ _))).trans (execN_succ 0 (readsNext (.k3 _ _ _)))

/-- Settles O40: by induction on the work, item by item (`execN_dispatch_head`). -/
theorem runAloneServesTheWholeWork : Obligations.RunAloneServesTheWholeWork := by
  intro s w m a work hcur halign hph
  induction work generalizing s with
  | nil =>
    rw [List.map_nil, List.append_nil]
    exact execN_succ 0 (exec_dispatch_returns hcur hph)
  | cons x rest ih =>
    have htail := ih { s with log := s.log ++ [eventOf s.cfg s.shm x], dphase := .run w m a rest .k0 } hcur halign rfl
    rw [workSteps_cons, Nat.add_assoc, execN_add (execN_dispatch_head hcur halign hph), htail, List.append_assoc]
    rfl

/-! ### From IDLE to RUN (R306, R307) -/

/-- A DISPATCH alone, which started in s, in a phase after its acknowledgement: STATUS has been cleared of itself. -/
def State.acknowledged (s : State) (ph : DPhase) : State :=
  { s.clearStatus (s.status &&& s.status) with dphase := ph }

theorem State.acknowledged_status (s : State) (ph : DPhase) : (s.acknowledged ph).status = 0 := by
  show s.status &&& ~~~(s.status &&& s.status) = 0
  rw [BitVec.and_self, BitVec.and_not_self]

/-- The five steps before RUN, with no other agent's between (R306, R307). -/
theorem execN_dispatch_startsRun {s : State} (hcur : s.cur = .dispatcher) (hidle : s.dphase = .idle)
    (hirq : s.irq = true) (he : s.cfg.erratumResidual = false) :
    execN .dispatch 5 s = .next ((s.acknowledged (.maskrd s.status s.mask)).startRun s.status s.mask) :=
  calc execN .dispatch 5 s
      = execN .dispatch 4 { s with dphase := .acq } := execN_succ 4 (exec_dispatch_enters hcur hidle hirq)
    _ = execN .dispatch 3 { s with dphase := .snap s.status } :=
        execN_succ 3 (exec_dispatch_snapshots (s := { s with dphase := .acq }) hcur rfl)
    _ = execN .dispatch 2 (s.acknowledged (.ack s.status)) :=
        execN_succ 2 (exec_dispatch_acknowledges_of_no_erratum (s := { s with dphase := .snap s.status }) hcur rfl he)
    _ = execN .dispatch 1 (s.acknowledged (.maskrd s.status s.mask)) :=
        execN_succ 1 (exec_dispatch_readsMask (s := s.acknowledged (.ack s.status)) hcur rfl)
    _ = _ := execN_succ 0 (exec_dispatch_startsRun (s := s.acknowledged (.maskrd s.status s.mask)) hcur rfl)

/-- A DISPATCH alone returns to IDLE with STATUS clear, and its events are those of the work it built from the actionable
bits (R306 to R309). -/
theorem execN_dispatch_alone {s : State} (hcur : s.cur = .dispatcher) (hidle : s.dphase = .idle) (hirq : s.irq = true)
    (halign : s.cfg.shmBase % 4 = 0) (he : s.cfg.erratumResidual = false) :
    ∃ n u oNP oLP, execN .dispatch n s = .next u ∧ u.dphase = .idle ∧ u.status = 0 ∧
      oNP.Perm allChans ∧ oLP.Perm allChans ∧
      u.log = s.log ++ (s.buildWork s.act oNP oLP).map (eventOf s.cfg s.shm) := by
  have hstart := execN_dispatch_startsRun hcur hidle hirq he
  rw [State.startRun_eq] at hstart
  exact ⟨_, _, _, _, (execN_add hstart).trans (runAloneServesTheWholeWork _ s.status s.mask s.act _ hcur halign rfl),
    rfl, s.acknowledged_status .idle, permOf_perm _ _, permOf_perm _ _, rfl⟩

/-! ### The events of the work (R308, R312) -/

/-- The Drain items of (p, c) are its TxDrained events. -/
theorem drains_map_eventOf (cfg : Params) (m : Memory) (p : Port) (c : Chan) (work : List WorkItem) :
    drains p c (work.map (eventOf cfg m)) = work.count (.drain p c) := by
  rw [drains, List.count, List.countP_map]
  refine List.countP_congr fun x _ => ?_
  cases x <;> simp [eventOf]

/-- The Recv items of (p, c) with the slot `rs` are its Receive events, if the channel's Recv items all have it. -/
theorem receives_map_eventOf (cfg : Params) (m : Memory) {p : Port} {c : Chan} {rs : Slot} {work : List WorkItem}
    (hslot : ∀ i, .recv p c i ∈ work → i = rs) :
    receives p c (work.map (eventOf cfg m)) = work.count (.recv p c rs) := by
  rw [receives, List.count, List.countP_map]
  refine List.countP_congr fun x hx => ?_
  cases x with
  | drain q d => simp [eventOf]
  | stray q v => simp [eventOf]
  | recv q d i =>
    simp only [eventOf, Function.comp_apply, decide_eq_true_eq, beq_iff_eq, WorkItem.recv.injEq]
    exact ⟨fun ⟨hq, hd⟩ => ⟨hq, hd, hslot i (hq ▸ hd ▸ hx)⟩, fun ⟨hq, hd, _⟩ => ⟨hq, hd⟩⟩

section
variable {s : State} (hwf : s.cfg.wf = true) {oNP oLP : List Chan} (hNP : oNP.Perm allChans) (hLP : oLP.Perm allChans)
include hwf hNP hLP

/-- The work of both ports holds a channel's Drain once or not at all (R303, R312). -/
theorem State.count_drain_buildWork (p : Port) (c : Chan) :
    (s.buildWork s.act oNP oLP).count (.drain p c) =
      if s.emptyEvt p c = true ∧ (s.table.get p c).any (fun e => e.hs && e.txd) = true then 1 else 0 := by
  rw [State.buildWork_eq hwf _ (nodup_of_perm_allChans hNP) (nodup_of_perm_allChans hLP), List.count_append,
    count_drain_demux hwf hNP, count_drain_demux hwf hLP]
  cases p <;> simp <;> rfl

theorem State.count_recv_buildWork (p : Port) (c : Chan) (rs : Slot) :
    (s.buildWork s.act oNP oLP).count (.recv p c rs) =
      if s.fullEvt p c = true ∧ (s.table.get p c).any (fun e => e.rslot == rs) = true then 1 else 0 := by
  rw [State.buildWork_eq hwf _ (nodup_of_perm_allChans hNP) (nodup_of_perm_allChans hLP), List.count_append,
    count_recv_demux hwf hNP, count_recv_demux hwf hLP]
  cases p <;> simp <;> rfl

/-- One Receive for each owned actionable FULL bit: all Recv items of a channel have its entry's slot (R312). -/
theorem State.receives_buildWork (m : Memory) (p : Port) (c : Chan) :
    receives p c ((s.buildWork s.act oNP oLP).map (eventOf s.cfg m)) =
      if s.fullEvt p c = true ∧ ownsFull s.table p c = true then 1 else 0 := by
  cases ht : s.table.get p c with
  | none =>
    have hslot : ∀ i, .recv p c i ∈ s.buildWork s.act oNP oLP → i = 0 := fun i hmem => by
      obtain ⟨e, he, -⟩ := State.recv_mem_buildWork hmem
      rw [ht] at he
      cases he
    rw [receives_map_eventOf s.cfg m hslot, State.count_recv_buildWork hwf hNP hLP]
    simp [ownsFull, ht]
  | some e =>
    have hslot : ∀ i, .recv p c i ∈ s.buildWork s.act oNP oLP → i = e.rslot := fun i hmem => by
      obtain ⟨e', he, hi⟩ := State.recv_mem_buildWork hmem
      rw [ht] at he
      cases he
      exact hi
    rw [receives_map_eventOf s.cfg m hslot, State.count_recv_buildWork hwf hNP hLP]
    simp [ownsFull, ht]

end

/-- Settles O41: a DISPATCH alone serves its work (`execN_dispatch_alone`), and the counts of the work's items are those
of its events. -/
theorem dispatchIsComplete : Obligations.DispatchIsComplete := by
  intro s hcur hidle hirq hwf he
  obtain ⟨-, -, -, halign, -⟩ := Params.wf_bounds hwf
  obtain ⟨n, u, oNP, oLP, hrun, hback, hclear, hNP, hLP, hlog⟩ := execN_dispatch_alone hcur hidle hirq halign he
  refine ⟨n, u, _, hrun, hback, hclear, hlog, fun p c => State.receives_buildWork hwf hNP hLP s.shm p c, fun p c => ?_⟩
  rw [drains_map_eventOf, State.count_drain_buildWork hwf hNP hLP]

end Sys2Proof.Machine
end

