-- ==== Sys2Proof/Proofs/InboundHandshake.lean ====
section
/-! O55: the inbound handshake of trusted peers, a request's one token, is kept by every step (R207, R351, R361, R364,
R369). Four moves touch a token: PPOST creates it with the request, the delivery of POST and the acknowledgement pass it
on, and the delivery of RXACK ends it with the request. -/

namespace Sys2Proof.Machine

/-! ### What the handshake depends on -/

/-- Of the queues only the POSTs and the RXACKs count. -/
theorem inboundHandshake_congr {s u : State} (hpreq : u.preq = s.preq) (hrx : u.rx = s.rx)
    (hpost : ∀ p c, (u.inq.get p c).count .post = (s.inq.get p c).count .post)
    (hack : ∀ p c, (u.outq.get p c).count .rxack = (s.outq.get p c).count .rxack) (h : s.inboundHandshake) :
    u.inboundHandshake := fun p c => by
  rw [State.inboundTokens, hpost, hrx, hack, hpreq]
  exact h p c

/-- A move that leaves the requests, `rx` and the queues alone. -/
theorem inboundHandshake_of_eq {s u : State} (hpreq : u.preq = s.preq) (hrx : u.rx = s.rx) (hin : u.inq = s.inq)
    (hout : u.outq = s.outq) (h : s.inboundHandshake) : u.inboundHandshake :=
  inboundHandshake_congr hpreq hrx (fun _ _ => by rw [hin]) (fun _ _ => by rw [hout]) h

/-- Where an operation touches one channel only, the others keep their handshake. -/
theorem inboundHandshake_of_channel {s u : State} {p : Port} {c : Chan} (h : s.inboundHandshake)
    (hother : ∀ q d, ¬(q = p ∧ d = c) → u.preq.get q d = s.preq.get q d ∧ u.rx.get q d = s.rx.get q d ∧
      u.inq.get q d = s.inq.get q d ∧ u.outq.get q d = s.outq.get q d)
    (hhere : u.inboundTokens p c = (u.preq.get p c).toNat) : u.inboundHandshake := fun q d => by
  by_cases hq : q = p ∧ d = c
  · obtain ⟨rfl, rfl⟩ := hq
    exact hhere
  · obtain ⟨hpreq, hrx, hin, hout⟩ := hother q d hq
    rw [State.inboundTokens, hpreq, hrx, hin, hout]
    exact h q d

/-- A new queue with as many of an event as the old one leaves their number in every channel. -/
theorem count_get_set {α : Type} [DecidableEq α] {f : Chans (List α)} {p : Port} {c : Chan} {l : List α} {e : α}
    (hl : l.count e = (f.get p c).count e) (q : Port) (d : Chan) :
    ((f.set p c l).get q d).count e = (f.get q d).count e := by
  rw [Chans.get_set]
  split
  · next hq => obtain ⟨rfl, rfl⟩ := hq; exact hl
  · rfl

/-! ### The writes of the registers -/

/-- A write of TX sends only TXSETs (R205). -/
theorem inboundHandshake_writeTx {s : State} (x : Word) (h : s.inboundHandshake) : (s.writeTx x).inboundHandshake :=
  inboundHandshake_congr (State.writeTx_preq s x) (State.writeTx_rx s x) (fun _ _ => by rw [State.writeTx_inq])
    (fun p c => by rw [State.writeTx_outq_get]; split <;> simp) h

/-- A write of CLR sends only TXCLRs (R209). -/
theorem inboundHandshake_writeClr {s : State} (x : Word) (h : s.inboundHandshake) : (s.writeClr x).inboundHandshake :=
  inboundHandshake_congr (State.writeClr_preq s x) (State.writeClr_rx s x) (fun _ _ => by rw [State.writeClr_inq])
    (fun p c => by rw [State.writeClr_outq_get]; split <;> simp) h

/-- Acknowledging FULL bits that stand turns each into its RXACK in flight (R207). -/
theorem inboundHandshake_clearStatus {s : State} {w : Word}
    (hset : ∀ p c, w.getLsbD (s.cfg.fullBit p c) = true → s.rx.get p c = true) (h : s.inboundHandshake) :
    (s.clearStatus w).inboundHandshake := fun p c => by
  have htok := h p c
  rw [State.inboundTokens] at htok ⊢
  rw [State.clearStatus_rx_get, State.clearStatus_outq_get, State.clearStatus_inq, State.clearStatus_preq]
  cases hw : w.getLsbD (s.cfg.fullBit p c) with
  | false => simpa using htok
  | true =>
    rw [hset p c hw, Bool.toNat_true] at htok
    simp
    omega

/-- A write of STATUS acknowledges only FULL bits that are set, which `rx` mirrors (R64(a), R207, R212). -/
theorem inboundHandshake_writeStatus {s : State} (x : Word) (hrx : s.rxMirrorsFull) (h : s.inboundHandshake) :
    (s.writeStatus x).inboundHandshake := by
  have hkeep : s.afterKeep.inboundHandshake :=
    inboundHandshake_of_eq (State.afterKeep_preq s) (State.afterKeep_rx s) (State.afterKeep_inq s)
      (State.afterKeep_outq s) h
  refine inboundHandshake_clearStatus (fun p c hw => ?_) hkeep
  rw [State.afterKeep_cfg] at hw
  rw [State.afterKeep_rx, hrx p c]
  simp only [BitVec.getLsbD_and, Bool.and_eq_true] at hw
  obtain ⟨⟨-, hset⟩, -⟩ := hw
  exact hset

/-! ### The peers and the synchronizers -/

/-- A post raises a request that was not standing and sends its POST (R351). -/
theorem inboundHandshake_ppost {s : State} {p : Port} {c : Chan} (hpreq : s.preq.get p c = false)
    (h : s.inboundHandshake) : ({ s with preq := s.preq.set p c true }.enqueueIn p c .post).inboundHandshake := by
  refine inboundHandshake_of_channel (p := p) (c := c) h (fun q d hne => ?_) ?_
  · simp [Chans.get_set, hne]
  · have htok := h p c
    simp only [State.inboundTokens, hpreq, Bool.toNat_false] at htok
    simp only [State.inboundTokens, State.enqueueIn_inq, State.enqueueIn_rx, State.enqueueIn_outq,
      State.enqueueIn_preq, Chans.get_set_same, List.count_append, List.count_singleton_self, Bool.toNat_true]
    omega

/-- A DRAIN is no token of the inbound handshake (R353). -/
theorem inboundHandshake_pdrain {s : State} (p : Port) (c : Chan) (h : s.inboundHandshake) :
    ({ s with pvTx := s.pvTx.set p c false }.enqueueIn p c .drain).inboundHandshake :=
  inboundHandshake_congr (s := s) rfl rfl (count_get_set (by simp)) (fun _ _ => rfl) h

/-- A delivered POST becomes the FULL that is not acknowledged yet, and there was none (R361). -/
theorem inboundHandshake_deliverIn {s : State} {p : Port} {c : Chan} {e : InEvent} {rest : List InEvent}
    (hq : s.inq.get p c = e :: rest) (h : s.inboundHandshake) :
    ({ s with inq := s.inq.set p c rest }.deliverIn p c e).inboundHandshake := by
  cases e with
  | post =>
    refine inboundHandshake_of_channel (p := p) (c := c) h (fun q d hne => ?_) ?_
    · simp [Chans.get_set, hne]
    · have htok := h p c
      have hone := Bool.toNat_le (s.preq.get p c)
      simp only [State.inboundTokens, hq, List.count_cons_self] at htok
      simp only [State.inboundTokens, State.deliverIn_inq, State.deliverIn_post_rx, State.deliverIn_outq,
        State.deliverIn_preq, Chans.get_set_same, Bool.toNat_true]
      omega
  | drain =>
    refine inboundHandshake_congr (s := s) (State.deliverIn_preq ..) (State.deliverIn_drain_rx ..) (fun q d => ?_)
      (fun q d => by rw [State.deliverIn_outq]) h
    rw [State.deliverIn_inq]
    exact count_get_set (by simp [hq]) q d

/-- A delivered RXACK was the one token of the request it clears; TXSET and TXCLR are no tokens (R363 to R365). -/
theorem inboundHandshake_deliverOut {s : State} {p : Port} {c : Chan} {e : OutEvent} {rest : List OutEvent}
    (hq : s.outq.get p c = e :: rest) (h : s.inboundHandshake) :
    ({ s with outq := s.outq.set p c rest }.deliverOut p c e).inboundHandshake := by
  cases e with
  | txset => exact inboundHandshake_congr (s := s) rfl rfl (fun _ _ => rfl) (count_get_set (by simp [hq])) h
  | rxack =>
    refine inboundHandshake_of_channel (p := p) (c := c) h (fun q d hne => ?_) ?_
    · simp [State.deliverOut, Chans.get_set, hne]
    · have htok := h p c
      have hone := Bool.toNat_le (s.preq.get p c)
      simp only [State.inboundTokens, hq, List.count_cons_self] at htok
      simp only [State.inboundTokens, State.deliverOut, Chans.get_set_same, Bool.toNat_false]
      omega
  | txclr => exact inboundHandshake_congr (s := s) rfl rfl (fun _ _ => rfl) (count_get_set (by simp [hq])) h

/-! ### The operations and the steps -/

theorem inboundHandshake_retire {s : State} (h : s.inboundHandshake) : s.retire.inboundHandshake :=
  inboundHandshake_of_eq (State.retire_preq s) (State.retire_rx s) (State.retire_inq s) (State.retire_outq s) h

/-- Every operation of a machine with trusted peers keeps the inbound handshake (R369). -/
theorem exec_inboundHandshake {i : Instr} {s u : State} (htrust : s.cfg.peerTrusted = true) (hrx : s.rxMirrorsFull)
    (h : s.inboundHandshake) (hx : exec i s = .next u) : u.inboundHandshake := by
  rcases exec_next hx with rfl | ⟨r, rfl⟩ | hd
  · exact h
  · exact h
  cases i with
  | wrTx x => subst hd; exact inboundHandshake_retire (inboundHandshake_writeTx _ h)
  | wrStatus x => subst hd; exact inboundHandshake_retire (inboundHandshake_writeStatus _ hrx h)
  | wrClr x => subst hd; exact inboundHandshake_retire (inboundHandshake_writeClr _ h)
  | send d msg t =>
    rcases SendDid.writesTx_or hd with ⟨x, rfl⟩ | ⟨-, hout⟩
    · exact inboundHandshake_of_eq (State.finishSend_preq ..) (State.finishSend_rx ..) (State.finishSend_inq ..)
        (State.finishSend_outq ..) (inboundHandshake_writeTx x h)
    · exact inboundHandshake_of_eq (exec_preq hx (by simp) (by simp))
        (exec_rx_status hx (by simp) (by simp) (by simp)).1 (exec_inq hx (by simp) (by simp) (by simp)) hout h
  | dispatch =>
    rcases DispatchDid.acknowledges_or hd with ⟨w, -, rfl⟩ | ⟨hrxEq, -, hout⟩
    · exact inboundHandshake_writeStatus w hrx h
    · exact inboundHandshake_of_eq (exec_preq hx (by simp) (by simp)) hrxEq
        (exec_inq hx (by simp) (by simp) (by simp)) hout h
  | ppost p c =>
    obtain ⟨hpreq, rfl⟩ := hd
    exact inboundHandshake_retire (inboundHandshake_ppost (hpreq htrust) h)
  | pdrain p c => obtain ⟨-, rfl⟩ := hd; exact inboundHandshake_retire (inboundHandshake_pdrain p c h)
  | syncIn p c => obtain ⟨e, rest, hq, rfl⟩ := hd; exact inboundHandshake_deliverIn hq h
  | syncOut p c => obtain ⟨e, rest, hq, rfl⟩ := hd; exact inboundHandshake_deliverOut hq h
  | _ =>
    exact inboundHandshake_of_eq (exec_preq hx (by simp) (by simp)) (exec_rx_status hx (by simp) (by simp) (by simp)).1
      (exec_inq hx (by simp) (by simp) (by simp)) (exec_outq hx (by simp) (by simp) (by simp) (by simp)) h

theorem inboundHandshake_scheduled {s : State} (h : s.inboundHandshake) : s.scheduled.inboundHandshake :=
  inboundHandshake_of_eq (State.scheduled_preq s) (State.scheduled_rx s) (State.scheduled_inq s)
    (State.scheduled_outq s) h

/-- Settles O55: the scheduling choice and a refusal touch no token, and every operation keeps them
(`exec_inboundHandshake`). -/
theorem stepsKeepInboundHandshake : Obligations.StepsKeepInboundHandshake := by
  intro s u _ htrust hrx h hstep
  have hsched : s.scheduled.inboundHandshake := inboundHandshake_scheduled h
  rcases step_next hstep with rfl | ⟨r, rfl⟩ | ⟨i, hx⟩
  · exact hsched
  · exact hsched
  · have hmirror : s.scheduled.rxMirrorsFull :=
      rxMirrorsFull_congr (State.scheduled_cfg s) (State.scheduled_rx s) (State.scheduled_status s) hrx
    exact exec_inboundHandshake (by rw [State.scheduled_cfg]; exact htrust) hmirror hsched hx

end Sys2Proof.Machine
end

