-- ==== Sys2Proof/Proofs/PeersAndSync.lean ====
section
/-! The peer moves and the synchronizers' deliveries, one lemma a kind of move (R350 to R354, R360 to R365): O43, O44,
O45, O47, O48. -/

namespace Sys2Proof.Machine

open Sys2Proof.Claims

/-! ### The peer moves (R350 to R354) -/

/-- A peer's operation returns after a change that leaves the peers (R472). -/
theorem retire_eq_peerReturned {s v : State} {p : Port} (h : s.cur = .peer p) (hcur : v.cur = s.cur)
    (hpeers : v.peers = s.peers) : v.retire = { v with peers := peerReturned s p } := by
  rw [State.retire_peer (hcur.trans h), hpeers]
  rfl

section
variable {s : State} {p : Port} (hcur : s.cur = .peer p) (c : Chan)
include hcur

/-- An enabled PWRITE writes the operand's value to its word of AP's read slot (R350). -/
theorem exec_pwrite (w : WordIdx) (x : Expr) (halign : s.cfg.shmBase % 4 = 0)
    (hg : s.cfg.peerTrusted = true → s.preq.get p c = false) :
    exec (.pwrite w p c x) s = .next { s with
      shm := s.shm.writeWord s.cfg.byteOrder (s.cfg.wordAddr (rslot p c) w) (s.eval x)
      peers := peerReturned s p } := by
  refine (State.peerMove_eq _ hcur fun ht => by rw [hg ht]; rfl).trans ?_
  simp only [State.memWrite_slot halign]
  exact congrArg Host.Outcome.next (retire_eq_peerReturned hcur rfl rfl)

/-- An enabled PREAD logs and binds its word of AP's write slot (R352). -/
theorem exec_pread (w : WordIdx) (t : VarName) (halign : s.cfg.shmBase % 4 = 0)
    (hg : s.cfg.peerTrusted = true → s.pvTx.get p c = true) :
    exec (.pread w p c t) s = .next { s with
      log := s.log ++ [.peerRead p c w (s.shm.readWord s.cfg.byteOrder (s.cfg.wordAddr (wslot p c) w))]
      peers := peerBound s p t (s.shm.readWord s.cfg.byteOrder (s.cfg.wordAddr (wslot p c) w)) } := by
  refine (State.peerMove_eq _ hcur hg).trans ?_
  simp only [State.memRead_slot halign]
  exact congrArg Host.Outcome.next (State.bind_retire_peer (s := s.emit _) t _ hcur)

end

/-- Settles O43: the word read back is the word written, and a byte outside it is left (`Memory.byte_writeWord`). -/
theorem peerSlotAccess : Obligations.PeerSlotAccess := by
  refine fun s w p c x t hcur halign => ⟨fun hg => ?pwrite, fun hg => ?pread⟩
  case pwrite =>
    refine ⟨_, exec_pwrite hcur c w x halign hg, rfl, ?read, fun a ha => ?frame⟩
    case read =>
      refine (State.memRead_slot (by exact halign) (rslot p c) w).trans (congrArg some ?_)
      exact Memory.readWord_writeWord_same _ _ _ _
    case frame => exact (Memory.byte_writeWord _ _ _ _ _).trans (if_neg ha)
  case pread => exact ⟨_, State.memRead_slot halign (wslot p c) w, exec_pread hcur c w t halign hg⟩

/-- Settles O44: an enabled peer move takes its body's step (`State.peerMove_eq`) and returns. -/
theorem peerPostAndDrainSendTheirEvents : Obligations.PeerPostAndDrainSendTheirEvents := by
  refine fun s p c hcur => ⟨fun hg => ?ppost, fun hg => ?pdrain⟩
  case ppost =>
    refine (State.peerMove_eq _ hcur fun ht => by rw [hg ht]; rfl).trans ?_
    exact congrArg Host.Outcome.next (retire_eq_peerReturned hcur rfl rfl)
  case pdrain =>
    refine (State.peerMove_eq _ hcur hg).trans ?_
    exact congrArg Host.Outcome.next (retire_eq_peerReturned hcur rfl rfl)

/-- Settles O45: the guard of a move fails, and a trusted peer waits (`State.peerMove_waits`). -/
theorem trustedPeerWaitsOutsideItsContract : Obligations.TrustedPeerWaitsOutsideItsContract := by
  refine fun s w p c x t hcur htrust => ⟨fun hpreq => ?request, fun hpv => ?view⟩
  case request =>
    have hguard : (!(s.preq.get p c)) = false := by rw [hpreq]; rfl
    exact ⟨State.peerMove_waits _ hcur htrust hguard, State.peerMove_waits _ hcur htrust hguard⟩
  case view => exact ⟨State.peerMove_waits _ hcur htrust hpv, State.peerMove_waits _ hcur htrust hpv⟩

/-! ### The deliveries (R360 to R365) -/

/-- SYNC_IN takes the head of its queue and delivers it in AP's domain (R360, R367). -/
theorem exec_syncIn {s : State} {p : Port} {c : Chan} {e : InEvent} {rest : List InEvent}
    (hcur : s.cur = .sync .inward p c) (hq : s.inq.get p c = e :: rest) :
    exec (.syncIn p c) s = .next ({ s with inq := s.inq.set p c rest }.deliverIn p c e) := by
  refine (State.asAgent_eq _ hcur).trans ?_
  simp only [hq]

/-- SYNC_OUT takes the head of its queue and delivers it in the peer's domain (R360, R367). -/
theorem exec_syncOut {s : State} {p : Port} {c : Chan} {e : OutEvent} {rest : List OutEvent}
    (hcur : s.cur = .sync .outward p c) (hq : s.outq.get p c = e :: rest) :
    exec (.syncOut p c) s = .next ({ s with outq := s.outq.set p c rest }.deliverOut p c e) := by
  refine (State.asAgent_eq _ hcur).trans ?_
  simp only [hq]

/-- Settles O47: the delivery of the head (`exec_syncIn`), where a DRAIN looks at the TX bit it finds (R362). -/
theorem inboundDelivery : Obligations.InboundDelivery := by
  refine fun s p c rest hcur => ⟨fun hq => ?post, fun hq htx => ?drain, fun hq htx => ?withdrawn⟩
  case post => exact exec_syncIn hcur hq
  case drain => exact (exec_syncIn hcur hq).trans (congrArg Host.Outcome.next (if_pos htx))
  case withdrawn => exact (exec_syncIn hcur hq).trans (congrArg Host.Outcome.next (if_neg (by simp [htx])))

/-- Settles O48: the delivery of the head (`exec_syncOut`). -/
theorem outboundDelivery : Obligations.OutboundDelivery := fun _ _ _ _ hcur =>
  ⟨exec_syncOut hcur, exec_syncOut hcur, exec_syncOut hcur⟩

end Sys2Proof.Machine
end

