-- ==== Sys2Proof/Proofs/Refusals.lean ====
section
/-! Refusals (R401, R404). O10: every operation answers a next state, its refusals and waits included. O7: a refused
entry leaves the mark and no other change, and the marked state has no step. -/

namespace Sys2Proof.Machine

open Sys2Proof.Claims

/-! ### Every operation answers a next state (log 2, log 7) -/

/-- The outcome is a next state. -/
def Answers (o : Out) : Prop := ∃ u, o = .next u

theorem answers_next (u : State) : Answers (.next u) := ⟨u, rfl⟩

section
variable {s : State}

/-- The check of a Caller's operation adds only the mark WrongAgent (R147). -/
theorem answers_asCaller {body : Caller → Out} (h : ∀ c, Answers (body c)) : Answers (s.asCaller body) := by
  unfold State.asCaller
  split
  · split
    · exact h _
    · exact answers_next _
  all_goals exact answers_next _

/-- The check of one agent's operation adds only the mark WrongAgent (R147). -/
theorem answers_asAgent {a : Agent} {body : Out} (h : Answers body) : Answers (s.asAgent a body) := by
  unfold State.asAgent
  split
  · exact h
  · exact answers_next _

/-- The contract of a trusted peer adds only the waiting (R354). -/
theorem answers_peerMove {p : Port} {g : Bool} {body : Out} (h : Answers body) : Answers (s.peerMove p g body) := by
  refine answers_asAgent ?_
  split
  · exact answers_next _
  · exact h

/-- CONFIG writes its field or is refused (R242). -/
theorem answers_config (d : DescName) (f : Desc → Option Desc) : Answers (s.config d f) := by
  refine answers_asCaller fun _ => ?_
  repeat' split
  all_goals exact answers_next _

/-- REGISTER and UNREGISTER wait, are refused, or end with a result code (R240). -/
theorem answers_managed (op : ChmOp) (d : DescName) (t : VarName) (body : Handle → Desc → State × ResultCode) :
    Answers (s.managed op d t body) := by
  refine answers_asCaller fun _ => ?_
  repeat' split
  all_goals exact answers_next _

/-- S1 of SEND waits, is refused, ends with a result code, or fixes the locals (R280). -/
theorem answers_sendLookup (d : DescName) (msg : MsgExpr) (t : VarName) : Answers (s.sendLookup d msg t) := by
  unfold State.sendLookup
  repeat' split
  all_goals exact answers_next _

/-- S2 to S8 of SEND are refused only by shared memory (R106, R282 to R285). -/
theorem answers_sendStep (l : SendLocals) (t : VarName) : Answers (s.sendStep l t) := by
  unfold State.sendStep
  repeat' split
  all_goals exact answers_next _

/-- The read of a slot's word is refused only by shared memory (R106, R308). -/
theorem answers_runRecv (w m a : Word) (p : Port) (c : Chan) (rs : Slot) (rest : List WorkItem) (buf : RecvBuf) :
    Answers (s.runRecv w m a p c rs rest buf) := by
  unfold State.runRecv
  repeat' split
  all_goals exact answers_next _

/-- DISPATCH answers in every phase, and waits in IDLE without `irq` (R306 to R309). -/
theorem answers_execDispatch : Answers (execDispatch s) := by
  refine answers_asAgent ?_
  cases s.dphase with
  | idle => dsimp only; split <;> exact answers_next _
  | acq | snap _ | ack _ | maskrd _ _ => exact answers_next _
  | run w m a work buf =>
    cases work with
    | nil => exact answers_next _
    | cons item rest =>
      cases item with
      | drain _ _ | stray _ _ => exact answers_next _
      | recv p c rs => exact answers_runRecv ..

end

/-- Settles O10: the body of every operation answers a next state, and so does it behind its issuer check. -/
theorem everyOperationAnswersANextState : Obligations.EveryOperationAnswersANextState := by
  intro i s
  change Answers (exec i s)
  cases i with
  | rdTx _ | rdRx _ | rdStatus _ | rdMask _ | rdClr _ => exact answers_asCaller fun _ => answers_next _
  | wrTx _ | wrRx _ | wrStatus _ | wrMask _ | wrClr _ => exact answers_asCaller fun _ => answers_next _
  | alloc _ _ _ => exact answers_asCaller fun _ => answers_next _
  | configPort d x => exact answers_config d fun D => some { D with port := s.eval x }
  | configId d x => exact answers_config d fun D => some { D with id := (s.eval x).toNat }
  | configHandshake _ _ | configHasReceive _ _ | configHasTxDrained _ _ => exact answers_config ..
  | register _ _ | unregister _ _ => exact answers_managed ..
  | send _ _ _ =>
    refine answers_asCaller fun _ => ?_
    split
    · exact answers_sendLookup ..
    · exact answers_sendStep ..
  | bringup _ =>
    refine answers_asCaller fun _ => ?_
    split <;> exact answers_next _
  | dispatch => exact answers_execDispatch
  | pwrite _ _ _ _ | pread _ _ _ _ =>
    refine answers_peerMove ?_
    split <;> exact answers_next _
  | ppost _ _ | pdrain _ _ => exact answers_peerMove (answers_next _)
  | syncIn _ _ | syncOut _ _ =>
    refine answers_asAgent ?_
    split <;> exact answers_next _

/-! ### Refused entries and the marked state (R149, R106, R401, R404; log 7, log 8) -/

/-- The step of an unmarked state whose scheduled agent's entry decodes to no operation. -/
theorem step_of_decodeItem_error {s : State} {it : Item} {r : Reason} (hr : s.refused = none)
    (hf : s.scheduled.fetch = some it) (hd : decodeItem s.cfg it = .error r) :
    step s = .next (s.scheduled.rejectItem r) := by
  rw [step, hr]
  simp only [hf, State.scheduled_cfg, hd]

/-- A Caller's access to no register is BadAccess (R106). -/
theorem State.rejectItem_of_caller {s : State} {k : Nat} (h : s.cur = .caller k) :
    s.rejectItem .badAccess = s.raise .badAccess := by simp only [State.rejectItem, h]

/-- A peer's access to no register is WrongAgent first (R401). -/
theorem State.rejectItem_of_peer {s : State} {p : Port} (h : s.cur = .peer p) :
    s.rejectItem .badAccess = s.raise .wrongAgent := by simp only [State.rejectItem, h]

/-- A raw access is an operation of the Callers or BadAccess (R106, R200). -/
theorem decodeBus_cases (cfg : Params) (a : BusAccess) :
    (∃ i, decodeBus cfg a = .ok i ∧ i.issuer = .caller 0) ∨ decodeBus cfg a = .error .badAccess := by
  unfold decodeBus
  split
  · next r _ =>
    refine .inl ⟨_, rfl, ?_⟩
    split
    · cases r <;> rfl
    · cases r <;> rfl
  · exact .inr rfl

/-- A peer is a wrong issuer of an operation of the Callers (R147). -/
theorem wrongIssuer_of_peer {s : State} {i : Instr} {p : Port} (hi : i.issuer = .caller 0) (hcur : s.cur = .peer p) :
    WrongIssuer s i := by
  refine .inl ?_
  simp [Instr.mayIssue, hi, hcur]

/-- A peer's raw access is WrongAgent, whether or not it reaches a register (R401). -/
theorem step_peer_bus {s : State} {a : BusAccess} {p : Port} (hr : s.refused = none)
    (hf : s.scheduled.fetch = some (.bus a)) (hcur : s.scheduled.cur = .peer p) :
    step s = .next (s.scheduled.raise .wrongAgent) := by
  rcases decodeBus_cases s.cfg a with ⟨i, hd, hi⟩ | hd
  · exact (step_of_decodeItem hr hf hd).trans (wrongIssuerIsRefused i _ (wrongIssuer_of_peer hi hcur))
  · exact (step_of_decodeItem_error hr hf hd).trans (congrArg Host.Outcome.next (State.rejectItem_of_peer hcur))

/-- In a marked state no agent has an enabled step (R404). -/
theorem State.canStep_of_refused {s : State} {r : Reason} (h : s.refused = some r) (a : Agent) :
    s.canStep a = false := by
  rw [State.canStep, State.canStepNow, h]
  rfl

/-- Settles O7: the entry decodes to no operation, and its rejection is the mark; a peer's access that reaches a
register is refused by the issuer check (`step_peer_bus`). -/
theorem refusalMarksAndStopsTheRun : Obligations.RefusalMarksAndStopsTheRun := by
  refine fun s r => ⟨fun h => ⟨?stopped, State.canStep_of_refused h⟩, fun w o hr hf hd => ?illegalOp,
    fun a k hr hf hd hcur => ?badAccess, fun a p hr hf hcur => step_peer_bus hr hf hcur⟩
  case stopped => rw [step, h]
  case illegalOp => exact step_of_decodeItem_error hr hf hd
  case badAccess =>
    exact (step_of_decodeItem_error hr hf hd).trans (congrArg Host.Outcome.next (State.rejectItem_of_caller hcur))

end Sys2Proof.Machine
end

