-- ==== Sys2Proof/Proofs/Bringup.lean ====
section
/-! BRINGUP of a Caller (R452): O26. -/

namespace Sys2Proof.Machine

open Sys2Proof.Claims

section
variable {s : State} {k : Nat} {c : Caller} (h : IsCaller s k c) (t : VarName)
include h

/-- BRINGUP's end writes the device state, logs and binds its code; of the draw only `tape` and `drawn` remain (log 4). -/
theorem finish_bringup_eq (dev : Dev) (code : ResultCode) :
    { s.afterDraw with dev := dev }.finish .bringup t code = { s with
      dev := dev
      log := s.log ++ [.result (.caller k) .bringup code]
      callers := bound s k c t code.toWord
      tape := s.afterDraw.tape
      drawn := s.afterDraw.drawn } := by
  rw [finish_eq_bound h (v := { s.afterDraw with dev := dev }) .bringup t code s.afterDraw_cur s.afterDraw_callers,
    State.afterDraw_eq]

/-- BRINGUP of an UNINIT device whose draw says so fails (R452). -/
theorem exec_bringup_fails (hdev : s.dev = .uninit) (hdraw : s.drawBool = true) :
    exec (.bringup t) s = .next { s with
      dev := .failed
      log := s.log ++ [.result (.caller k) .bringup .hardwareBringupFailed]
      callers := bound s k c t 6
      tape := s.afterDraw.tape
      drawn := s.afterDraw.drawn } := by
  refine (asCaller_of_isCaller h _).trans ((if_neg (not_not.2 hdev)).trans (congrArg Host.Outcome.next ?_))
  exact (if_pos hdraw).trans (finish_bringup_eq h t .failed .hardwareBringupFailed)

/-- BRINGUP of an UNINIT device succeeds otherwise (R452). -/
theorem exec_bringup_succeeds (hdev : s.dev = .uninit) (hdraw : s.drawBool = false) :
    exec (.bringup t) s = .next { s with
      dev := .ok
      log := s.log ++ [.result (.caller k) .bringup .ok]
      callers := bound s k c t 0
      tape := s.afterDraw.tape
      drawn := s.afterDraw.drawn } := by
  refine (asCaller_of_isCaller h _).trans ((if_neg (not_not.2 hdev)).trans (congrArg Host.Outcome.next ?_))
  exact (if_neg (ne_true_of_eq_false hdraw)).trans (finish_bringup_eq h t .ok .ok)

/-- A BRINGUP after the first is refused, whether the first succeeded or failed (R452). -/
theorem exec_bringup_again (hdev : s.dev ≠ .uninit) : exec (.bringup t) s = .next (s.raise .rebringup) :=
  (asCaller_of_isCaller h _).trans (if_pos hdev)

end

/-- Settles O26: the draw decides between `exec_bringup_fails` and `exec_bringup_succeeds`, and a second BRINGUP is
`exec_bringup_again`. -/
theorem bringupSetsTheDeviceOnce : Obligations.BringupSetsTheDeviceOnce := by
  refine fun s k c t h => ⟨fun hdev => ?once, exec_bringup_again h t⟩
  cases hdraw : s.drawBool with
  | true => exact ⟨_, exec_bringup_fails h t hdev hdraw, Bool.noConfusion, fun _ => rfl⟩
  | false => exact ⟨_, exec_bringup_succeeds h t hdev hdraw, fun _ => rfl, Bool.noConfusion⟩

end Sys2Proof.Machine
end
